-- ==== Sys2Proof/Word.lean ====
section
/-! DEFINITION. The value types of the block (00_scope.md R7): levels, bytes, 16-bit words. Every value is unsigned. -/

namespace Sys2Proof

/-- A level is one bit: `true` = high = 1, `false` = low = 0 (R7). -/
abbrev Level := Bool

/-- One ring slot, one byte of the wire (R20, R44). -/
abbrev Byte := BitVec 8

/-- A 16-bit value: the tick counter, a duration, a PulseWord (R11, R15, R60). -/
abbrev Word := BitVec 16

/-- `a ++ b`: `hi` in the high bits (R7). -/
def Word.ofBytes (hi lo : Byte) : Word := (hi ++ lo : BitVec 16)

end Sys2Proof
end

