-- ==== Sys2Proof/Config.lean ====
section
/-! DEFINITION. The parameters of the block (00_scope.md R6) and the free values: what the spec leaves unspecified (R33, U5) and the choice of the agent that acts next (R187). -/

namespace Sys2Proof

/-- `WORD_PUSH_POLICY` (R6, R113, R115). -/
inductive PushPolicy where
  | byte
  | word
deriving DecidableEq, Repr

/-- `MASKED_EDGE_POLICY` (R6, R96, R216). -/
inductive MaskedEdgePolicy where
  | lost
  | deferred
deriving DecidableEq, Repr

/-- One step of an agent, without an operand: what the agent does follows from the state (R186).
`pin` is a change of the IR pin: EDGE, or PIN in the split form; `capture` is the next CAP micro-step of
the split form (R96). -/
inductive Turn where
  | timer
  | pin
  | capture
  | mainLoop
  | reset
deriving DecidableEq, Repr, Inhabited

/-- The parameters of R6. Every value of this type is admissible: the capacity is a power of two, 2 or more,
and the last stop state has an index of 1 or more, by construction. -/
structure Config where
  /-- `RING_CAP` is 2 to the power `ringExp + 1`. -/
  ringExp : Nat
  /-- `STOP_N` is `stopExtra + 1`. -/
  stopExtra : Nat
  /-- `MARK_LEVEL`. -/
  markLevel : Level
  /-- `IR_LEVEL_0`. -/
  irLevel0 : Level
  /-- `CAPTURE_ATOMIC`. -/
  captureAtomic : Bool
  /-- `WORD_PUSH_POLICY`. -/
  pushPolicy : PushPolicy
  /-- `MASKED_EDGE_POLICY`. -/
  maskedEdge : MaskedEdgePolicy
  /-- `T_TICK` as its inverse; no rule uses it (R6, R220). -/
  ticksPerSecond : Nat
deriving DecidableEq, Repr

namespace Config

/-- `RING_CAP` (R6). -/
def ringCap (c : Config) : Nat := 2 ^ (c.ringExp + 1)

/-- `STOP_N`: the index of the last stop state (R6). -/
def stopN (c : Config) : Nat := c.stopExtra + 1

/-- `SPACE_LEVEL = 1 - MARK_LEVEL` (R6). -/
def spaceLevel (c : Config) : Level := !c.markLevel

/-- `FRAME_TICKS = 11 + STOP_N` (R6, R153). -/
def frameTicks (c : Config) : Nat := 11 + c.stopN

/-- `ST_TXEND = 11 + STOP_N`: the number of the last UART state (R6, R72). -/
def stTxend (c : Config) : Nat := 11 + c.stopN

/-- `SENTINEL` (R6): the duration reported when the overflow flag is set. It is also `CNT_MAX`. -/
def sentinel : Word := 0xFFFF#16

/-- `WORD_DUR_MAX` (R6): the largest duration a PulseWord carries. -/
def wordDurMax : Word := 0x7FFF#16

/-- The defaults of R6. DESIGN CHOICE (log 3): the open parameters without a default in the spec take the
values of the test vectors (`RING_CAP` = 8, `IR_LEVEL_0` = 1) and `lost`. -/
def standard : Config where
  ringExp := 2
  stopExtra := 0
  markLevel := true
  irLevel0 := true
  captureAtomic := true
  pushPolicy := .byte
  maskedEdge := .lost
  ticksPerSecond := 16384

/-- The draw of `sample.level` at the `n`-th RESET (R33, U5; log 4). -/
opaque freeLevel : Nat → Level

/-- The draw of `tsr` at the `n`-th RESET (R33, U5; log 4). -/
opaque freeShift : Nat → Byte

/-- The draw of `enc_w` at the `n`-th RESET (R33, U5; log 4). -/
opaque freeWord : Nat → Word

/-- The draw of `t_ovf` at the `n`-th RESET (R200; log 4). -/
opaque freeFlag : Nat → Bool

/-- The draw of `t_cnt` at the `n`-th RESET (R200; log 4). -/
opaque freeCount : Nat → Word

/-- The draw of ring slot `i` at the `n`-th RESET: `freeSlot n i` (R33, U5; log 5). -/
opaque freeSlot : Nat → Nat → Byte

/-- Which agent acts at the `n`-th step that `sched` does not determine (R187; log 2). -/
opaque turnAt : Nat → Turn

end Config
end Sys2Proof
end

