-- ==== Sys2Proof/Syntax.lean ====
section
/-! DEFINITION. The operations of the block, its UART state transitions and its data formats: one constructor per row of spec/opcode_table.json (30_encoding.md R71, R72, R77). -/

namespace Sys2Proof

/-- One constructor per row of the opcode table. -/
inductive Instr where
  /-- RESET (R200). -/
  | reset
  /-- TICK (R91). -/
  | tick
  /-- EDGE `l` (R94, R96): the IR pin changed to level `l`. -/
  | edge (l : Level)
  /-- ENC_TAKE (R111). -/
  | encTake
  /-- ENC_LO (R113, R115). -/
  | encLo
  /-- ENC_HI (R114). -/
  | encHi
  /-- PUSH `b` (R126). -/
  | push (b : Byte)
  /-- POP (R127). -/
  | pop
  /-- TX_STEP when `st = idle` (R141). -/
  | txIdle
  /-- TX_STEP when `st = startbit` (R142). -/
  | txStart
  /-- TX_STEP when `st = databit0` (R143). -/
  | txData0
  /-- TX_STEP when `st = databit1` (R143). -/
  | txData1
  /-- TX_STEP when `st = databit2` (R143). -/
  | txData2
  /-- TX_STEP when `st = databit3` (R143). -/
  | txData3
  /-- TX_STEP when `st = databit4` (R143). -/
  | txData4
  /-- TX_STEP when `st = databit5` (R143). -/
  | txData5
  /-- TX_STEP when `st = databit6` (R143). -/
  | txData6
  /-- TX_STEP when `st = databit7` (R144). -/
  | txData7
  /-- TX_STEP when `st = stopbit k`, `k < STOP_N` (R145). -/
  | txStop0
  /-- TX_STEP when `st = stopbit STOP_N` (R146). -/
  | txStop1
  /-- TX_STEP when `st = txend` (R147). -/
  | txEnd
  /-- A PulseWord with level flag `l` and duration field `d` (R60). -/
  | word (l : Level) (d : BitVec 15)
  /-- The UART frame of byte `b` (R64). -/
  | frame (b : Byte)
  /-- The reserved out-of-band prefix (R70). -/
  | oobPrefix
deriving DecidableEq, Repr

end Sys2Proof
end

