-- ==== Sys2Proof/WellFormed.lean ====
section
/-! DEFINITION. Which terms of Instr are operations or formats of the block: the operand types bound everything but the duration field of a PulseWord, which is never 0 (30_encoding.md R60, R67). -/

namespace Sys2Proof

/-- The checks on an instruction's operands. -/
def Instr.wellFormed : Instr → Bool
  | .word _ d => d != 0#15
  | .reset | .tick | .edge _ | .encTake | .encLo | .encHi | .push _ | .pop
  | .txIdle | .txStart | .txData0 | .txData1 | .txData2 | .txData3 | .txData4 | .txData5 | .txData6 | .txData7
  | .txStop0 | .txStop1 | .txEnd | .frame _ | .oobPrefix => true

/-- `i` is well formed. -/
abbrev WellFormed (i : Instr) : Prop := i.wellFormed = true

end Sys2Proof
end

