-- ==== Sys2Proof/Decode.lean ====
section
/-! DEFINITION. The encodings of 30_encoding.md: descriptors of operations (R71), UART state patterns (R72), PulseWords (R60), frames (R64) and the reserved prefix (R70). Decoding is total and rejects by name; the encoder stands after it. Each format is a space of its own (R77), so a descriptor carries its format beside its bits. -/

namespace Sys2Proof

/-- The five formats of the opcode table (R77). -/
inductive Format where
  | op
  | txstate
  | pulseword
  | frame
  | reserved
deriving DecidableEq, Repr

/-- An encoded row: the format and its pattern in the low bits, zeros above. -/
structure Descriptor where
  fmt : Format
  bits : BitVec 16
deriving DecidableEq, Repr

/-- Why a descriptor stands for nothing. -/
inductive DecodeReject where
  /-- A bit above the format's width is set. -/
  | bitsAbovePattern
  /-- An operation without an operand carries a non-zero operand (R71). -/
  | operandNotZero
  /-- A number that names no UART state (R73, U2). -/
  | illegalUartState
  /-- The word 0x0000 is the reserved prefix, no PulseWord (R67, R70). -/
  | reservedPrefix
  /-- A word with `D = 0` is no PulseWord (R60, R67). -/
  | zeroDuration
  /-- The start quantum is at mark or a stop quantum is at space (R64). -/
  | notAFrame
  /-- The reserved format holds the word 0x0000 alone (R70). -/
  | notReserved
deriving DecidableEq, Repr

/-- An operation without an operand: its operand bits are zero (R71). -/
def noOperand (operand : Byte) (i : Instr) : Except DecodeReject Instr :=
  if operand = 0#8 then .ok i else .error .operandNotZero

/-- The 11-bit descriptor `sel[10:8] ++ operand[7:0]` (R71). -/
def decodeOp (w : BitVec 16) : Except DecodeReject Instr :=
  let operand : Byte := w.extractLsb' 0 8
  if w.extractLsb' 11 5 ≠ 0#5 then .error .bitsAbovePattern
  else match (w.extractLsb' 8 3).toNat with
    | 0 => noOperand operand .reset
    | 1 => noOperand operand .tick
    | 2 => if operand.extractLsb' 1 7 = 0#7 then .ok (.edge (operand.getLsbD 0)) else .error .operandNotZero
    | 3 => noOperand operand .encTake
    | 4 => noOperand operand .encLo
    | 5 => noOperand operand .encHi
    | 6 => .ok (.push operand)
    | _ => noOperand operand .pop

/-- The 4-bit number of a UART state for `STOP_N = 1` (R72); 13 to 15 name no state (R73). -/
def decodeTxState (w : BitVec 16) : Except DecodeReject Instr :=
  if w.extractLsb' 4 12 ≠ 0#12 then .error .bitsAbovePattern
  else match (w.extractLsb' 0 4).toNat with
    | 0 => .ok .txIdle
    | 1 => .ok .txStart
    | 2 => .ok .txData0
    | 3 => .ok .txData1
    | 4 => .ok .txData2
    | 5 => .ok .txData3
    | 6 => .ok .txData4
    | 7 => .ok .txData5
    | 8 => .ok .txData6
    | 9 => .ok .txData7
    | 10 => .ok .txStop0
    | 11 => .ok .txStop1
    | 12 => .ok .txEnd
    | _ => .error .illegalUartState

/-- `LDDDDDDDDDDDDDDD` (R60); `D = 0` is never a PulseWord (R67). -/
def decodePulseWord (w : BitVec 16) : Except DecodeReject Instr :=
  if w = 0#16 then .error .reservedPrefix
  else if w.extractLsb' 0 15 = 0#15 then .error .zeroDuration
  else .ok (.word (w.getLsbD 15) (w.extractLsb' 0 15))

/-- A byte from its data quanta in time order `abcdefgh`, `a = b[0]` leftmost (R64). The function is its
own inverse. -/
def timeOrder (b : Byte) : Byte :=
  (BitVec.ofBool (b.getLsbD 0) ++ BitVec.ofBool (b.getLsbD 1) ++ BitVec.ofBool (b.getLsbD 2)
    ++ BitVec.ofBool (b.getLsbD 3) ++ BitVec.ofBool (b.getLsbD 4) ++ BitVec.ofBool (b.getLsbD 5)
    ++ BitVec.ofBool (b.getLsbD 6) ++ BitVec.ofBool (b.getLsbD 7) : BitVec 8)

/-- `0abcdefgh111`, first quantum leftmost, 1 = MARK, for `STOP_N = 1` (R64). -/
def decodeFrame (w : BitVec 16) : Except DecodeReject Instr :=
  if w.extractLsb' 12 4 ≠ 0#4 then .error .bitsAbovePattern
  else if w.getLsbD 11 = false ∧ w.extractLsb' 0 3 = 7#3 then .ok (.frame (timeOrder (w.extractLsb' 3 8)))
  else .error .notAFrame

/-- The reserved prefix 0x0000 (R70). -/
def decodeReserved (w : BitVec 16) : Except DecodeReject Instr :=
  if w = 0#16 then .ok .oobPrefix else .error .notReserved

/-- Decoding, total on every descriptor. Rows of different formats are never decoded against each other (R77). -/
def decode (d : Descriptor) : Except DecodeReject Instr :=
  match d.fmt with
  | .op => decodeOp d.bits
  | .txstate => decodeTxState d.bits
  | .pulseword => decodePulseWord d.bits
  | .frame => decodeFrame d.bits
  | .reserved => decodeReserved d.bits

/-! ### The encoder, from the same tables -/

/-- An operation's descriptor: `sel ++ operand` (R71). -/
def opDescriptor (sel : BitVec 3) (operand : Byte) : Descriptor :=
  ⟨.op, (0#5 ++ sel ++ operand : BitVec 16)⟩

/-- A UART state's descriptor: its number (R72). -/
def txDescriptor (n : BitVec 4) : Descriptor := ⟨.txstate, (0#12 ++ n : BitVec 16)⟩

/-- The descriptor of an instruction. -/
def encode : Instr → Descriptor
  | .reset => opDescriptor 0 0
  | .tick => opDescriptor 1 0
  | .edge l => opDescriptor 2 (0#7 ++ BitVec.ofBool l : BitVec 8)
  | .encTake => opDescriptor 3 0
  | .encLo => opDescriptor 4 0
  | .encHi => opDescriptor 5 0
  | .push b => opDescriptor 6 b
  | .pop => opDescriptor 7 0
  | .txIdle => txDescriptor 0
  | .txStart => txDescriptor 1
  | .txData0 => txDescriptor 2
  | .txData1 => txDescriptor 3
  | .txData2 => txDescriptor 4
  | .txData3 => txDescriptor 5
  | .txData4 => txDescriptor 6
  | .txData5 => txDescriptor 7
  | .txData6 => txDescriptor 8
  | .txData7 => txDescriptor 9
  | .txStop0 => txDescriptor 10
  | .txStop1 => txDescriptor 11
  | .txEnd => txDescriptor 12
  | .word l d => ⟨.pulseword, (BitVec.ofBool l ++ d : BitVec 16)⟩
  | .frame b => ⟨.frame, (0#5 ++ timeOrder b ++ 7#3 : BitVec 16)⟩
  | .oobPrefix => ⟨.reserved, 0⟩

/-- The width of a format's pattern in bits or quanta (R77). -/
def Format.width : Format → Nat
  | .op => 11
  | .txstate => 4
  | .pulseword => 16
  | .frame => 12
  | .reserved => 16

/-! ### The table's rows by the width of their pattern -/

/-- The five formats. -/
def Format.all : List Format := [.op, .txstate, .frame, .reserved, .pulseword]

/-- Every reading of a pattern of `width` bits or quanta: each format of that very width reads it in its own space, and
no reading hides another (R77). 11 is the operations' width, 12 the frames', 4 the UART states'; 16 is that of the
PulseWord and the prefix alone. -/
def tableReadings (width w : Nat) : List Descriptor :=
  if w < 65536 then
    ((Format.all.filter (·.width = width)).map fun f => ⟨f, BitVec.ofNat 16 w⟩).filter fun d => (decode d).isOk
  else []

/-! ### The host's port

`decodeTableWord` is given no width of R77 but a number of bits in whole bytes, at which the widths 11, 12 and 16 are
one number. -/

/-- The widths of R77 that the port's number of bits may stand for: the number itself, or a width that comes to it in
whole bytes. DESIGN CHOICE (log 18): the shorter pattern stands first. -/
def portWidths (nbits : Nat) : List Nat := [4, 11, 12, 16].filter fun n => n = nbits || (n + 7) / 8 * 8 = nbits

/-- The reading the port answers with: the first of its widths' (log 18). -/
def tableDescriptor (nbits w : Nat) : Option Descriptor := ((portWidths nbits).flatMap (tableReadings · w)).head?

/-- The instruction of that reading. -/
def decodeTableWord (nbits w : Nat) : Option Instr :=
  match tableDescriptor nbits w with
  | none => none
  | some d => (decode d).toOption

end Sys2Proof
end

