-- ==== Sys2Proof/Machine/State.lean ====
section
/-! DEFINITION. The state of the block (10_state.md R10 to R33, 40_capture.md R96), the model's own fields beside it, the reasons a step can stop, and the state after reset (R33, R200). -/

namespace Sys2Proof.Machine

/-- The ring storage: listed slots with their bytes, slots strictly rising (R20, R44). A slot not listed was
not written since RESET. -/
abbrev Memory := List Host.Cell

/-- The UART transmit states (R17, R72). `stopbit k` is a state when `k` is at most `STOP_N`; a larger `k` is
the out-of-range value of R73. -/
inductive UartState where
  | idle
  | startbit
  | databit (i : Fin 8)
  | stopbit (k : Nat)
  | txend
deriving DecidableEq, Repr

/-- The encoder phases (R21, R74). -/
inductive EncPhase where
  | take
  | lo
  | hi
deriving DecidableEq, Repr

/-- The micro-step index `cap_ph` of the split capture: `none` = 0, `cap k` is the step to perform next (R96). -/
inductive CapPhase where
  | none
  | cap1
  | cap2
  | cap3
  | cap4
  | cap5
  | cap6
deriving DecidableEq, Repr

/-- The CaptureSample mailbox (R13 to R16). -/
structure Sample where
  level : Level
  duration : Word
  overflowed : Bool
deriving DecidableEq, Repr

/-- The silent conditions of R170. -/
inductive Condition where
  | counterOverflow
  | ringFull
  | mailboxOverrun
  | zeroDuration
  | durationClamp
deriving DecidableEq, Repr

/-- How often each condition was noted (R8: a model can count the event; log 6). -/
structure Notes where
  counterOverflow : Nat
  ringFull : Nat
  mailboxOverrun : Nat
  zeroDuration : Nat
  durationClamp : Nat
deriving DecidableEq, Repr

/-- One event of the schedule: an encoded operation, or the turn of an agent (log 1). -/
inductive Event where
  | op (d : Descriptor)
  | turn (t : Turn)
deriving DecidableEq, Repr

/-- Why a step ends in a fault. -/
inductive Fault where
  /-- The ring was accessed at a slot that does not exist, `RING_CAP` or above (R44). Raised by MemRead and
  MemWrite. Safe: R32 keeps both cursors in range, so no run from RESET raises it (log 20). -/
  | ringSlotAbsent (slot : Nat)
deriving DecidableEq, Repr

/-- Why a step is refused. Every one is safe, since no claim about a next state follows from it, but that
`secondTickInCapture` leaves out the runs of a platform beyond the bound of R96 (log 15). -/
inductive Refusal where
  /-- The instruction has no meaning yet. -/
  | notModelled (mnemonic : String)
  /-- POP of an empty ring is no operation of the block (R127, U3). Raised by POP. -/
  | popEmpty
  /-- `st` names no state (R73, R148, U2). Raised by TICK. -/
  | illegalUartState
  /-- TX_STEP's row is not the one that `st` selects (R77, log 12). Raised by the TX rows. -/
  | txStateNotSelected
  /-- EDGE to the level the pin already has is no transition (R94, D29). Raised by EDGE. -/
  | edgeNotTransition
  /-- Pin-change events are disabled (R94: enabled when `pce = 1`). Raised by EDGE in the atomic form. -/
  | pinEventsMasked
  /-- The main loop stands at another phase (R111, R113, R114). Raised by ENC_TAKE, ENC_LO, ENC_HI. -/
  | encPhaseNotSelected
  /-- A split capture runs: only TICK, PIN and the next CAP step are enabled (R96). Raised by ENC_TAKE, ENC_LO,
  ENC_HI, POP, WORD, and by PUSH where the ring is not full (R129). -/
  | captureRunning
  /-- A second TICK inside one split capture (R96, U15). Raised by TICK. -/
  | secondTickInCapture
  /-- The frame is not the one the line carries next (R64, R152; log 10). Raised by FRAME. -/
  | frameNotNext
  /-- A word with `D = 0` is never sent (R60, R67). Raised by WORD on an ill-formed operand. -/
  | zeroDurationWord
  /-- The out-of-band prefix is reserved (R70, U1). Raised by OOB_PREFIX. -/
  | reservedPrefix
  /-- The scheduled descriptor stands for nothing (R71, R73, R67, R70). Raised by the step. -/
  | undecodable (r : DecodeReject)
deriving DecidableEq, Repr

/-- The state: the block's registers (R11 to R24), the split form's hidden state (R31, R96), the parameters
(R6) and, after them, the model's own fields. -/
@[ext]
structure State where
  cnt : Word
  ovf : Bool
  sample : Sample
  st : UartState
  tsr : Byte
  txPin : Level
  buf : Memory
  rd : Nat
  wr : Nat
  encPh : EncPhase
  encW : Word
  pce : Bool
  irLevel : Level
  capPh : CapPhase
  tOvf : Bool
  tCnt : Word
  edgePending : Bool
  /-- The parameters of R6; no operation writes them (R10; log 3). -/
  cfg : Config
  /-- Model: a TICK already fell inside the running split capture (R96; log 15). -/
  capTicked : Bool
  /-- Model: the running split capture is a deferred one, entered from CAP6 (R96, R216; log 15). -/
  capDeferred : Bool
  /-- Model: the events to perform next, oldest first (log 1). -/
  sched : List Event
  /-- Model: how many free turns were taken (log 2). -/
  turn : Nat
  /-- Model: how many RESETs have happened (log 4). -/
  epoch : Nat
  /-- Model: the counts of noted conditions (log 6). -/
  notes : Notes
  /-- Model: the level of `tx_pin` after each TICK, newest first (R189; log 7). -/
  observed : List Level
  /-- Model: what the last stand-alone POP returned (log 8). -/
  popResult : Option Byte
deriving DecidableEq, Repr

/-- The outcome of an operation. -/
abbrev Result := Host.Outcome State Fault Refusal

/-- The block with parameters `c` right after its first reset: R33's table; what R33 leaves unspecified is the
free draw number 0 (log 4, log 5); the model's own fields are empty. -/
def State.initial (c : Config) : State where
  cnt := 0#16
  ovf := false
  sample := ⟨Config.freeLevel 0, 0#16, false⟩
  st := .idle
  tsr := Config.freeShift 0
  txPin := c.markLevel
  buf := []
  rd := 0
  wr := 0
  encPh := .take
  encW := Config.freeWord 0
  pce := true
  irLevel := c.irLevel0
  capPh := .none
  tOvf := Config.freeFlag 0
  tCnt := Config.freeCount 0
  edgePending := false
  cfg := c
  capTicked := false
  capDeferred := false
  sched := []
  turn := 0
  epoch := 0
  notes := ⟨0, 0, 0, 0, 0⟩
  observed := []
  popResult := none

/-- The machine right after reset, with the parameters' defaults (log 3). -/
def State.reset : State := State.initial Config.standard

end Sys2Proof.Machine
end

