-- ==== Sys2Proof/Machine/Flags.lean ====
section
/-! DEFINITION. The derived flags (10_state.md R25), the overflow flag's rule (40_capture.md R92, R93), and the conditions the enabling of operations reads (R94, R96). -/

namespace Sys2Proof.Machine.State

/-- `ring_count = (wr - rd) mod RING_CAP` (R25). -/
def ringCount (s : State) : Nat := (s.wr + (s.cfg.ringCap - s.rd)) % s.cfg.ringCap

/-- `ring_empty = (rd = wr)` (R25). -/
def ringEmpty (s : State) : Bool := s.rd == s.wr

/-- `(x + 1) mod RING_CAP` (R44, R131). -/
def nextCursor (s : State) (x : Nat) : Nat := (x + 1) % s.cfg.ringCap

/-- `ring_full = ((wr + 1) mod RING_CAP = rd)` (R25). -/
def ringFull (s : State) : Bool := s.nextCursor s.wr == s.rd

/-- `ring_free = RING_CAP - 1 - ring_count` (R25). -/
def ringFree (s : State) : Nat := s.cfg.ringCap - 1 - s.ringCount

/-- `sample_ready = (sample.duration != 0)` (R25). -/
def sampleReady (s : State) : Bool := s.sample.duration != 0#16

/-- `cnt` is about to wrap: it stands at 0xFFFF (R92). -/
def cntWraps (s : State) : Bool := s.cnt == Config.sentinel

/-- `ovf` after CNT_INC: set on a wrap and otherwise left as it is (R92, R93). -/
def ovfAfterTick (s : State) : Bool := s.ovf || s.cntWraps

/-- A split capture runs: `cap_ph != 0` (R96). In the atomic form there is none. -/
def captureRunning (s : State) : Bool := !s.cfg.captureAtomic && s.capPh != .none

/-- The window between CAP1 and CAP6 of a split capture (R96; log 15). -/
def captureWindow (s : State) : Bool := s.captureRunning && s.capPh != .cap1

/-- A second TICK inside that window, which the split form refuses (R96, U15). -/
def tickBarred (s : State) : Bool := s.captureWindow && s.capTicked

/-- A deferred capture has not read the counter yet: it stands before CAP3 or at it (R96, R216). -/
def deferredUnread (s : State) : Bool :=
  s.captureRunning && s.capDeferred && (s.capPh == .cap1 || s.capPh == .cap2 || s.capPh == .cap3)

/-- The timer's turn waits: its TICK is refused, or the one tick of a deferred capture has passed, which goes on
immediately (R216; log 15). TICK itself stays enabled in the second case (R91, R96). -/
def timerWaits (s : State) : Bool := s.tickBarred || (s.deferredUnread && s.cnt != 0#16)

end Sys2Proof.Machine.State
end

