-- ==== Sys2Proof/Machine/Operands.lean ====
section
/-! DEFINITION. The values the operations compute from their operands: the captured duration (40_capture.md R94), the PulseWord and its bytes (30_encoding.md R60 to R63), the level of a data bit (R65), the numbers of the states (R72). -/

namespace Sys2Proof.Machine

/-- The duration a capture stores: the sentinel when the counter wrapped, else the count (R94). -/
def captureDuration (ovf : Bool) (cnt : Word) : Word := if ovf then Config.sentinel else cnt

/-- `D = min(duration, 0x7FFF)`: a clamp, not a mask (R61). -/
def clampDuration (duration : Word) : Word := if duration ≤ Config.wordDurMax then duration else Config.wordDurMax

/-- The clamp changes the value: `dur > 0x7FFF` (R111, R175). -/
def durationClamped (duration : Word) : Bool := decide (Config.wordDurMax < duration)

/-- `encode_word(level, duration) = ((NOT level) << 15) | min(duration, 0x7FFF)` (R63). -/
def encodeWord (level : Level) (duration : Word) : Word :=
  ((BitVec.ofBool (!level)).zeroExtend 16 <<< 15) ||| clampDuration duration

/-- `lo(w) = w[7:0]` (R63). -/
def loByte (w : Word) : Byte := w.extractLsb' 0 8

/-- `hi(w) = w[15:8]` (R63). -/
def hiByte (w : Word) : Byte := w.extractLsb' 8 8

/-- The 16 bits of a PulseWord `L ++ D` (R60). -/
def pulseWord (l : Level) (d : BitVec 15) : Word := (BitVec.ofBool l ++ d : BitVec 16)

/-- `level_of(bit)`: a 1 is MARK, a 0 is SPACE (R65). -/
def levelOf (c : Config) (bit : Bool) : Level := if bit then c.markLevel else c.spaceLevel

/-- The number of a UART state (R72). -/
def UartState.number (c : Config) : UartState → Nat
  | .idle => 0
  | .startbit => 1
  | .databit i => 2 + i.val
  | .stopbit k => 10 + k
  | .txend => c.stTxend

/-- `st` is a state of R17: a stop state's index is at most `STOP_N` (R73). -/
def UartState.legal (c : Config) : UartState → Bool
  | .stopbit k => decide (k ≤ c.stopN)
  | .idle | .startbit | .databit _ | .txend => true

/-- The number of an encoder phase (R74). -/
def EncPhase.number : EncPhase → Nat
  | .take => 0
  | .lo => 1
  | .hi => 2

/-- The number of a split-capture phase (R96). -/
def CapPhase.number : CapPhase → Nat
  | .none => 0
  | .cap1 => 1
  | .cap2 => 2
  | .cap3 => 3
  | .cap4 => 4
  | .cap5 => 5
  | .cap6 => 6

end Sys2Proof.Machine
end

