-- ==== Sys2Proof/Machine/Ops.lean ====
section
/-! DEFINITION. The operations every meaning is built from: chaining outcomes, the ring memory (20_memory.md R44), PUSH and POP (42_txring.md R126, R127), noting a condition (R8, R170), and entering and leaving a masked section, which stands where another machine takes an exception and returns from it (60_exceptions.md R179, R180). -/

namespace Sys2Proof.Machine

/-- Perform `k` after an operation that answered a next state. -/
def andThen (r : Result) (k : State → Result) : Result :=
  match r with
  | .next s => k s
  | .fault f => .fault f
  | .refused q => .refused q

/-! ### The ring memory -/

namespace Memory

/-- What a slot that is not listed reads as: nothing, it was not written since RESET (R33, U5; log 5). -/
def unlisted : Option Byte := none

/-- The byte last written to slot `a`. -/
def read : Memory → Nat → Option Byte
  | [], _ => unlisted
  | (k, v) :: m, a => if k = a then some v else read m a

/-- `m` with slot `a` holding `b`; slots stay strictly rising. -/
def write : Memory → Nat → Byte → Memory
  | [], a, b => [(a, b)]
  | (k, v) :: m, a, b =>
    if a < k then (a, b) :: (k, v) :: m
    else if a = k then (a, b) :: m
    else (k, v) :: write m a b

/-- Every listed slot is `lo` or above and the slots are strictly rising. -/
def risingFrom : Nat → Memory → Bool
  | _, [] => true
  | lo, (k, _) :: m => decide (lo ≤ k) && risingFrom (k + 1) m

/-- The canonical form: slots strictly rising. No entry equals what an unlisted slot reads as, since that is
no byte. -/
def wf (m : Memory) : Bool := risingFrom 0 m

/-- Every listed slot is below `cap`. -/
def below (cap : Nat) (m : Memory) : Bool := m.all fun c => decide (c.1 < cap)

end Memory

/-- The byte ring slot `i` holds: what was written, else the draw of the last RESET (R33, U5, U6; log 5). -/
def State.slotByte (s : State) (i : Nat) : Byte := (s.buf.read i).getD (Config.freeSlot s.epoch i)

/-- `MemRead(i, 1)` (R44). -/
def memRead (i : Nat) (s : State) : Except Fault Byte :=
  if i < s.cfg.ringCap then .ok (s.slotByte i) else .error (.ringSlotAbsent i)

/-- `MemWrite(i, 1, v)` (R44). -/
def memWrite (i : Nat) (v : Byte) (s : State) : Result :=
  if i < s.cfg.ringCap then .next { s with buf := s.buf.write i v } else .fault (.ringSlotAbsent i)

/-! ### Noting a condition -/

/-- One more of condition `c`. -/
def Notes.count (n : Notes) : Condition → Notes
  | .counterOverflow => { n with counterOverflow := n.counterOverflow + 1 }
  | .ringFull => { n with ringFull := n.ringFull + 1 }
  | .mailboxOverrun => { n with mailboxOverrun := n.mailboxOverrun + 1 }
  | .zeroDuration => { n with zeroDuration := n.zeroDuration + 1 }
  | .durationClamp => { n with durationClamp := n.durationClamp + 1 }

/-- `note c` when `p` holds: counted, and no register of the block changes (R8, R170). -/
def State.noteIf (p : Bool) (c : Condition) (s : State) : State :=
  { s with notes := if p then s.notes.count c else s.notes }

/-! ### PUSH and POP -/

/-- PUSH `b`: drop when full, else store at `wr` and advance (R126). -/
def pushByte (b : Byte) (s : State) : Result :=
  if s.ringFull then .next (s.noteIf true .ringFull)
  else andThen (memWrite s.wr b s) fun t => .next { t with wr := s.nextCursor s.wr }

/-- POP: `k` receives the byte and the state with `rd` advanced; the empty ring is refused (R127, U3). -/
def popByte (s : State) (k : Byte → State → Result) : Result :=
  if s.ringEmpty then .refused .popEmpty
  else match memRead s.rd s with
    | .error f => .fault f
    | .ok b => k b { s with rd := s.nextCursor s.rd }

/-! ### Masking: the entry to an event and the return from it -/

/-- Entry: pin-change events are disabled; nothing is saved and no mode is switched (R179). -/
def maskPinEvents (s : State) : State := { s with pce := false }

/-- Return: pin-change events are enabled again; that is the whole of it (R180). -/
def unmaskPinEvents (s : State) : State := { s with pce := true }

/-! ### Enabling -/

/-- Perform `k` when no split capture runs: while one does, only TICK, PIN and the next CAP step are enabled
(R96; log 17). -/
def outsideCapture (s : State) (k : State → Result) : Result :=
  if s.captureRunning then .refused .captureRunning else k s

/-- Perform `k` when no split capture runs (R96) and the main loop stands at phase `p` (R111, R113, R114). -/
def atPhase (p : EncPhase) (s : State) (k : State → Result) : Result :=
  outsideCapture s fun s => if s.encPh = p then k s else .refused .encPhaseNotSelected

/-- Perform `k` when `st` selects this row of TX_STEP (R77, R140). -/
def whenSelected (sel : Bool) (s : State) (k : State → Result) : Result :=
  if sel then k s else .refused .txStateNotSelected

end Sys2Proof.Machine
end

