-- ==== Sys2Proof/Machine/Uart.lean ====
section
/-! DEFINITION. SoftwareUartTx: TX_STEP, one definition per row of the opcode table, selected by `st` (43_uart_tx.md R140 to R149). A row on its own is the transmitter's half of a TICK (log 12). -/

namespace Sys2Proof.Machine

/-- `tx_begin` (R149): the byte leaves the ring and the start bit is driven. -/
def txBegin (s : State) : Result :=
  popByte s fun b t => .next { t with tsr := b, txPin := t.cfg.spaceLevel, st := .startbit }

/-- The branch of `idle` and `txend`: to idle at MARK when the ring is empty, else a frame begins (R141, R147). -/
def beginOrIdle (s : State) : Result :=
  if s.ringEmpty then .next { s with txPin := s.cfg.markLevel, st := .idle } else txBegin s

/-- A data drive: bit 0 of `tsr` to the pin, `tsr` shifted right, on to state `n` (R142, R143). -/
def driveBit (n : UartState) (s : State) : Result :=
  .next { s with txPin := levelOf s.cfg (s.tsr.getLsbD 0), tsr := s.tsr >>> 1, st := n }

/-- TX_STEP when `st = idle` (R141). -/
def execTxIdle (s : State) : Result := whenSelected (s.st == .idle) s beginOrIdle

/-- TX_STEP when `st = startbit` (R142). -/
def execTxStart (s : State) : Result := whenSelected (s.st == .startbit) s (driveBit (.databit 0))

/-- TX_STEP when `st = databit0` (R143). -/
def execTxData0 (s : State) : Result := whenSelected (s.st == .databit 0) s (driveBit (.databit 1))

/-- TX_STEP when `st = databit1` (R143). -/
def execTxData1 (s : State) : Result := whenSelected (s.st == .databit 1) s (driveBit (.databit 2))

/-- TX_STEP when `st = databit2` (R143). -/
def execTxData2 (s : State) : Result := whenSelected (s.st == .databit 2) s (driveBit (.databit 3))

/-- TX_STEP when `st = databit3` (R143). -/
def execTxData3 (s : State) : Result := whenSelected (s.st == .databit 3) s (driveBit (.databit 4))

/-- TX_STEP when `st = databit4` (R143). -/
def execTxData4 (s : State) : Result := whenSelected (s.st == .databit 4) s (driveBit (.databit 5))

/-- TX_STEP when `st = databit5` (R143). -/
def execTxData5 (s : State) : Result := whenSelected (s.st == .databit 5) s (driveBit (.databit 6))

/-- TX_STEP when `st = databit6` (R143). -/
def execTxData6 (s : State) : Result := whenSelected (s.st == .databit 6) s (driveBit (.databit 7))

/-- TX_STEP when `st = databit7` (R144): the pin to MARK; `tsr` is not used. -/
def execTxData7 (s : State) : Result :=
  whenSelected (s.st == .databit 7) s fun s => .next { s with txPin := s.cfg.markLevel, st := .stopbit 0 }

/-- `st` is a stop state before the last one, with its index (R145). -/
def earlierStop (s : State) : Option Nat :=
  match s.st with
  | .stopbit k => if k < s.cfg.stopN then some k else none
  | .idle | .startbit | .databit _ | .txend => none

/-- TX_STEP when `st = stopbit k`, `k < STOP_N` (R145): the pin is not written. -/
def execTxStop0 (s : State) : Result :=
  match earlierStop s with
  | some k => .next { s with st := .stopbit (k + 1) }
  | none => .refused .txStateNotSelected

/-- TX_STEP when `st = stopbit STOP_N` (R146): the pin is not written and the ring is not examined. -/
def execTxStop1 (s : State) : Result :=
  whenSelected (s.st == .stopbit s.cfg.stopN) s fun s => .next { s with st := .txend }

/-- TX_STEP when `st = txend` (R147). -/
def execTxEnd (s : State) : Result := whenSelected (s.st == .txend) s beginOrIdle

/-- TX_STEP: the row that `st` selects (R140); a value of `st` that is no state is refused (R148). -/
def txStep (s : State) : Result :=
  match s.st with
  | .idle => execTxIdle s
  | .startbit => execTxStart s
  | .databit 0 => execTxData0 s
  | .databit 1 => execTxData1 s
  | .databit 2 => execTxData2 s
  | .databit 3 => execTxData3 s
  | .databit 4 => execTxData4 s
  | .databit 5 => execTxData5 s
  | .databit 6 => execTxData6 s
  | .databit 7 => execTxData7 s
  | .stopbit k =>
    if k < s.cfg.stopN then execTxStop0 s
    else if k = s.cfg.stopN then execTxStop1 s
    else .refused .illegalUartState
  | .txend => execTxEnd s

end Sys2Proof.Machine
end

