-- ==== Sys2Proof/Machine/Capture.lean ====
section
/-! DEFINITION. The tick counter and PulseCapture: CNT_INC, TICK, EDGE in the atomic form, and PIN and CAP1 to CAP6 of the split form (40_capture.md R91, R92, R94, R96). -/

namespace Sys2Proof.Machine

/-- CNT_INC (R92): plus one modulo 2^16, `ovf` set on the wrap. -/
def cntInc (s : State) : State :=
  { s with cnt := s.cnt + 1#16, ovf := s.ovfAfterTick }.noteIf s.cntWraps .counterOverflow

/-- What the model keeps of a TICK: the level the environment sees in the quantum that begins (R189; log 7),
and that a TICK fell inside a split capture (R96; log 15). -/
def recordTick (s : State) : State :=
  { s with observed := s.txPin :: s.observed, capTicked := s.capTicked || s.captureWindow }

/-- TICK (R91): CNT_INC, then TX_STEP. A second TICK inside one split capture is refused (R96, U15). -/
def execTick (s : State) : Result :=
  if s.tickBarred then .refused .secondTickInCapture
  else andThen (txStep (cntInc s)) fun t => .next (recordTick t)

/-- `n` TICKs (R75). -/
def ticks : Nat → State → Result
  | 0, s => .next s
  | n + 1, s => andThen (execTick s) (ticks n)

/-- The capture of EDGE `l` in the atomic form, in the source's order of steps (R94). -/
def capture (l : Level) (s : State) : State :=
  let m := maskPinEvents s
  let dur := captureDuration m.ovf m.cnt
  let stored := { m with irLevel := l, sample := ⟨l, dur, m.ovf⟩, cnt := 0#16, ovf := false }
  ((unmaskPinEvents stored).noteIf m.sampleReady .mailboxOverrun).noteIf (dur == 0#16) .zeroDuration

/-- EDGE `l`, atomic form (R94): enabled when `pce = 1` and the level is a new one. -/
def edgeAtomic (l : Level) (s : State) : Result :=
  if l = s.irLevel then .refused .edgeNotTransition
  else if s.pce then .next (capture l s)
  else .refused .pinEventsMasked

/-- PIN `l` of the split form (R96): the handler is entered, or the transition is remembered, or lost. -/
def pinChange (l : Level) (s : State) : Result :=
  if l = s.irLevel then .refused .edgeNotTransition
  else
    let moved := { s with irLevel := l }
    if s.pce ∧ s.capPh = .none then .next { maskPinEvents moved with capPh := .cap1 }
    else match s.cfg.maskedEdge with
      | .deferred => .next { moved with edgePending := true }
      | .lost => .next moved

/-- EDGE `l` (R94); with `CAPTURE_ATOMIC = false` it is the environment's step PIN `l`, and the capture goes on
in the turns of the pin agent (R96; log 14). -/
def execEdge (l : Level) (s : State) : Result :=
  if s.cfg.captureAtomic then edgeAtomic l s else pinChange l s

/-- The next micro-step CAP1 to CAP6 of the split form (R96); nothing when no capture runs. The notes of R94
fall where the pseudocode reads the old sample and stores the new one (log 16). -/
def capStep (s : State) : State :=
  match s.capPh with
  | .none => s
  | .cap1 =>
    { s with sample := { s.sample with level := s.irLevel }, capPh := .cap2, capTicked := false }.noteIf
      s.sampleReady .mailboxOverrun
  | .cap2 => { s with tOvf := s.ovf, capPh := .cap3 }
  | .cap3 =>
    { s with
      tCnt := s.cnt
      sample := { s.sample with duration := captureDuration s.tOvf s.cnt, overflowed := s.tOvf }
      capPh := .cap4 }.noteIf (captureDuration s.tOvf s.cnt == 0#16) .zeroDuration
  | .cap4 => { s with cnt := 0#16, capPh := .cap5 }
  | .cap5 => { s with ovf := false, capPh := .cap6 }
  | .cap6 =>
    if s.edgePending then { maskPinEvents s with edgePending := false, capPh := .cap1, capDeferred := true }
    else { unmaskPinEvents s with capPh := .none, capDeferred := false }

end Sys2Proof.Machine
end

