-- ==== Sys2Proof/Machine/Encoder.lean ====
section
/-! DEFINITION. WordEncoder: ENC_TAKE, ENC_LO, ENC_HI (41_encoder.md R111, R113, R114, R115). -/

namespace Sys2Proof.Machine

/-- ENC_TAKE's masked step (R111): take the sample, if there is one, and empty the mailbox. -/
def takeSample (s : State) : State :=
  let m := maskPinEvents s
  if m.sampleReady then
    let drained := { m with sample := { m.sample with duration := 0#16, overflowed := false } }
    let taken := { unmaskPinEvents drained with encW := encodeWord s.sample.level s.sample.duration, encPh := .lo }
    taken.noteIf (durationClamped s.sample.duration) .durationClamp
  else unmaskPinEvents m

/-- ENC_TAKE (R111). -/
def execEncTake (s : State) : Result := atPhase .take s fun s => .next (takeSample s)

/-- ENC_LO under the policy `byte` (R113). -/
def pushLow (s : State) : Result :=
  andThen (pushByte (loByte s.encW) s) fun t => .next { t with encPh := .hi }

/-- ENC_LO (R113), or R115's form under the policy `word`: both bytes dropped when fewer than two slots are
free. -/
def execEncLo (s : State) : Result :=
  atPhase .lo s fun s =>
    match s.cfg.pushPolicy with
    | .byte => pushLow s
    | .word => if s.ringFree < 2 then .next { s.noteIf true .ringFull with encPh := .take } else pushLow s

/-- ENC_HI (R114). -/
def execEncHi (s : State) : Result :=
  atPhase .hi s fun s => andThen (pushByte (hiByte s.encW) s) fun t => .next { t with encPh := .take }

end Sys2Proof.Machine
end

