-- ==== Sys2Proof/Machine/Wire.lean ====
section
/-! DEFINITION. The wire: the levels of a frame (30_encoding.md R64), a receiver's reading of them (R66), and the pairing of bytes into words, low byte first (20_memory.md R41, 60_exceptions.md R189). -/

namespace Sys2Proof.Machine

/-- The levels of the data quanta of byte `b`, least significant bit first (R42, R64, R65). -/
def dataLevels (c : Config) (b : Byte) : List Level := (List.range 8).map fun i => levelOf c (b.getLsbD i)

/-- The frame of byte `b`, one level per quantum, first quantum first: start, data, the `STOP_N + 1` stop
states and `txend` (R64). -/
def frameLevels (c : Config) (b : Byte) : List Level :=
  c.spaceLevel :: (dataLevels c b ++ List.replicate (c.stopN + 2) c.markLevel)

/-- Where a receiver stands in the sequence of quanta (R66): looking for a start bit, reading data bit `i` with
the bits before it in `acc`, or passing over `k` more quanta of the frame's tail. -/
inductive RxState where
  | scan
  | data (i : Nat) (acc : Byte)
  | tail (k : Nat)
deriving DecidableEq, Repr

/-- The bytes a receiver reads from the levels of successive quanta (R66). -/
def receive (c : Config) : RxState → List Level → List Byte
  | _, [] => []
  | .scan, l :: ls => if l = c.markLevel then receive c .scan ls else receive c (.data 0 0) ls
  | .data i acc, l :: ls =>
    let acc := acc ||| (if l = c.markLevel then 1#8 <<< i else 0)
    if i < 7 then receive c (.data (i + 1) acc) ls else acc :: receive c (.tail (c.stopN + 2)) ls
  | .tail k, _ :: ls => if k ≤ 1 then receive c .scan ls else receive c (.tail (k - 1)) ls

/-- Bytes paired into words, low byte first (R41); a lone last byte is no word. -/
def pairWords : List Byte → List Word
  | lo :: hi :: bs => Word.ofBytes hi lo :: pairWords bs
  | [_] => []
  | [] => []

/-- A receiver's reading of one word: a PulseWord, or a rejection (the aligned word 0x0000 among them, R70, U1). -/
def readWord (w : Word) : Except DecodeReject Instr := decode ⟨.pulseword, w⟩

end Sys2Proof.Machine
end

