-- ==== Sys2Proof/Machine/Formats.lean ====
section
/-! DEFINITION. The rows of the opcode table that are data formats, as what the block does with them: a PulseWord is put into the ring low byte first (20_memory.md R41, 30_encoding.md R60, R75), a frame is what the line carries for one byte (30_encoding.md R64, 43_uart_tx.md R152), the reserved prefix is refused (30_encoding.md R70). -/

namespace Sys2Proof.Machine

/-- PUSHW (R75): the two bytes of a word, low first, nothing in between. -/
def pushWord (w : Word) (s : State) : Result :=
  andThen (pushByte (loByte w) s) (pushByte (hiByte w))

/-- WORD: the PulseWord `l ++ d` goes into the ring (R41, R75; log 9), not while a split capture runs (R96; log 17).
`D = 0` is never sent (R60, R67). -/
def execWord (l : Level) (d : BitVec 15) (s : State) : Result :=
  if d = 0#15 then .refused .zeroDurationWord else outsideCapture s (pushWord (pulseWord l d))

/-- The transmitter stands where a frame may begin: `idle` or `txend` (R140, R149). -/
def atFrameBoundary (s : State) : Bool := s.st == .idle || s.st == .txend

/-- The oldest byte in the ring is `b` (R125). -/
def headIs (b : Byte) (s : State) : Bool := !s.ringEmpty && s.buf.read s.rd == some b

/-- FRAME: the FRAME_TICKS ticks in which the line carries the frame of `b`, which must be the byte the
transmitter takes next (R64, R152; log 10). -/
def execFrame (b : Byte) (s : State) : Result :=
  if atFrameBoundary s && headIs b s then ticks s.cfg.frameTicks s else .refused .frameNotNext

/-- OOB_PREFIX: no operation emits it and no meaning is assigned to it (R70, U1; log 11). -/
def execOobPrefix (_ : State) : Result := .refused .reservedPrefix

end Sys2Proof.Machine
end

