-- ==== Sys2Proof/Machine/Reset.lean ====
section
/-! DEFINITION. RESET (70_reset_and_hazards.md R200, R201; values of 10_state.md R33). -/

namespace Sys2Proof.Machine

/-- RESET (R200): every register to its reset value, what R33 leaves unspecified drawn anew (log 4). The
parameters and the model's own fields stay; the draw counter advances (log 26). -/
def execReset (s : State) : Result :=
  .next { s with
    cnt := 0#16
    ovf := false
    sample := ⟨Config.freeLevel (s.epoch + 1), 0#16, false⟩
    st := .idle
    tsr := Config.freeShift (s.epoch + 1)
    txPin := s.cfg.markLevel
    buf := []
    rd := 0
    wr := 0
    encPh := .take
    encW := Config.freeWord (s.epoch + 1)
    pce := true
    irLevel := s.cfg.irLevel0
    capPh := .none
    tOvf := Config.freeFlag (s.epoch + 1)
    tCnt := Config.freeCount (s.epoch + 1)
    edgePending := false
    capTicked := false
    capDeferred := false
    epoch := s.epoch + 1 }

end Sys2Proof.Machine
end

