-- ==== Sys2Proof/Machine/Ring.lean ====
section
/-! DEFINITION. TxRing's operations PUSH and POP, performed directly by a test bench (42_txring.md R126, R127). -/

namespace Sys2Proof.Machine

/-- PUSH `b` (R126): enabled in every state with a full ring (R129), and otherwise while no split capture runs (R96;
log 17). -/
def execPush (b : Byte) (s : State) : Result :=
  if s.ringFull then pushByte b s else outsideCapture s (pushByte b)

/-- POP (R127), not while a split capture runs (R96; log 17): the byte it returns is kept in `popResult` (log 8). -/
def execPop (s : State) : Result :=
  outsideCapture s fun s => popByte s fun b t => .next { t with popResult := some b }

end Sys2Proof.Machine
end

