-- ==== Sys2Proof/Machine/Dispatch.lean ====
section
/-! DEFINITION. exec: one arm per constructor of Instr, one direct call of its meaning. -/

namespace Sys2Proof.Machine

def exec (i : Instr) (s : State) : Host.Outcome State Fault Refusal :=
  match i with
  | .reset => Sys2Proof.Machine.execReset s
  | .tick => Sys2Proof.Machine.execTick s
  | .edge l => Sys2Proof.Machine.execEdge l s
  | .encTake => Sys2Proof.Machine.execEncTake s
  | .encLo => Sys2Proof.Machine.execEncLo s
  | .encHi => Sys2Proof.Machine.execEncHi s
  | .push b => Sys2Proof.Machine.execPush b s
  | .pop => Sys2Proof.Machine.execPop s
  | .txIdle => Sys2Proof.Machine.execTxIdle s
  | .txStart => Sys2Proof.Machine.execTxStart s
  | .txData0 => Sys2Proof.Machine.execTxData0 s
  | .txData1 => Sys2Proof.Machine.execTxData1 s
  | .txData2 => Sys2Proof.Machine.execTxData2 s
  | .txData3 => Sys2Proof.Machine.execTxData3 s
  | .txData4 => Sys2Proof.Machine.execTxData4 s
  | .txData5 => Sys2Proof.Machine.execTxData5 s
  | .txData6 => Sys2Proof.Machine.execTxData6 s
  | .txData7 => Sys2Proof.Machine.execTxData7 s
  | .txStop0 => Sys2Proof.Machine.execTxStop0 s
  | .txStop1 => Sys2Proof.Machine.execTxStop1 s
  | .txEnd => Sys2Proof.Machine.execTxEnd s
  | .word l d => Sys2Proof.Machine.execWord l d s
  | .frame b => Sys2Proof.Machine.execFrame b s
  | .oobPrefix => Sys2Proof.Machine.execOobPrefix s

end Sys2Proof.Machine
end

