-- ==== Sys2Proof/Machine/Schedule.lean ====
section
/-! DEFINITION. Who acts next: the turn of each agent (60_exceptions.md R186, R187), the events of the schedule, and placing one operation at its front. -/

namespace Sys2Proof.Machine

/-- The main loop's next operation, chosen by `enc_ph` (R110, R186). -/
def mainLoopInstr : EncPhase → Instr
  | .take => .encTake
  | .lo => .encLo
  | .hi => .encHi

/-- The turn of an agent (R186). The turn of an agent that may not step now passes and nothing happens: the pin's
while pin-change events are off in the atomic form, the capture's when none runs, the main loop's while one
runs, the timer's second inside one split capture (R94, R96; log 2). The timer's turn passes too while a deferred capture
that has its one tick goes on immediately (R216; log 15). -/
def runTurn (t : Turn) (s : State) : Result :=
  match t with
  | .timer => if s.timerWaits then .next s else exec .tick s
  | .pin => if s.cfg.captureAtomic && !s.pce then .next s else exec (.edge (!s.irLevel)) s
  | .capture => if s.captureRunning then .next (capStep s) else .next s
  | .mainLoop => if s.captureRunning then .next s else exec (mainLoopInstr s.encPh) s
  | .reset => exec .reset s

/-- One event of the schedule: a scheduled operation is decoded and performed; a scheduled turn is taken. -/
def runEvent (e : Event) (s : State) : Result :=
  match e with
  | .turn t => runTurn t s
  | .op d => match decode d with
    | .ok i => exec i s
    | .error r => .refused (.undecodable r)

/-- One step: the oldest event of the schedule; where there is none, the turn the free schedule gives
(R50, R187; log 1, log 2). -/
def runNext (s : State) : Result :=
  match s.sched with
  | e :: es => runEvent e { s with sched := es }
  | [] => runTurn (Config.turnAt s.turn) { s with turn := s.turn + 1 }

/-- The block where the next step performs exactly the operation `i`: what selects `i` on this hardware is set and
nothing else. A TX row is selected by `st` (R77, R140), a main-loop operation by `enc_ph` (R21), an EDGE by
the level the pin had (R94), a POP by a ring that is not empty (R127), a frame by the byte at the ring's head
with the transmitter idle (R149, R152). The rest is selected by the agent alone (log 19). -/
def select (i : Instr) (s : State) : State :=
  match i with
  | .edge l => { s with irLevel := !l }
  | .encTake => { s with encPh := .take }
  | .encLo => { s with encPh := .lo }
  | .encHi => { s with encPh := .hi }
  | .txIdle => { s with st := .idle }
  | .txStart => { s with st := .startbit }
  | .txData0 => { s with st := .databit 0 }
  | .txData1 => { s with st := .databit 1 }
  | .txData2 => { s with st := .databit 2 }
  | .txData3 => { s with st := .databit 3 }
  | .txData4 => { s with st := .databit 4 }
  | .txData5 => { s with st := .databit 5 }
  | .txData6 => { s with st := .databit 6 }
  | .txData7 => { s with st := .databit 7 }
  | .txStop0 => { s with st := .stopbit 0 }
  | .txStop1 => { s with st := .stopbit s.cfg.stopN }
  | .txEnd => { s with st := .txend }
  | .frame b => { s with st := .idle, buf := s.buf.write 0 b, rd := 0, wr := 1 }
  | .pop => if s.ringEmpty then { s with wr := s.nextCursor s.rd } else s
  | .reset | .tick | .push _ | .word _ _ | .oobPrefix => s

/-- The descriptor `d` at the front of the schedule, with what selects its operation set. -/
def place (d : Descriptor) (s : State) : State :=
  let t := match decode d with
    | .ok i => select i s
    | .error _ => s
  { t with sched := .op d :: t.sched }

/-- A table row's bits at the front of the schedule; bits that are no row's are placed as a descriptor that
decodes to nothing. -/
def placeTableWord (s : State) (nbits w : Nat) : State :=
  place ((tableDescriptor nbits w).getD ⟨.reserved, 0xFFFF⟩) s

end Sys2Proof.Machine
end

