-- ==== Sys2Proof/Machine/Step.lean ====
section
/-! DEFINITION. The step, and an operation placed where the next step performs it. -/

namespace Sys2Proof.Machine

/-- One atomic step of one agent (20_memory.md R48, R50). -/
def step (s : State) : Host.Outcome State Fault Refusal := runNext s

/-- `s` with the operation of a table row placed so that the next step performs it (log 1, log 19). -/
def State.withFetchWord (s : State) (nbits w : Nat) : State := placeTableWord s nbits w

end Sys2Proof.Machine
end

