-- ==== Sys2Proof/Machine/Trace.lean ====
section
/-! DEFINITION. Traces and their pseudo-operations (30_encoding.md R75, 41_encoder.md R110). -/

namespace Sys2Proof.Machine

/-- The line rests: `st = idle` and the ring is empty (R75). -/
def drained (s : State) : Bool := s.st == .idle && s.ringEmpty

/-- TICK repeated until the line rests, at most `n` times. -/
def drainWithin : Nat → State → Result
  | 0, s => .next s
  | n + 1, s => if drained s then .next s else andThen (exec .tick s) (drainWithin n)

/-- DRAIN (R75), with the bound of R221: what is left of the frame in progress, FRAME_TICKS for every byte in the
ring, and one tick to idle. -/
def drain (s : State) : Result := drainWithin ((s.ringCount + 1) * s.cfg.frameTicks) s

/-- ENCODE with nothing in between (R75, R110): ENC_TAKE, ENC_LO if a sample was taken, ENC_HI unless ENC_LO dropped the
whole word, as it may under the policy `word` (R115). -/
def encodeOnce (s : State) : Result :=
  andThen (exec .encTake s) fun t =>
    if t.encPh = .lo then
      andThen (exec .encLo t) fun u => if u.encPh = .hi then exec .encHi u else .next u
    else .next t

/-- One line of a trace (R75). -/
inductive TraceOp where
  | op (i : Instr)
  | tick (n : Nat)
  | encode
  | pushw (w : Word)
  | drain
deriving DecidableEq, Repr

/-- What one line of a trace does. -/
def runTraceOp : TraceOp → State → Result
  | .op i, s => exec i s
  | .tick n, s => ticks n s
  | .encode, s => encodeOnce s
  | .pushw w, s => andThen (exec (.push (loByte w)) s) (exec (.push (hiByte w)))
  | .drain, s => drain s

/-- A trace: its lines one after the other. -/
def runTrace : List TraceOp → State → Result
  | [], s => .next s
  | o :: os, s => andThen (runTraceOp o s) (runTrace os)

end Sys2Proof.Machine
end

