-- ==== Sys2Proof/Safety.lean ====
section
/-! DEFINITION. What claims are stated in: the invariant of a sound state (10_state.md R32, 70_reset_and_hazards.md R223), the ring's contents (42_txring.md R125), and who performs what (60_exceptions.md R186). -/

namespace Sys2Proof.Machine

/-- The ring's bytes, oldest first: `ring_count` slots from `rd` on (R125). -/
def State.contents (s : State) : List Byte :=
  (List.range s.ringCount).map fun k => s.slotByte ((s.rd + k) % s.cfg.ringCap)

/-- A sound state: every state of a run from RESET is one (R32, R223). -/
structure Inv (s : State) : Prop where
  /-- R32: the cursors are in range. -/
  rd_lt : s.rd < s.cfg.ringCap
  wr_lt : s.wr < s.cfg.ringCap
  /-- R32, R73: `st` is a state of R17. -/
  st_legal : s.st.legal s.cfg = true
  /-- R44: the ring memory is canonical and lists slots that exist. -/
  buf_wf : s.buf.wf = true
  buf_below : s.buf.below s.cfg.ringCap = true
  /-- R20: every buffered slot was written. -/
  buffered_written : ∀ k < s.ringCount, (s.buf.read ((s.rd + k) % s.cfg.ringCap)).isSome = true
  /-- R223 (d): the pin is at MARK in idle, the stop states and `txend`. -/
  mark_at_rest : (s.st = .idle ∨ s.st = .txend ∨ ∃ k, s.st = .stopbit k) → s.txPin = s.cfg.markLevel
  /-- R223 (e): the pin is at SPACE during the start bit. -/
  space_at_start : s.st = .startbit → s.txPin = s.cfg.spaceLevel
  /-- R143: while `databit i` is occupied, `7 - i` bits are left in `tsr`. -/
  tsr_left : ∀ i : Fin 8, s.st = .databit i → s.tsr.toNat < 2 ^ (7 - i.val)
  /-- R143: after the eight drives `tsr` is 0. -/
  tsr_done : (s.st = .txend ∨ ∃ k, s.st = .stopbit k) → s.tsr = 0#8
  /-- R223 (g): the word being pushed has `D` in 1..0x7FFF. -/
  word_duration : s.encPh ≠ .take → s.encW.extractLsb' 0 15 ≠ 0#15
  /-- R223 (j), R96: in the atomic form no split capture runs and pin-change events are enabled. -/
  atomic_form : s.cfg.captureAtomic = true → s.pce = true ∧ s.capPh = .none ∧ s.edgePending = false
  /-- R96: in the split form pin-change events are disabled exactly while a capture runs. -/
  split_form : s.cfg.captureAtomic = false → s.pce = decide (s.capPh = .none)
  /-- R96: a transition is remembered only while a capture runs, and only under `deferred`. -/
  pending_masked : s.edgePending = true → s.capPh ≠ .none ∧ s.cfg.maskedEdge = .deferred
  /-- R96: a deferred capture is a running one, under `deferred` alone. -/
  deferred_running : s.capDeferred = true → s.capPh ≠ .none ∧ s.cfg.maskedEdge = .deferred
  /-- R96: from CAP4 to CAP6 at most one TICK is counted, and after CAP5 the flag is clear. -/
  counted_since_zeroed : s.capPh = .cap5 ∨ s.capPh = .cap6 →
    s.cnt = 0#16 ∨ (s.cnt = 1#16 ∧ s.capTicked = true)
  cleared_flag : s.capPh = .cap6 → s.ovf = false

/-- Turns taken one after the other (R187). -/
def runTurns : List Turn → State → Result
  | [], s => .next s
  | x :: xs, s => andThen (runTurn x s) (runTurns xs)

/-- How many TICKs an operation performs: one, or those of a frame (R91, R152; a FRAME is log 10). -/
def tickCount (c : Config) : Instr → Nat
  | .tick => 1
  | .frame _ => c.frameTicks
  | .reset | .edge _ | .encTake | .encLo | .encHi | .push _ | .pop
  | .txIdle | .txStart | .txData0 | .txData1 | .txData2 | .txData3 | .txData4 | .txData5 | .txData6 | .txData7
  | .txStop0 | .txStop1 | .txEnd | .word _ _ | .oobPrefix => 0

/-- `n` CAP micro-steps, no TICK between them (R96). -/
def capSteps : Nat → State → State
  | 0, s => s
  | n + 1, s => capSteps n (capStep s)

/-- The agent that performs an operation or part-operation (R9, R186). The reserved prefix is nobody's; it is listed
with the main loop, which alone could put a word into the ring. -/
def performer : Instr → Turn
  | .reset => .reset
  | .edge _ => .pin
  | .encTake | .encLo | .encHi | .push _ | .word _ _ | .oobPrefix => .mainLoop
  | .tick | .pop | .frame _ | .txIdle | .txStart | .txData0 | .txData1 | .txData2 | .txData3 | .txData4 | .txData5
  | .txData6 | .txData7 | .txStop0 | .txStop1 | .txEnd => .timer

/-- The rows of TX_STEP that drive a data bit, each with the state that selects it and the state it leads to
(R142, R143). -/
def dataRows : List (Instr × UartState × UartState) :=
  [(.txStart, .startbit, .databit 0), (.txData0, .databit 0, .databit 1), (.txData1, .databit 1, .databit 2),
   (.txData2, .databit 2, .databit 3), (.txData3, .databit 3, .databit 4), (.txData4, .databit 4, .databit 5),
   (.txData5, .databit 5, .databit 6), (.txData6, .databit 6, .databit 7)]

/-- Every row of TX_STEP selected by one value of `st`, with that value; the stop rows depend on `STOP_N`
(R72, R141 to R147). -/
def selectedRows (c : Config) : List (Instr × UartState) :=
  [(.txIdle, .idle), (.txStart, .startbit), (.txData0, .databit 0), (.txData1, .databit 1), (.txData2, .databit 2),
   (.txData3, .databit 3), (.txData4, .databit 4), (.txData5, .databit 5), (.txData6, .databit 6),
   (.txData7, .databit 7), (.txStop1, .stopbit c.stopN), (.txEnd, .txend)]

/-- What the model keeps for an observer, forgotten: the counts of conditions, the recorded line and what a
stand-alone POP returned. -/
def forgetRecords (r : Result) : Result :=
  match r with
  | .next t => .next { t with notes := ⟨0, 0, 0, 0, 0⟩, observed := [], popResult := none }
  | .fault f => .fault f
  | .refused q => .refused q

/-- The mailbox's `overflowed` field forgotten (R16). -/
def forgetOverflowed (r : Result) : Result :=
  match r with
  | .next t => .next { t with sample := { t.sample with overflowed := false } }
  | .fault f => .fault f
  | .refused q => .refused q

end Sys2Proof.Machine
end

