-- ==== Sys2Proof/Certificates/Slice0/Obligations.lean ====
section
/-! DEFINITION. The statements for the provers. Those that rest on a decision the spec marks as its own, or on a choice of the model, say so. -/

open Sys2Proof Sys2Proof.Machine

/-! ### The step and its schedule -/

/-- R50: an execution is one sequence of atomic operations. A scheduled operation whose descriptor decodes to
`i` is performed by the next step, and nothing else happens. The schedule is the model's own (log 1). -/
def Obligations.StepPerformsScheduledOperation : Prop :=
  ∀ (s : State) (d : Descriptor) (i : Instr) (es : List Event),
    s.sched = .op d :: es → decode d = .ok i → step s = exec i { s with sched := es }

/-- A table row's bits placed by `withFetchWord` are performed by the very next step, with what selects the
operation set (the model's choice, log 1 and log 19). -/
def Obligations.PlacedTableWordRunsNext : Prop :=
  ∀ (s : State) (nbits w : Nat) (i : Instr),
    decodeTableWord nbits w = some i → step (s.withFetchWord nbits w) = exec i (select i s)

/-- R186, R187: a scheduled turn, or the free schedule's where nothing is scheduled, makes its agent act: TICK,
EDGE to the other level, the next CAP step, the main loop's operation at its phase, RESET. The turn of an
agent that may not step passes: the timer's where its TICK is refused or a deferred capture goes on immediately (R216,
log 15), the pin's in the atomic form while
events are disabled, the capture's where none runs, the main loop's where one runs (the model's choice, log 2). -/
def Obligations.TurnsPerformTheirAgentsOperation : Prop :=
  ∀ s : State,
    (∀ t es, s.sched = .turn t :: es → step s = runTurn t { s with sched := es }) ∧
    (s.sched = [] → step s = runTurn (Config.turnAt s.turn) { s with turn := s.turn + 1 }) ∧
    (s.timerWaits = false → runTurn .timer s = exec .tick s) ∧
    (s.timerWaits = true → runTurn .timer s = .next s) ∧
    (s.pce = true ∨ s.cfg.captureAtomic = false → runTurn .pin s = exec (.edge (!s.irLevel)) s) ∧
    (s.cfg.captureAtomic = true → s.pce = false → runTurn .pin s = .next s) ∧
    (s.captureRunning = true → runTurn .capture s = .next (capStep s) ∧ runTurn .mainLoop s = .next s) ∧
    (s.captureRunning = false → runTurn .capture s = .next s ∧
      (s.encPh = .take → runTurn .mainLoop s = exec .encTake s) ∧
      (s.encPh = .lo → runTurn .mainLoop s = exec .encLo s) ∧
      (s.encPh = .hi → runTurn .mainLoop s = exec .encHi s)) ∧
    runTurn .reset s = exec .reset s

/-- A scheduled descriptor that stands for nothing is refused by the name of what is wrong with it. -/
def Obligations.UndecodableDescriptorRefused : Prop :=
  ∀ (s : State) (d : Descriptor) (r : DecodeReject) (es : List Event),
    s.sched = .op d :: es → decode d = .error r → step s = .refused (.undecodable r)

/-! ### Encodings -/

/-- R71, R72, R60, R64, R70: words written out from the encoding tables decode to what they stand for, the same bits in two
formats to the two things they stand for there (R77). -/
def Obligations.TableWordsDecode : Prop :=
  decode ⟨.op, 0b00000000000⟩ = .ok .reset ∧
  decode ⟨.op, 0b00100000000⟩ = .ok .tick ∧
  decode ⟨.op, 0b01000000001⟩ = .ok (.edge true) ∧
  decode ⟨.op, 0b01000000000⟩ = .ok (.edge false) ∧
  decode ⟨.op, 0b01100000000⟩ = .ok .encTake ∧
  decode ⟨.op, 0b10000000000⟩ = .ok .encLo ∧
  decode ⟨.op, 0b10100000000⟩ = .ok .encHi ∧
  decode ⟨.op, 0b11001100100⟩ = .ok (.push 0x64) ∧
  decode ⟨.op, 0b11100000000⟩ = .ok .pop ∧
  decode ⟨.txstate, 0b0000⟩ = .ok .txIdle ∧
  decode ⟨.txstate, 0b0001⟩ = .ok .txStart ∧
  decode ⟨.txstate, 0b1000⟩ = .ok .txData6 ∧
  decode ⟨.txstate, 0b1011⟩ = .ok .txStop1 ∧
  decode ⟨.txstate, 0b1100⟩ = .ok .txEnd ∧
  decode ⟨.pulseword, 0x8064⟩ = .ok (.word true 100) ∧
  decode ⟨.pulseword, 0x7FFF⟩ = .ok (.word false 0x7FFF) ∧
  decode ⟨.frame, 0b000100110111⟩ = .ok (.frame 0x64) ∧
  decode ⟨.reserved, 0x0000⟩ = .ok .oobPrefix ∧
  decode ⟨.pulseword, 0x0664⟩ = .ok (.word false 0x0664) ∧
  decode ⟨.op, 0x0664⟩ = .ok (.push 0x64)

/-- R77, R71, R72, R60, R64: decoding what was encoded gives the instruction back, for every well-formed
instruction and every value of its operands. -/
def Obligations.DecodeEncodeRoundTrip : Prop :=
  ∀ i : Instr, WellFormed i → decode (encode i) = .ok i

/-- Every descriptor stands for at most one instruction, which is well formed, and every instruction has one
descriptor: encoding what was decoded gives the descriptor back, so no bit is dropped. -/
def Obligations.EncodeDecodeRoundTrip : Prop :=
  ∀ (d : Descriptor) (i : Instr), decode d = .ok i → WellFormed i ∧ encode i = d

/-- R71, R73, R67, R70: descriptors with a non-zero operand where the table says zero, numbers that name no UART
state, words with `D = 0`, and the reserved word read as a PulseWord are rejected by name. -/
def Obligations.ReservedEncodingsRejected : Prop :=
  (∀ (sel : BitVec 3) (operand : Byte), sel ≠ 2 → sel ≠ 6 → operand ≠ 0#8 →
    decode (opDescriptor sel operand) = .error .operandNotZero) ∧
  (∀ operand : Byte, 2 ≤ operand.toNat → decode (opDescriptor 2 operand) = .error .operandNotZero) ∧
  (∀ n : BitVec 4, 13 ≤ n.toNat → decode (txDescriptor n) = .error .illegalUartState) ∧
  readWord 0x0000 = .error .reservedPrefix ∧
  readWord 0x8000 = .error .zeroDuration

/-! ### Reset -/

/-- R33, R200 (the values are the spec's decision D19): RESET completes in every state and puts every register
with a stated value at that value; the parameters stay (R10). What R33 leaves unspecified is named nowhere here.
That the model's own fields `sched`, `notes`, `observed`, `popResult` and `turn` stay is the model's choice (log 26). -/
def Obligations.ResetPutsEveryRegister : Prop :=
  ∀ s : State, ∃ t, exec .reset s = .next t ∧
    t.cnt = 0#16 ∧ t.ovf = false ∧ t.sample.duration = 0#16 ∧ t.sample.overflowed = false ∧
    t.st = .idle ∧ t.txPin = s.cfg.markLevel ∧ t.rd = 0 ∧ t.wr = 0 ∧ t.encPh = .take ∧ t.pce = true ∧
    t.irLevel = s.cfg.irLevel0 ∧ t.capPh = .none ∧ t.edgePending = false ∧ t.cfg = s.cfg ∧
    t.sched = s.sched ∧ t.notes = s.notes ∧ t.observed = s.observed ∧ t.popResult = s.popResult ∧ t.turn = s.turn

/-- R201 (decision D33): nothing of the block survives RESET. Two states that agree in the parameters and the
model's own fields are the same state after it. -/
def Obligations.NothingSurvivesReset : Prop :=
  ∀ s u : State, s.cfg = u.cfg → s.sched = u.sched → s.turn = u.turn → s.epoch = u.epoch → s.notes = u.notes →
    s.observed = u.observed → s.popResult = u.popResult → exec .reset s = exec .reset u

/-- R32, R223: the state after reset is sound, for every value of the parameters. -/
def Obligations.ResetStatesAreSound : Prop :=
  Inv State.reset ∧ ∀ c : Config, Inv (State.initial c)

/-! ### Invariants and progress -/

/-- R32, R223: every step from a sound state leads to a sound state, whatever is scheduled and whatever the
parameters are. -/
def Obligations.StepKeepsSoundness : Prop :=
  ∀ s t : State, Inv s → step s = .next t → Inv t

/-- R44, R32: no step from a sound state accesses a ring slot that does not exist. -/
def Obligations.SoundStepNeverFaults : Prop :=
  ∀ (s : State) (f : Fault), Inv s → step s ≠ .fault f

/-- Nothing in the block hangs, as R116 (d), R129 and R180 and the end of 93_implementation_defined.md part 1 say of its
operations. Where nothing is scheduled from outside, every step of every interleaving from a sound state answers a
next state. That such a step is the turn of a free schedule, and that the turn of an agent that may not step, a
TICK that a split capture bars or holds back among them, passes, is the model's choice (log 2, log 15). -/
def Obligations.UnscheduledStepAlwaysCompletes : Prop :=
  ∀ s : State, Inv s → s.sched = [] → ∃ t, step s = .next t

/-- R10: the parameters never change after construction. -/
def Obligations.ParametersNeverChange : Prop :=
  ∀ s t : State, step s = .next t → t.cfg = s.cfg

/-! ### TICK and the counter -/

/-- R91, R92 (the width is decision D3): TICK completes in every sound state in which it is not a split capture's second; it adds
one to `cnt` modulo 2^16, sets `ovf` on the wrap and otherwise leaves it, performs TX_STEP, and touches
nothing of the mailbox, the encoder, `pce`, `irLevel`, the write cursor or the ring's bytes. The observer's
record gains the level of the quantum that begins (log 7). -/
def Obligations.TickCountsAndSteps : Prop :=
  ∀ s : State, Inv s → s.tickBarred = false → ∃ t u, exec .tick s = .next t ∧ txStep s = .next u ∧
    t.cnt = s.cnt + 1#16 ∧ t.ovf = (s.ovf || s.cnt == 0xFFFF#16) ∧
    t.notes = (if s.cnt = 0xFFFF#16 then s.notes.count .counterOverflow else s.notes) ∧
    t.st = u.st ∧ t.tsr = u.tsr ∧ t.txPin = u.txPin ∧ t.rd = u.rd ∧
    t.observed = t.txPin :: s.observed ∧
    t.sample = s.sample ∧ t.encPh = s.encPh ∧ t.encW = s.encW ∧ t.pce = s.pce ∧ t.irLevel = s.irLevel ∧
    t.wr = s.wr ∧ t.buf = s.buf ∧ t.capPh = s.capPh ∧ t.tOvf = s.tOvf ∧ t.tCnt = s.tCnt ∧
    t.edgePending = s.edgePending ∧ t.capDeferred = s.capDeferred ∧ t.cfg = s.cfg ∧ t.sched = s.sched ∧ t.turn = s.turn ∧ t.epoch = s.epoch ∧
    t.popResult = s.popResult

/-- R93, R96 (decision D14; log 14), R200 (decision D19): `ovf` is sticky. Through any number of TICKs it stays set; of the
operations only EDGE clears it (R93), in the split form at its step CAP5 (R96), and RESET puts every register at
its reset value (R200); wraps are not counted, so two intervals of 65536 ticks or more are captured alike, in the
atomic form and in the split form (R96). -/
def Obligations.OverflowFlagIsSticky : Prop :=
  (∀ (n : Nat) (s t : State), ticks n s = .next t → s.ovf = true → t.ovf = true) ∧
  (∀ (i : Instr) (s t : State), exec i s = .next t → s.ovf = true → t.ovf = false →
    i = .reset ∨ ∃ l, i = .edge l) ∧
  (∀ s : State, s.ovf = true → (capStep s).ovf = false → s.capPh = .cap5) ∧
  (∀ (m n : Nat) (l : Level) (s t u t' u' : State), 65536 ≤ m → 65536 ≤ n → ticks m s = .next t →
    ticks n s = .next u → exec (.edge l) t = .next t' → exec (.edge l) u = .next u' →
    (s.cfg.captureAtomic = true → t'.sample = u'.sample ∧ t'.sample.duration = 0xFFFF#16) ∧
    (s.cfg.captureAtomic = false → s.pce = true → s.capPh = .none →
      (capSteps 6 t').sample = (capSteps 6 u').sample ∧ (capSteps 6 t').sample.duration = 0xFFFF#16))

/-- R171, R96 (decision D14; log 14): a TICK with `cnt = 0xFFFF` sets `ovf` and is otherwise as any TICK: nothing is
recorded beyond `ovf`, but for the model's own count of the noted condition (R8, log 6) and its record of the line
(R189, log 7). `ovf` stays set until the next EDGE or RESET; the sample of that EDGE, in the atomic form and in
the split form (R96), carries the sentinel. -/
def Obligations.CounterOverflowSetsSentinel : Prop :=
  (∀ s t : State, exec .tick s = .next t → s.cnt = 0xFFFF#16 → ∃ u, txStep s = .next u ∧
    t = { u with
      cnt := 0#16, ovf := true, notes := s.notes.count .counterOverflow,
      observed := u.txPin :: s.observed, capTicked := t.capTicked }) ∧
  (∀ (i : Instr) (s t : State), exec i s = .next t → s.ovf = true → i ≠ .reset → (∀ l, i ≠ .edge l) → t.ovf = true) ∧
  (∀ (l : Level) (s t : State), exec (.edge l) s = .next t → s.ovf = true →
    (s.cfg.captureAtomic = true → t.sample.duration = 0xFFFF#16 ∧ t.ovf = false) ∧
    (s.cfg.captureAtomic = false → s.pce = true → s.capPh = .none →
      (capSteps 6 t).sample.duration = 0xFFFF#16 ∧ (capSteps 6 t).ovf = false))

/-- R95, R98, R223 (i): the duration a capture reports is the number of TICKs since the counter was last zeroed, whatever
main-loop or test-bench operations come between, or 0xFFFF when that is more; `cnt` is that number modulo 2^16
and `ovf` says whether it reached 65536. In the split form this is the capture with no TICK inside it (R97). A
FRAME counts as the TICKs it performs (log 10). -/
def Obligations.DurationIsNumberOfTicks : Prop :=
  ∀ (is : List Instr) (s t : State), (∀ i ∈ is, i ≠ .reset ∧ ∀ l, i ≠ .edge l) → s.cnt = 0#16 → s.ovf = false →
    runTrace (is.map .op) s = .next t →
    t.cnt.toNat = (is.map (tickCount s.cfg)).sum % 65536 ∧
    (t.ovf = true ↔ 65536 ≤ (is.map (tickCount s.cfg)).sum) ∧
    ∀ (l : Level) (u : State), exec (.edge l) t = .next u →
      (s.cfg.captureAtomic = true → u.sample.duration.toNat = min (is.map (tickCount s.cfg)).sum 0xFFFF ∧
        u.sample.level = l ∧ u.cnt = 0#16 ∧ u.ovf = false) ∧
      (s.cfg.captureAtomic = false → t.pce = true → t.capPh = .none →
        (capSteps 6 u).sample.duration.toNat = min (is.map (tickCount s.cfg)).sum 0xFFFF ∧
        (capSteps 6 u).sample.level = l ∧ (capSteps 6 u).cnt = 0#16 ∧ (capSteps 6 u).ovf = false)

/-- R140, R77, R148 (decisions D11, D27): TX_STEP is the row that `st` selects, and a stop state beyond the last one
is refused. -/
def Obligations.TickPerformsTheSelectedRow : Prop :=
  ∀ s : State, s.tickBarred = false →
    (∀ p ∈ selectedRows s.cfg, s.st = p.2 →
      exec .tick s = andThen (exec p.1 (cntInc s)) fun t => .next (recordTick t)) ∧
    (∀ k, s.st = .stopbit k → k < s.cfg.stopN →
      exec .tick s = andThen (exec .txStop0 (cntInc s)) fun t => .next (recordTick t)) ∧
    (∀ k, s.st = .stopbit k → s.cfg.stopN < k → exec .tick s = .refused .illegalUartState)

/-! ### EDGE -/

/-- R94, R173, R174 (decisions D14, D18, D29, D32): in the atomic form an EDGE to the other level completes whenever
pin-change events are enabled; it stores the new level, the count or the sentinel, and the flag, zeroes the
counter and the flag, and changes nothing else. Overwriting an undrained sample and storing a zero duration
are noted. -/
def Obligations.EdgeCapturesTheInterval : Prop :=
  ∀ (l : Level) (s : State), s.cfg.captureAtomic = true → s.pce = true → l = !s.irLevel →
    ∃ t, exec (.edge l) s = .next t ∧
      t = { s with
        irLevel := l
        sample := ⟨l, if s.ovf then 0xFFFF#16 else s.cnt, s.ovf⟩
        cnt := 0#16
        ovf := false
        notes := t.notes } ∧
      t.notes.mailboxOverrun = s.notes.mailboxOverrun + (if s.sample.duration = 0#16 then 0 else 1) ∧
      t.notes.zeroDuration = s.notes.zeroDuration + (if s.ovf = false ∧ s.cnt = 0#16 then 1 else 0) ∧
      t.notes.counterOverflow = s.notes.counterOverflow ∧ t.notes.ringFull = s.notes.ringFull ∧
      t.notes.durationClamp = s.notes.durationClamp

/-- R94 (decision D29): a change to the level the pin already has is no transition, and in the atomic form no EDGE
happens while pin-change events are disabled. -/
def Obligations.EdgeStopsWhereNotEnabled : Prop :=
  ∀ s : State, exec (.edge s.irLevel) s = .refused .edgeNotTransition ∧
    (s.cfg.captureAtomic = true → s.pce = false → exec (.edge (!s.irLevel)) s = .refused .pinEventsMasked)

/-- R214: captured levels alternate. After an EDGE to level `l`, and any operations other than EDGE and RESET, the
next EDGE that happens is one to the other level. -/
def Obligations.CapturedLevelsAlternate : Prop :=
  ∀ (l l' : Level) (is : List Instr) (s t u v : State), exec (.edge l) s = .next t →
    (∀ i ∈ is, i ≠ .reset ∧ ∀ k, i ≠ .edge k) → runTrace (is.map .op) t = .next u →
    exec (.edge l') u = .next v → l' = !l ∧ u.irLevel = l

/-- R96 (decisions D14, D24): PIN of the split form. An idle, enabled capture handler is entered and events are
disabled; otherwise the transition is remembered under `deferred` and lost under `lost`. -/
def Obligations.SplitPinEntersOrMasks : Prop :=
  ∀ s : State, s.cfg.captureAtomic = false →
    (s.pce = true → s.capPh = .none → exec (.edge (!s.irLevel)) s =
      .next { s with irLevel := !s.irLevel, pce := false, capPh := .cap1 }) ∧
    (s.pce = false ∨ s.capPh ≠ .none → s.cfg.maskedEdge = .deferred → exec (.edge (!s.irLevel)) s =
      .next { s with irLevel := !s.irLevel, edgePending := true }) ∧
    (s.pce = false ∨ s.capPh ≠ .none → s.cfg.maskedEdge = .lost → exec (.edge (!s.irLevel)) s =
      .next { s with irLevel := !s.irLevel })

/-- R96, R97, R98 (decision D14): the split capture with no TICK inside it does to the block's registers what the atomic
capture does: PIN and CAP1 to CAP6 store the same sample, zero the same counter and flag, and end with events enabled
and no capture running. They note the same conditions, which R98 says of both forms; at which micro-step is the
model's choice (log 16). -/
def Obligations.SplitCaptureWithoutTickIsTheCapture : Prop :=
  ∀ (l : Level) (s t : State), s.cfg.captureAtomic = false → s.pce = true → s.capPh = .none → s.edgePending = false →
    exec (.edge l) s = .next t → ∃ u, u = capSteps 6 t ∧
      u = { capture l s with tOvf := s.ovf, tCnt := s.cnt, capTicked := false, capDeferred := false }

/-- R96, R97: one TICK at each place of the split capture. Before CAP2, or between CAP2 and CAP3, the tick is counted in
this interval; between CAP2 and CAP3 with the counter about to wrap and the flag already read as clear, the stored
duration is 0 and the 65536 ticks are never reported; between CAP3 and CAP4 the tick is counted in neither interval;
after CAP4 it is counted in the next one. A second TICK between CAP1 and CAP6 of one capture is refused. R216: under
`deferred` a transition remembered during a capture is captured right after it, and however the agents' turns fall,
that capture stores zero or one tick and the level of the pin at its CAP1 (decision D24); that immediacy is a matter
of the turns, not of TICK (log 15). -/
def Obligations.TickInsideSplitCapture : Prop :=
  (∀ s t : State, s.cfg.captureAtomic = false → exec .tick s = .next t →
    (∀ n, (s.capPh = .cap1 ∧ n = 3) ∨ (s.capPh = .cap2 ∧ n = 2) →
      (capSteps n t).tCnt = s.cnt + 1#16 ∧ (capSteps n t).tOvf = (s.ovf || s.cnt == 0xFFFF#16) ∧
      (capSteps n t).sample.duration = (if s.ovf || s.cnt == 0xFFFF#16 then 0xFFFF#16 else s.cnt + 1#16) ∧
      (capSteps (n + 3) t).cnt = 0#16 ∧ (capSteps (n + 3) t).ovf = false) ∧
    (s.capPh = .cap3 → (capSteps 4 t).tCnt = s.cnt + 1#16 ∧
      (capSteps 4 t).sample.duration = (if s.tOvf then 0xFFFF#16 else s.cnt + 1#16) ∧
      (s.tOvf = false → s.cnt = 0xFFFF#16 → (capSteps 4 t).sample.duration = 0#16) ∧
      (capSteps 4 t).cnt = 0#16 ∧ (capSteps 4 t).ovf = false) ∧
    (s.capPh = .cap4 →
      (capSteps 3 t).sample = s.sample ∧ (capSteps 3 t).cnt = 0#16 ∧ (capSteps 3 t).ovf = false) ∧
    (s.capPh = .cap5 → s.cnt = 0#16 → t.ovf = s.ovf ∧
      (capSteps 2 t).sample = s.sample ∧ (capSteps 2 t).cnt = 1#16 ∧ (capSteps 2 t).ovf = false) ∧
    (s.capPh = .cap6 → s.cnt = 0#16 → s.ovf = false →
      (capStep t).sample = s.sample ∧ (capStep t).cnt = 1#16 ∧ (capStep t).ovf = false) ∧
    (s.capPh ≠ .none → s.capPh ≠ .cap1 → exec .tick t = .refused .secondTickInCapture)) ∧
  (∀ (ts : List Turn) (s : State), Inv s → s.cfg.captureAtomic = false → s.capPh = .cap6 → s.edgePending = true →
    .reset ∉ ts → ts.count .capture = 4 → ∃ u, runTurns ts s = .next u ∧ u.capPh = .cap4 ∧ u.capDeferred = true ∧
      (u.sample.duration = 0#16 ∨ u.sample.duration = 1#16)) ∧
  (∀ s : State, s.capPh = .cap1 → (capStep s).sample.level = s.irLevel)

/-! ### The encoder -/

/-- R60, R61, R62, R63 (decisions D8, D9): bit 15 of the encoded word is the inverse of the sampled level, bits 14..0
are the duration clamped to 0x7FFF, and the word is its two bytes with the low byte in the low bits. -/
def Obligations.EncodedWordFields : Prop :=
  ∀ (l : Level) (d : Word),
    (encodeWord l d).getLsbD 15 = !l ∧
    ((encodeWord l d).extractLsb' 0 15).toNat = min d.toNat 0x7FFF ∧
    (encodeWord l d).toNat = (hiByte (encodeWord l d)).toNat * 256 + (loByte (encodeWord l d)).toNat

/-- R111 (decision D16): ENC_TAKE completes at its phase. An empty mailbox changes nothing at all; a sample is taken,
the mailbox is emptied, the word is built, and nothing else changes but the count of clamps. -/
def Obligations.EncTakeDrainsTheMailbox : Prop :=
  ∀ s : State, s.encPh = .take → s.captureRunning = false → s.pce = true →
    (s.sample.duration = 0#16 → exec .encTake s = .next s) ∧
    (s.sample.duration ≠ 0#16 → ∃ t, exec .encTake s = .next t ∧
      t = { s with
        sample := ⟨s.sample.level, 0#16, false⟩
        encW := encodeWord s.sample.level s.sample.duration
        encPh := .lo
        notes := t.notes } ∧
      t.notes.durationClamp = s.notes.durationClamp + (if 0x7FFF < s.sample.duration.toNat then 1 else 0) ∧
      t.notes.counterOverflow = s.notes.counterOverflow ∧ t.notes.ringFull = s.notes.ringFull ∧
      t.notes.mailboxOverrun = s.notes.mailboxOverrun ∧ t.notes.zeroDuration = s.notes.zeroDuration)

/-- R175, R61, R62, R111 (decisions D8, D9): ENC_TAKE of a sample with a duration above 0x7FFF, the sentinel included,
emits `D = 0x7FFF`, and of any other duration emits it unchanged; the level flag is the inverse of the sampled level
and does not depend on the duration. -/
def Obligations.DurationClampsAtMaximum : Prop :=
  ∀ s t : State, s.encPh = .take → s.sample.duration ≠ 0#16 → exec .encTake s = .next t →
    (0x7FFF < s.sample.duration.toNat → t.encW.extractLsb' 0 15 = 0x7FFF#15 ∧
      t.notes.durationClamp = s.notes.durationClamp + 1) ∧
    (s.sample.duration.toNat ≤ 0x7FFF → (t.encW.extractLsb' 0 15).toNat = s.sample.duration.toNat ∧
      t.notes = s.notes) ∧
    t.encW.getLsbD 15 = !s.sample.level

/-- R113, R114 (decision D10): under the policy `byte`, ENC_LO pushes the low byte and goes to `hi`, ENC_HI pushes the
high byte and goes to `take`, each whether or not its byte was dropped; both complete in every sound state at
their phase, and nothing else changes. -/
def Obligations.EncoderPushesBytesOnTheirOwn : Prop :=
  ∀ s : State, Inv s → s.captureRunning = false →
    (s.encPh = .lo → s.cfg.pushPolicy = .byte → ∃ t u, exec .encLo s = .next t ∧
      exec (.push (loByte s.encW)) s = .next u ∧ t = { u with encPh := .hi }) ∧
    (s.encPh = .hi → ∃ t u, exec .encHi s = .next t ∧
      exec (.push (hiByte s.encW)) s = .next u ∧ t = { u with encPh := .take })

/-- R115 (decision D10): under the policy `word`, ENC_LO drops the whole word when fewer than two slots are free, and
otherwise stores the low byte; then, whatever turns the timer, the pin and a split capture take in between, ENC_HI
stores the high byte right after it in the ring as soon as no capture runs. No word is torn. -/
def Obligations.WordPolicyNeverTears : Prop :=
  ∀ s : State, Inv s → s.captureRunning = false → s.encPh = .lo → s.cfg.pushPolicy = .word →
    (s.ringFree < 2 → exec .encLo s =
      .next { s with encPh := .take, notes := s.notes.count .ringFull }) ∧
    (2 ≤ s.ringFree → ∃ t, exec .encLo s = .next t ∧ t.contents = s.contents ++ [loByte s.encW] ∧ t.encPh = .hi ∧
      ∀ ts : List Turn, (∀ x ∈ ts, x = .timer ∨ x = .pin ∨ x = .capture) → ∃ u, runTurns ts t = .next u ∧
        (u.captureRunning = false → ∃ v, exec .encHi u = .next v ∧ v.contents = u.contents ++ [hiByte s.encW]))

/-- R96, R111, R113, R114: an encoder step away from its phase is no operation of the block in that state, and while a
split capture runs neither the encoder's steps nor POP, a sendable WORD and a PUSH into a ring with room are (log 17); each is refused by name
(log 13). -/
def Obligations.EncoderStopsWhereNotEnabled : Prop :=
  ∀ s : State,
    (s.captureRunning = true → exec .encTake s = .refused .captureRunning ∧
      exec .encLo s = .refused .captureRunning ∧ exec .encHi s = .refused .captureRunning ∧
      (∀ b, s.ringFull = false → exec (.push b) s = .refused .captureRunning) ∧ exec .pop s = .refused .captureRunning ∧
      ∀ l d, d ≠ 0#15 → exec (.word l d) s = .refused .captureRunning) ∧
    (s.captureRunning = false →
      (s.encPh ≠ .take → exec .encTake s = .refused .encPhaseNotSelected) ∧
      (s.encPh ≠ .lo → exec .encLo s = .refused .encPhaseNotSelected) ∧
      (s.encPh ≠ .hi → exec .encHi s = .refused .encPhaseNotSelected))

/-! ### The ring -/

/-- R126: PUSH completes in every state with the cursors in range, into a ring with room where no split capture runs
(R96). When one more advance of `wr` would meet `rd`
the byte is lost and no register changes; otherwise the byte is stored in slot `wr`, every other slot keeps
its byte, `wr` advances, `ring_count` grows by one, the ring is not empty, and nothing else changes. -/
def Obligations.PushStoresOrDrops : Prop :=
  ∀ (b : Byte) (s : State), s.rd < s.cfg.ringCap → s.wr < s.cfg.ringCap →
    ((s.wr + 1) % s.cfg.ringCap = s.rd → exec (.push b) s = .next { s with notes := s.notes.count .ringFull }) ∧
    ((s.wr + 1) % s.cfg.ringCap ≠ s.rd → s.captureRunning = false → ∃ t, exec (.push b) s = .next t ∧
      t = { s with buf := t.buf, wr := (s.wr + 1) % s.cfg.ringCap } ∧
      t.buf.read s.wr = some b ∧ (∀ a, a ≠ s.wr → t.buf.read a = s.buf.read a) ∧
      t.ringCount = s.ringCount + 1 ∧ t.ringEmpty = false)

/-- R127: POP of a ring that is not empty completes where no split capture runs (R96): it returns the byte in slot `rd`, advances `rd` and changes
nothing else; `ring_count` has shrunk by one and the ring is not full. POP of an empty ring is refused. -/
def Obligations.PopTakesTheOldestByte : Prop :=
  ∀ s : State, s.captureRunning = false → s.rd < s.cfg.ringCap → s.wr < s.cfg.ringCap →
    (s.rd = s.wr → exec .pop s = .refused .popEmpty) ∧
    (s.rd ≠ s.wr → ∃ t, exec .pop s = .next t ∧
      t = { s with rd := (s.rd + 1) % s.cfg.ringCap, popResult := some (s.slotByte s.rd) } ∧
      t.ringCount + 1 = s.ringCount ∧ t.ringFull = false)

/-- R129: for every state with a full ring, a running split capture or not, PUSH is enabled and leaves every register
unchanged; so the bytes buffered before are there as before. Only the model's count of drops moves (log 6). -/
def Obligations.FullPushChangesNoRegister : Prop :=
  ∀ (b : Byte) (s : State), s.ringFull = true → ∃ t, exec (.push b) s = .next t ∧
    t = { s with notes := s.notes.count .ringFull } ∧ t.contents = s.contents

/-- R125, R128: the ring is a bounded queue of at most `RING_CAP - 1` bytes. PUSH appends its byte or, when the queue
is full, drops it; POP and every TICK that begins a frame take the oldest byte; no other TICK, and no EDGE or
ENC_TAKE, touches the queue. -/
def Obligations.RingIsABoundedQueue : Prop :=
  ∀ s t : State, Inv s →
    (s.contents.length ≤ s.cfg.ringCap - 1) ∧
    (∀ b, exec (.push b) s = .next t →
      t.contents = if s.contents.length < s.cfg.ringCap - 1 then s.contents ++ [b] else s.contents) ∧
    (exec .pop s = .next t → ∃ b, s.contents = b :: t.contents ∧ t.popResult = some b) ∧
    (exec .tick s = .next t →
      ((s.st = .idle ∨ s.st = .txend) ∧ s.contents = t.tsr :: t.contents ∧ t.st = .startbit) ∨
      (t.contents = s.contents ∧ ((s.st = .idle ∨ s.st = .txend) → s.contents = []))) ∧
    (∀ l, exec (.edge l) s = .next t → t.contents = s.contents) ∧
    (exec .encTake s = .next t → t.contents = s.contents)

/-- R130: from an empty ring with no POP, exactly `RING_CAP - 1` pushes succeed and every later one drops. -/
def Obligations.PushesFillUpToCapacity : Prop :=
  ∀ (bs : List Byte) (s t : State), Inv s → s.contents = [] →
    runTrace (bs.map fun b => .op (.push b)) s = .next t →
    t.contents = bs.take (s.cfg.ringCap - 1) ∧
    t.notes.ringFull = s.notes.ringFull + (bs.length - (s.cfg.ringCap - 1))

/-- R131: a cursor moves only forward by one modulo `RING_CAP`: `wr` by a push, `rd` by a pop; neither is reset except by
RESET. That WORD is two pushes (log 9) and that FRAME is the TICKs of one frame, with its one pop (log 10), are the
model's choice. -/
def Obligations.CursorsOnlyAdvanceByOne : Prop :=
  ∀ (i : Instr) (s t : State), i ≠ .reset → exec i s = .next t →
    ((∀ l d, i ≠ .word l d) → t.wr = s.wr ∨ t.wr = (s.wr + 1) % s.cfg.ringCap) ∧
    (∀ l d, i = .word l d → ∃ u, exec (.push (loByte (pulseWord l d))) s = .next u ∧
      exec (.push (hiByte (pulseWord l d))) u = .next t) ∧
    (t.rd = s.rd ∨ t.rd = (s.rd + 1) % s.cfg.ringCap) ∧
    (performer i ≠ .mainLoop → t.wr = s.wr) ∧
    (performer i ≠ .timer → t.rd = s.rd)

/-- R44, R126: the frame of the ring's bytes. An operation that pushes leaves every slot but `wr` as it was, and WORD, two
pushes by the model's choice (log 9), every slot but `wr` and the one after it. Every other operation but RESET
leaves every slot as it was. -/
def Obligations.OnlyPushesWriteTheirSlots : Prop :=
  ∀ (i : Instr) (s t : State), exec i s = .next t →
    ((∃ b, i = .push b) ∨ i = .encLo ∨ i = .encHi → ∀ a, a ≠ s.wr → t.buf.read a = s.buf.read a) ∧
    ((∃ l d, i = .word l d) → ∀ a, a ≠ s.wr → a ≠ (s.wr + 1) % s.cfg.ringCap → t.buf.read a = s.buf.read a) ∧
    (performer i ≠ .mainLoop → i ≠ .reset → ∀ a, t.buf.read a = s.buf.read a) ∧
    (i = .encTake → ∀ a, t.buf.read a = s.buf.read a)

/-! ### The transmitter -/

/-- R141, R149 (decisions D7, D12; log 23): TX_STEP when `st = idle`. With an empty ring the pin is driven to MARK and the transmitter stays idle;
otherwise a frame begins: the oldest byte to `tsr`, the start bit on the line. Nothing else changes. -/
def Obligations.TxIdleRestsOrBegins : Prop :=
  ∀ s : State, s.st = .idle → s.rd < s.cfg.ringCap →
    (s.rd = s.wr → exec .txIdle s = .next { s with txPin := s.cfg.markLevel, st := .idle }) ∧
    (s.rd ≠ s.wr → exec .txIdle s = .next { s with
      rd := (s.rd + 1) % s.cfg.ringCap, tsr := s.slotByte s.rd, txPin := !s.cfg.markLevel, st := .startbit })

/-- R142, R143, R65 (decisions D6, D7, D13): TX_STEP in `startbit` and `databit0` to `databit6` drives bit 0 of `tsr`, a 1 as
MARK and a 0 as SPACE, shifts `tsr` right by one with a zero entering, and goes on to the next data bit;
nothing else changes. -/
def Obligations.TxDataRowsDriveBits : Prop :=
  ∀ p ∈ dataRows, ∀ s : State, s.st = p.2.1 → ∃ t, exec p.1 s = .next t ∧
    t = { s with txPin := t.txPin, tsr := t.tsr, st := p.2.2 } ∧
    t.txPin = (if s.tsr.getLsbD 0 then s.cfg.markLevel else !s.cfg.markLevel) ∧ t.tsr.toNat = s.tsr.toNat / 2

/-- R144: TX_STEP when `st = databit7` drives the pin to MARK and enters the first stop state; `tsr` is not used. -/
def Obligations.TxLastDataBitEntersStop : Prop :=
  ∀ s : State, s.st = .databit 7 → exec .txData7 s = .next { s with txPin := s.cfg.markLevel, st := .stopbit 0 }

/-- R145, R146 (decisions D5, D13): TX_STEP in a stop state goes on to the next one, and from the last one to `txend`; the
pin is not written and the ring is not examined. -/
def Obligations.TxStopRowsHoldThePin : Prop :=
  ∀ s : State,
    (∀ k, s.st = .stopbit k → k < s.cfg.stopN → exec .txStop0 s = .next { s with st := .stopbit (k + 1) }) ∧
    (s.st = .stopbit s.cfg.stopN → exec .txStop1 s = .next { s with st := .txend })

/-- R147, R149 (decisions D7, D12; log 23): TX_STEP when `st = txend`: to idle at MARK with an empty ring, otherwise directly to the start bit of the
oldest byte. -/
def Obligations.TxEndGoesOnOrRests : Prop :=
  ∀ s : State, s.st = .txend → s.rd < s.cfg.ringCap →
    (s.rd = s.wr → exec .txEnd s = .next { s with txPin := s.cfg.markLevel, st := .idle }) ∧
    (s.rd ≠ s.wr → exec .txEnd s = .next { s with
      rd := (s.rd + 1) % s.cfg.ringCap, tsr := s.slotByte s.rd, txPin := !s.cfg.markLevel, st := .startbit })

/-- A row of TX_STEP that `st` does not select is no step of the transmitter in that state; it is refused by name
(the model's choice, log 12). -/
def Obligations.TxRowStopsWhereNotSelected : Prop :=
  ∀ s : State, (∀ p ∈ selectedRows s.cfg, s.st ≠ p.2 → exec p.1 s = .refused .txStateNotSelected) ∧
    ((∀ k, s.st = .stopbit k → s.cfg.stopN ≤ k) → exec .txStop0 s = .refused .txStateNotSelected)

/-- R150: where the pin is written. A TICK leaves the pin as it is on entering `stopbit1` and later stop states and
`txend`; entering idle or `stopbit0` it is MARK, entering `startbit` it is SPACE, and entering `databit i` it is the
level of bit 0 of `tsr`. No operation but a TX_STEP and RESET writes it. -/
def Obligations.PinIsWrittenOnlyByTheTransmitter : Prop :=
  (∀ (i : Instr) (s t : State), exec i s = .next t → performer i ≠ .timer → i ≠ .reset → t.txPin = s.txPin) ∧
  (∀ s t : State, exec .pop s = .next t → t.txPin = s.txPin) ∧
  (∀ s t : State, exec .tick s = .next t →
    (t.st = .idle ∨ t.st = .stopbit 0 → t.txPin = s.cfg.markLevel) ∧
    (t.st = .startbit → t.txPin = s.cfg.spaceLevel) ∧
    (∀ i, t.st = .databit i → t.txPin = levelOf s.cfg (s.tsr.getLsbD 0)) ∧
    (t.st = .txend ∨ (∃ k, t.st = .stopbit (k + 1)) → t.txPin = s.txPin))

/-- R69, R217, R151: an empty ring and an idle transmitter leave the line at MARK for any number of TICKs, and a byte pushed
then is not driven in the quantum it was pushed in: the pin is at MARK until the next TICK drives the start bit. -/
def Obligations.IdleLineStaysAtMark : Prop :=
  ∀ (n : Nat) (s : State), Inv s → s.captureRunning = false → s.st = .idle → s.rd = s.wr →
    ∃ t, ticks n s = .next t ∧ t.observed = List.replicate n s.cfg.markLevel ++ s.observed ∧ t.st = .idle ∧ t.rd = t.wr ∧
      ∀ b, ∃ u v, exec (.push b) t = .next u ∧ u.st = .idle ∧ u.txPin = s.cfg.markLevel ∧
        exec .tick u = .next v ∧ v.st = .startbit ∧ v.tsr = b ∧ v.txPin = s.cfg.spaceLevel

/-- R64, R152, R153 (decisions D5, D7, D11, D13): from idle or `txend` with byte `b` at the head of the ring, the next
`FRAME_TICKS` TICKs put exactly the frame of `b` on the line: start bit, eight data bits least significant first,
the stop states and `txend`. They are what FRAME does (log 10). They end in `txend` with `tsr` at 0, take the one
byte, count the ticks, and touch nothing else. -/
def Obligations.FrameCarriesItsByte : Prop :=
  ∀ (b : Byte) (s : State), Inv s → s.captureRunning = false → s.st = .idle ∨ s.st = .txend → s.rd ≠ s.wr →
    s.buf.read s.rd = some b → ∃ t, ticks s.cfg.frameTicks s = .next t ∧ exec (.frame b) s = .next t ∧
      t.observed = (frameLevels s.cfg b).reverse ++ s.observed ∧
      t.cnt = s.cnt + BitVec.ofNat 16 s.cfg.frameTicks ∧
      t = { s with
        st := .txend, tsr := 0#8, txPin := s.cfg.markLevel, rd := (s.rd + 1) % s.cfg.ringCap,
        cnt := t.cnt, ovf := t.ovf, notes := t.notes, observed := t.observed }

/-- R152: a frame that is not the next one on the line is refused by name (the model's choice, log 10). -/
def Obligations.FrameStopsWhereNotNext : Prop :=
  ∀ (b : Byte) (s : State), (s.st ≠ .idle ∧ s.st ≠ .txend) ∨ s.rd = s.wr ∨ s.buf.read s.rd ≠ some b →
    exec (.frame b) s = .refused .frameNotNext

/-- R66: a receiver that reads the levels of successive quanta recovers the bytes, whatever the gaps at MARK between
their frames and whatever the polarity and the number of stop states. -/
def Obligations.ReceiverReadsFramesBack : Prop :=
  ∀ (c : Config) (fs : List (Nat × Byte)) (n : Nat),
    receive c .scan (fs.flatMap (fun f => List.replicate f.1 c.markLevel ++ frameLevels c f.2) ++
      List.replicate n c.markLevel) = fs.map Prod.snd

/-- R128, R151, R152, R153, R221: the ring is drained. From a frame boundary, DRAIN comes to rest within its bound of
ticks, and a receiver reads from the line exactly the bytes the ring held, oldest first. -/
def Obligations.DrainSendsTheRingsBytes : Prop :=
  ∀ s : State, Inv s → s.captureRunning = false → s.st = .idle ∨ s.st = .txend →
    ∃ (t : State) (line : List Level), drain s = .next t ∧ t.st = .idle ∧ t.rd = t.wr ∧
      t.observed = line.reverse ++ s.observed ∧ receive s.cfg .scan line = s.contents

/-! ### From the pin to the wire -/

/-- R41, R60, R63, R75: WORD completes in every sound state in which no split capture runs (R96). It pushes the word's low byte and then its high byte,
each dropped on its own when the ring is full; with room for both, the queue grows by the two (its meaning as
PUSHW is the model's choice, log 9). -/
def Obligations.WordEntersTheRingLowByteFirst : Prop :=
  ∀ (l : Level) (d : BitVec 15) (s : State), Inv s → s.captureRunning = false → d ≠ 0#15 →
    ∃ u t, exec (.push ((pulseWord l d).extractLsb' 0 8)) s = .next u ∧
      exec (.push ((pulseWord l d).extractLsb' 8 8)) u = .next t ∧ exec (.word l d) s = .next t ∧
      (2 ≤ s.ringFree →
        t.contents = s.contents ++ [(pulseWord l d).extractLsb' 0 8, (pulseWord l d).extractLsb' 8 8] ∧
        t = { s with buf := t.buf, wr := ((s.wr + 1) % s.cfg.ringCap + 1) % s.cfg.ringCap })

/-- R60, R67: a word with `D = 0` is never sent. ENC_TAKE builds none, and in a sound state the two bytes that ENC_LO and
ENC_HI push make no such word. That the row WORD with `D = 0` is refused is the model's choice (log 9). -/
def Obligations.ZeroWordIsNeverSent : Prop :=
  (∀ s t : State, exec .encTake s = .next t → t.encPh = .lo → t.encW.extractLsb' 0 15 ≠ 0#15) ∧
  (∀ s : State, Inv s → s.encPh = .lo ∨ s.encPh = .hi →
    (Word.ofBytes (hiByte s.encW) (loByte s.encW)).extractLsb' 0 15 ≠ 0#15) ∧
  (∀ (l : Level) (s : State), exec (.word l 0#15) s = .refused .zeroDurationWord)

/-- R70, U1: the reserved out-of-band prefix is refused in every state; no meaning is assigned to it. -/
def Obligations.OutOfBandPrefixRefused : Prop :=
  ∀ s : State, exec .oobPrefix s = .refused .reservedPrefix

/-- R41, R60, R62, R110, R116, R152 (decisions D8, D9, D16): one interval from the mailbox to the wire. At rest with room
for a word, ENCODE and then DRAIN put two bytes on the line, low byte first; paired low first they are one word, and
that word is the PulseWord whose level flag is the interval's level, the inverse of the sampled one, and whose
duration field is the clamped duration. -/
def Obligations.CapturedIntervalReachesTheWire : Prop :=
  ∀ s : State, Inv s → s.captureRunning = false → s.st = .idle → s.rd = s.wr → 4 ≤ s.cfg.ringCap → s.encPh = .take →
    s.sample.duration ≠ 0#16 →
    ∃ (t u : State) (line : List Level) (w : Word), encodeOnce s = .next t ∧ drain t = .next u ∧
      u.observed = line.reverse ++ s.observed ∧ pairWords (receive s.cfg .scan line) = [w] ∧
      u.sample.duration = 0#16 ∧ u.encPh = .take ∧
      ∃ d : BitVec 15, readWord w = .ok (.word (!s.sample.level) d) ∧ d.toNat = min s.sample.duration.toNat 0x7FFF

/-- R110, R115, R116 (b) (decisions D10, D17): ENCODE with nothing in between completes at its phase. With an empty mailbox
it does nothing. Of a sample it pushes the word's two bytes where both have room, and under the policy `word` with
fewer than two free slots it leaves the ring as it was. Afterwards the mailbox is empty and a second ENCODE
changes nothing, so a sample is encoded at most once. -/
def Obligations.SampleIsEncodedAtMostOnce : Prop :=
  ∀ s : State, Inv s → s.captureRunning = false → s.encPh = .take →
    (s.sample.duration = 0#16 → encodeOnce s = .next s) ∧
    ∃ t, encodeOnce s = .next t ∧ t.sample.duration = 0#16 ∧ t.encPh = .take ∧ encodeOnce t = .next t ∧
      (s.sample.duration ≠ 0#16 → 2 ≤ s.ringFree → t.contents = s.contents ++
        [loByte (encodeWord s.sample.level s.sample.duration), hiByte (encodeWord s.sample.level s.sample.duration)]) ∧
      (s.cfg.pushPolicy = .word → s.ringFree < 2 → t.buf = s.buf ∧ t.wr = s.wr)

/-! ### Rules about the whole block -/

/-- R51, R140, R94, R96 (decision D15 for the agents): ownership. The main loop's operations do not touch the counter, the
transmitter, the read cursor or the pin; the timer's do not touch the mailbox, the encoder, the ring's bytes, the write
cursor, `pce` or the pin; an EDGE and every CAP micro-step do not touch the ring, the transmitter or the encoder. -/
def Obligations.AgentsOwnTheirState : Prop :=
  (∀ (i : Instr) (s t : State), exec i s = .next t →
    (performer i = .mainLoop → t.cnt = s.cnt ∧ t.ovf = s.ovf ∧ t.st = s.st ∧ t.tsr = s.tsr ∧ t.txPin = s.txPin ∧
      t.rd = s.rd ∧ t.irLevel = s.irLevel) ∧
    (performer i = .timer → t.sample = s.sample ∧ t.encPh = s.encPh ∧ t.encW = s.encW ∧ t.buf = s.buf ∧ t.wr = s.wr ∧
      t.pce = s.pce ∧ t.irLevel = s.irLevel) ∧
    (performer i = .pin → t.buf = s.buf ∧ t.rd = s.rd ∧ t.wr = s.wr ∧ t.st = s.st ∧ t.tsr = s.tsr ∧ t.txPin = s.txPin ∧
      t.encPh = s.encPh ∧ t.encW = s.encW)) ∧
  (∀ s : State, capStep s = { s with
    sample := (capStep s).sample, cnt := (capStep s).cnt, ovf := (capStep s).ovf, pce := (capStep s).pce,
    capPh := (capStep s).capPh, tOvf := (capStep s).tOvf, tCnt := (capStep s).tCnt,
    edgePending := (capStep s).edgePending, capTicked := (capStep s).capTicked,
    capDeferred := (capStep s).capDeferred, notes := (capStep s).notes })

/-- R8, R170, R189: the notes, the observer's record of the line and the test bench's byte are read by nothing. Whatever
they hold, every operation and every CAP micro-step does the same to everything else. -/
def Obligations.RecordsAreReadByNothing : Prop :=
  ∀ (i : Instr) (s : State) (n : Notes) (ls : List Level) (b : Option Byte),
    forgetRecords (exec i { s with notes := n, observed := ls, popResult := b }) = forgetRecords (exec i s) ∧
    forgetRecords (.next (capStep { s with notes := n, observed := ls, popResult := b })) =
      forgetRecords (.next (capStep s))

/-- R16 (decision D18): `sample.overflowed` is read by no operation and no CAP micro-step, so it never reaches the wire. -/
def Obligations.OverflowedFieldIsReadByNothing : Prop :=
  ∀ (i : Instr) (s : State) (o : Bool),
    forgetOverflowed (exec i { s with sample := { s.sample with overflowed := o } }) = forgetOverflowed (exec i s) ∧
    forgetOverflowed (.next (capStep { s with sample := { s.sample with overflowed := o } })) =
      forgetOverflowed (.next (capStep s))

/-- R187, R128, R151 (decisions D15, D25): fairness in its bounded form. Whatever the interleaving of the scheduled
turns, one with FRAME_TICKS turns of the timer takes the oldest byte of a ring that is not empty, and one with a
turn of the main loop encodes a waiting sample, unless an overrun destroys it first; RESET apart. -/
def Obligations.FairTurnsMakeProgress : Prop :=
  ∀ (ts : List Turn) (s : State), Inv s → s.cfg.captureAtomic = true → s.sched = ts.map .turn → .reset ∉ ts →
    (s.rd ≠ s.wr → s.cfg.frameTicks ≤ ts.count .timer → ∃ k ≤ ts.length, ∃ t,
      Sys2Proof.core.run k s = .next t ∧ t.rd = (s.rd + 1) % s.cfg.ringCap) ∧
    (s.encPh = .take → s.sample.duration ≠ 0#16 → .mainLoop ∈ ts → ∃ k ≤ ts.length, ∃ t,
      Sys2Proof.core.run k s = .next t ∧ (s.notes.mailboxOverrun < t.notes.mailboxOverrun ∨ t.encPh = .lo))
end

