-- ==== Sys2Proof/Laws/Operands.lean ====
section
/-! SUPPORT. The PulseWord's fields and bytes (30_encoding.md R60 to R63). -/

namespace Sys2Proof.Machine

/-- A wrapped counter is captured as the sentinel (R94). -/
@[simp] theorem captureDuration_true (cnt : Word) : captureDuration true cnt = Config.sentinel := rfl

/-- A counter that did not wrap is captured as it is (R94). -/
@[simp] theorem captureDuration_false (cnt : Word) : captureDuration false cnt = cnt := rfl

/-- The clamp is the minimum with 0x7FFF (R61). -/
theorem clampDuration_toNat (d : Word) : (clampDuration d).toNat = min d.toNat 0x7FFF := by
  unfold clampDuration
  have hm : Config.wordDurMax.toNat = 0x7FFF := rfl
  split
  · rename_i h
    have : d.toNat ≤ 0x7FFF := by simpa [BitVec.le_def, hm] using h
    omega
  · rename_i h
    have : ¬ d.toNat ≤ 0x7FFF := by simpa [BitVec.le_def, hm] using h
    omega

/-- A clamped duration has bit 15 clear. -/
theorem clampDuration_lt (d : Word) : (clampDuration d).toNat < 2 ^ 15 := by
  rw [clampDuration_toNat]
  omega

/-- The bits of a PulseWord (R60). -/
theorem pulseWord_getLsbD (l : Level) (d : BitVec 15) (i : Nat) :
    (pulseWord l d).getLsbD i = if i < 15 then d.getLsbD i else (BitVec.ofBool l).getLsbD (i - 15) :=
  BitVec.getLsbD_append

/-- The number a PulseWord is (R60). -/
theorem pulseWord_toNat (l : Level) (d : BitVec 15) :
    (pulseWord l d).toNat = (BitVec.ofBool l).toNat <<< 15 ||| d.toNat := BitVec.toNat_append ..

/-- The bits of a word made of two bytes (R41). -/
theorem ofBytes_getLsbD (hi lo : Byte) (i : Nat) :
    (Word.ofBytes hi lo).getLsbD i = if i < 8 then lo.getLsbD i else hi.getLsbD (i - 8) :=
  BitVec.getLsbD_append

/-- `encode_word` is the concatenation `L ++ D` (R60, R63). -/
theorem encodeWord_eq_pulseWord (l : Level) (d : Word) :
    encodeWord l d = pulseWord (!l) ((clampDuration d).setWidth 15) := by
  have hd : (clampDuration d).toNat % 32768 = (clampDuration d).toNat := Nat.mod_eq_of_lt (clampDuration_lt d)
  apply BitVec.eq_of_toNat_eq
  cases l <;> simp [encodeWord, pulseWord_toNat, hd]

/-- Bit 15 of a PulseWord is its level flag (R60). -/
@[simp] theorem pulseWord_level (l : Level) (d : BitVec 15) : (pulseWord l d).getLsbD 15 = l := by
  rw [pulseWord_getLsbD]
  cases l <;> rfl

/-- Bits 14..0 of a PulseWord are its duration field (R60). -/
@[simp] theorem pulseWord_duration (l : Level) (d : BitVec 15) : (pulseWord l d).extractLsb' 0 15 = d := by
  apply BitVec.eq_of_getLsbD_eq
  intro i hi
  simp [pulseWord_getLsbD, hi]

/-- A word is its two bytes, low byte in the low bits (R41, R63). -/
@[simp] theorem ofBytes_hi_lo (w : Word) : Word.ofBytes (hiByte w) (loByte w) = w := by
  apply BitVec.eq_of_getLsbD_eq
  intro i hi
  rw [ofBytes_getLsbD]
  by_cases h : i < 8
  · simp [loByte, h]
  · have h2 : i - 8 < 8 := by omega
    have h3 : 8 + (i - 8) = i := by omega
    simp [hiByte, h, h2, h3]

/-- The duration field of an encoded sample is not 0 when the duration is not (R67). -/
theorem encodeWord_duration_ne_zero (l : Level) {d : Word} (h : d ≠ 0#16) : (encodeWord l d).extractLsb' 0 15 ≠ 0#15 := by
  rw [encodeWord_eq_pulseWord, pulseWord_duration]
  intro hz
  have hz' := congrArg BitVec.toNat hz
  have hlt := clampDuration_lt d
  have hd : d.toNat ≠ 0 := fun e => h (BitVec.eq_of_toNat_eq e)
  rw [BitVec.toNat_setWidth, Nat.mod_eq_of_lt hlt, clampDuration_toNat] at hz'
  simp at hz'
  omega

/-- A capture's duration is 0 exactly for a second transition before any TICK (R94, R174). -/
theorem captureDuration_eq_zero {ovf : Bool} {cnt : Word} : captureDuration ovf cnt = 0#16 ↔ ovf = false ∧ cnt = 0#16 := by
  cases ovf <;> simp [Config.sentinel]

end Sys2Proof.Machine
end

