-- ==== Sys2Proof/Laws/Memory.lean ====
section
/-! SUPPORT. The ring memory: reading after writing, and that every memory operation keeps the canonical form. -/

namespace Sys2Proof.Machine.Memory

@[simp] theorem read_nil (a : Nat) : read [] a = none := rfl

@[simp] theorem wf_nil : wf [] = true := rfl

@[simp] theorem below_nil (cap : Nat) : below cap [] = true := rfl

theorem read_cons (k : Nat) (v : Byte) (m : Memory) (a : Nat) :
    read ((k, v) :: m) a = if k = a then some v else read m a := rfl

/-- A slot reads as the byte written to it. -/
@[simp] theorem read_write_same (m : Memory) (a : Nat) (b : Byte) : (m.write a b).read a = some b := by
  induction m with
  | nil => simp [write, read_cons]
  | cons c m ih =>
    obtain ⟨k, v⟩ := c
    simp only [write]
    split
    · simp [read_cons]
    · split
      · simp [read_cons]
      · rename_i h
        simp [read_cons, Ne.symm h, ih]

/-- A write leaves every other slot alone. -/
theorem read_write_other (m : Memory) {a a' : Nat} (b : Byte) (h : a' ≠ a) : (m.write a b).read a' = m.read a' := by
  induction m with
  | nil => simp [write, read_cons, Ne.symm h]
  | cons c m ih =>
    obtain ⟨k, v⟩ := c
    simp only [write]
    split
    · simp [read_cons, Ne.symm h]
    · split
      · rename_i hk
        subst hk
        simp [read_cons, Ne.symm h]
      · simp [read_cons, ih]

/-- Both facts in one equation. -/
theorem read_write (m : Memory) (a a' : Nat) (b : Byte) :
    (m.write a b).read a' = if a' = a then some b else m.read a' := by
  split
  · rename_i h
    subst h
    exact read_write_same m a' b
  · rename_i h
    exact read_write_other m b h

/-- A write never makes a written slot unwritten. -/
theorem read_write_isSome (m : Memory) (a a' : Nat) (b : Byte) (h : (m.read a').isSome = true) :
    ((m.write a b).read a').isSome = true := by
  rw [read_write]
  split
  · rfl
  · exact h

theorem risingFrom_mono {lo lo' : Nat} (h : lo' ≤ lo) {m : Memory} (hm : risingFrom lo m = true) :
    risingFrom lo' m = true := by
  cases m with
  | nil => rfl
  | cons c m =>
    simp only [risingFrom, Bool.and_eq_true, decide_eq_true_eq] at hm ⊢
    exact ⟨by omega, hm.2⟩

theorem risingFrom_write {m : Memory} {lo : Nat} (hm : risingFrom lo m = true) {a : Nat} (ha : lo ≤ a) (b : Byte) :
    risingFrom lo (m.write a b) = true := by
  induction m generalizing lo with
  | nil => simp [write, risingFrom, ha]
  | cons c m ih =>
    obtain ⟨k, v⟩ := c
    simp only [risingFrom, Bool.and_eq_true, decide_eq_true_eq] at hm
    simp only [write]
    split
    · simp only [risingFrom, Bool.and_eq_true, decide_eq_true_eq]
      exact ⟨ha, by omega, hm.2⟩
    · split
      · rename_i h
        subst h
        simp only [risingFrom, Bool.and_eq_true, decide_eq_true_eq]
        exact ⟨ha, hm.2⟩
      · simp only [risingFrom, Bool.and_eq_true, decide_eq_true_eq]
        exact ⟨hm.1, ih hm.2 (by omega)⟩

/-- A write keeps the canonical form. -/
theorem wf_write {m : Memory} (hm : m.wf = true) (a : Nat) (b : Byte) : (m.write a b).wf = true :=
  risingFrom_write hm (Nat.zero_le a) b

/-- A write below the capacity lists no slot that does not exist. -/
theorem below_write {m : Memory} {cap : Nat} (hm : m.below cap = true) {a : Nat} (ha : a < cap) (b : Byte) :
    (m.write a b).below cap = true := by
  induction m with
  | nil => simp [write, below, ha]
  | cons c m ih =>
    obtain ⟨k, v⟩ := c
    have hm' : k < cap ∧ below cap m = true := by simpa [below] using hm
    simp only [write]
    split
    · simpa [below, ha] using hm
    · split
      · have := hm'.2
        simpa [below, ha] using this
      · have := ih hm'.2
        simpa [below, hm'.1] using this

end Sys2Proof.Machine.Memory
end

