-- ==== Sys2Proof/Laws/State.lean ====
section
/-! SUPPORT. What each named update of State leaves in each field: one simp lemma per field per update, true by rfl. -/

namespace Sys2Proof.Machine.State

/-! A noted condition changes the counts alone (R8). -/

@[simp] theorem noteIf_cnt (p : Bool) (c : Condition) (s : State) : (s.noteIf p c).cnt = s.cnt := rfl
@[simp] theorem noteIf_ovf (p : Bool) (c : Condition) (s : State) : (s.noteIf p c).ovf = s.ovf := rfl
@[simp] theorem noteIf_sample (p : Bool) (c : Condition) (s : State) : (s.noteIf p c).sample = s.sample := rfl
@[simp] theorem noteIf_st (p : Bool) (c : Condition) (s : State) : (s.noteIf p c).st = s.st := rfl
@[simp] theorem noteIf_tsr (p : Bool) (c : Condition) (s : State) : (s.noteIf p c).tsr = s.tsr := rfl
@[simp] theorem noteIf_txPin (p : Bool) (c : Condition) (s : State) : (s.noteIf p c).txPin = s.txPin := rfl
@[simp] theorem noteIf_buf (p : Bool) (c : Condition) (s : State) : (s.noteIf p c).buf = s.buf := rfl
@[simp] theorem noteIf_rd (p : Bool) (c : Condition) (s : State) : (s.noteIf p c).rd = s.rd := rfl
@[simp] theorem noteIf_wr (p : Bool) (c : Condition) (s : State) : (s.noteIf p c).wr = s.wr := rfl
@[simp] theorem noteIf_encPh (p : Bool) (c : Condition) (s : State) : (s.noteIf p c).encPh = s.encPh := rfl
@[simp] theorem noteIf_encW (p : Bool) (c : Condition) (s : State) : (s.noteIf p c).encW = s.encW := rfl
@[simp] theorem noteIf_pce (p : Bool) (c : Condition) (s : State) : (s.noteIf p c).pce = s.pce := rfl
@[simp] theorem noteIf_irLevel (p : Bool) (c : Condition) (s : State) : (s.noteIf p c).irLevel = s.irLevel := rfl
@[simp] theorem noteIf_capPh (p : Bool) (c : Condition) (s : State) : (s.noteIf p c).capPh = s.capPh := rfl
@[simp] theorem noteIf_tOvf (p : Bool) (c : Condition) (s : State) : (s.noteIf p c).tOvf = s.tOvf := rfl
@[simp] theorem noteIf_tCnt (p : Bool) (c : Condition) (s : State) : (s.noteIf p c).tCnt = s.tCnt := rfl
@[simp] theorem noteIf_edgePending (p : Bool) (c : Condition) (s : State) : (s.noteIf p c).edgePending = s.edgePending := rfl
@[simp] theorem noteIf_cfg (p : Bool) (c : Condition) (s : State) : (s.noteIf p c).cfg = s.cfg := rfl
@[simp] theorem noteIf_capTicked (p : Bool) (c : Condition) (s : State) : (s.noteIf p c).capTicked = s.capTicked := rfl
@[simp] theorem noteIf_capDeferred (p : Bool) (c : Condition) (s : State) : (s.noteIf p c).capDeferred = s.capDeferred := rfl
@[simp] theorem noteIf_sched (p : Bool) (c : Condition) (s : State) : (s.noteIf p c).sched = s.sched := rfl
@[simp] theorem noteIf_turn (p : Bool) (c : Condition) (s : State) : (s.noteIf p c).turn = s.turn := rfl
@[simp] theorem noteIf_epoch (p : Bool) (c : Condition) (s : State) : (s.noteIf p c).epoch = s.epoch := rfl
@[simp] theorem noteIf_notes (p : Bool) (c : Condition) (s : State) : (s.noteIf p c).notes = if p then s.notes.count c else s.notes := rfl
@[simp] theorem noteIf_observed (p : Bool) (c : Condition) (s : State) : (s.noteIf p c).observed = s.observed := rfl
@[simp] theorem noteIf_popResult (p : Bool) (c : Condition) (s : State) : (s.noteIf p c).popResult = s.popResult := rfl

/-! Entry to a masked section changes `pce` alone (R179). -/

@[simp] theorem maskPinEvents_cnt (s : State) : (maskPinEvents s).cnt = s.cnt := rfl
@[simp] theorem maskPinEvents_ovf (s : State) : (maskPinEvents s).ovf = s.ovf := rfl
@[simp] theorem maskPinEvents_sample (s : State) : (maskPinEvents s).sample = s.sample := rfl
@[simp] theorem maskPinEvents_st (s : State) : (maskPinEvents s).st = s.st := rfl
@[simp] theorem maskPinEvents_tsr (s : State) : (maskPinEvents s).tsr = s.tsr := rfl
@[simp] theorem maskPinEvents_txPin (s : State) : (maskPinEvents s).txPin = s.txPin := rfl
@[simp] theorem maskPinEvents_buf (s : State) : (maskPinEvents s).buf = s.buf := rfl
@[simp] theorem maskPinEvents_rd (s : State) : (maskPinEvents s).rd = s.rd := rfl
@[simp] theorem maskPinEvents_wr (s : State) : (maskPinEvents s).wr = s.wr := rfl
@[simp] theorem maskPinEvents_encPh (s : State) : (maskPinEvents s).encPh = s.encPh := rfl
@[simp] theorem maskPinEvents_encW (s : State) : (maskPinEvents s).encW = s.encW := rfl
@[simp] theorem maskPinEvents_pce (s : State) : (maskPinEvents s).pce = false := rfl
@[simp] theorem maskPinEvents_irLevel (s : State) : (maskPinEvents s).irLevel = s.irLevel := rfl
@[simp] theorem maskPinEvents_capPh (s : State) : (maskPinEvents s).capPh = s.capPh := rfl
@[simp] theorem maskPinEvents_tOvf (s : State) : (maskPinEvents s).tOvf = s.tOvf := rfl
@[simp] theorem maskPinEvents_tCnt (s : State) : (maskPinEvents s).tCnt = s.tCnt := rfl
@[simp] theorem maskPinEvents_edgePending (s : State) : (maskPinEvents s).edgePending = s.edgePending := rfl
@[simp] theorem maskPinEvents_cfg (s : State) : (maskPinEvents s).cfg = s.cfg := rfl
@[simp] theorem maskPinEvents_capTicked (s : State) : (maskPinEvents s).capTicked = s.capTicked := rfl
@[simp] theorem maskPinEvents_capDeferred (s : State) : (maskPinEvents s).capDeferred = s.capDeferred := rfl
@[simp] theorem maskPinEvents_sched (s : State) : (maskPinEvents s).sched = s.sched := rfl
@[simp] theorem maskPinEvents_turn (s : State) : (maskPinEvents s).turn = s.turn := rfl
@[simp] theorem maskPinEvents_epoch (s : State) : (maskPinEvents s).epoch = s.epoch := rfl
@[simp] theorem maskPinEvents_notes (s : State) : (maskPinEvents s).notes = s.notes := rfl
@[simp] theorem maskPinEvents_observed (s : State) : (maskPinEvents s).observed = s.observed := rfl
@[simp] theorem maskPinEvents_popResult (s : State) : (maskPinEvents s).popResult = s.popResult := rfl

/-! Return from a masked section changes `pce` alone (R180). -/

@[simp] theorem unmaskPinEvents_cnt (s : State) : (unmaskPinEvents s).cnt = s.cnt := rfl
@[simp] theorem unmaskPinEvents_ovf (s : State) : (unmaskPinEvents s).ovf = s.ovf := rfl
@[simp] theorem unmaskPinEvents_sample (s : State) : (unmaskPinEvents s).sample = s.sample := rfl
@[simp] theorem unmaskPinEvents_st (s : State) : (unmaskPinEvents s).st = s.st := rfl
@[simp] theorem unmaskPinEvents_tsr (s : State) : (unmaskPinEvents s).tsr = s.tsr := rfl
@[simp] theorem unmaskPinEvents_txPin (s : State) : (unmaskPinEvents s).txPin = s.txPin := rfl
@[simp] theorem unmaskPinEvents_buf (s : State) : (unmaskPinEvents s).buf = s.buf := rfl
@[simp] theorem unmaskPinEvents_rd (s : State) : (unmaskPinEvents s).rd = s.rd := rfl
@[simp] theorem unmaskPinEvents_wr (s : State) : (unmaskPinEvents s).wr = s.wr := rfl
@[simp] theorem unmaskPinEvents_encPh (s : State) : (unmaskPinEvents s).encPh = s.encPh := rfl
@[simp] theorem unmaskPinEvents_encW (s : State) : (unmaskPinEvents s).encW = s.encW := rfl
@[simp] theorem unmaskPinEvents_pce (s : State) : (unmaskPinEvents s).pce = true := rfl
@[simp] theorem unmaskPinEvents_irLevel (s : State) : (unmaskPinEvents s).irLevel = s.irLevel := rfl
@[simp] theorem unmaskPinEvents_capPh (s : State) : (unmaskPinEvents s).capPh = s.capPh := rfl
@[simp] theorem unmaskPinEvents_tOvf (s : State) : (unmaskPinEvents s).tOvf = s.tOvf := rfl
@[simp] theorem unmaskPinEvents_tCnt (s : State) : (unmaskPinEvents s).tCnt = s.tCnt := rfl
@[simp] theorem unmaskPinEvents_edgePending (s : State) : (unmaskPinEvents s).edgePending = s.edgePending := rfl
@[simp] theorem unmaskPinEvents_cfg (s : State) : (unmaskPinEvents s).cfg = s.cfg := rfl
@[simp] theorem unmaskPinEvents_capTicked (s : State) : (unmaskPinEvents s).capTicked = s.capTicked := rfl
@[simp] theorem unmaskPinEvents_capDeferred (s : State) : (unmaskPinEvents s).capDeferred = s.capDeferred := rfl
@[simp] theorem unmaskPinEvents_sched (s : State) : (unmaskPinEvents s).sched = s.sched := rfl
@[simp] theorem unmaskPinEvents_turn (s : State) : (unmaskPinEvents s).turn = s.turn := rfl
@[simp] theorem unmaskPinEvents_epoch (s : State) : (unmaskPinEvents s).epoch = s.epoch := rfl
@[simp] theorem unmaskPinEvents_notes (s : State) : (unmaskPinEvents s).notes = s.notes := rfl
@[simp] theorem unmaskPinEvents_observed (s : State) : (unmaskPinEvents s).observed = s.observed := rfl
@[simp] theorem unmaskPinEvents_popResult (s : State) : (unmaskPinEvents s).popResult = s.popResult := rfl

/-! CNT_INC changes `cnt`, `ovf` and the counts (R92). -/

@[simp] theorem cntInc_cnt (s : State) : (cntInc s).cnt = s.cnt + 1#16 := rfl
@[simp] theorem cntInc_ovf (s : State) : (cntInc s).ovf = s.ovfAfterTick := rfl
@[simp] theorem cntInc_sample (s : State) : (cntInc s).sample = s.sample := rfl
@[simp] theorem cntInc_st (s : State) : (cntInc s).st = s.st := rfl
@[simp] theorem cntInc_tsr (s : State) : (cntInc s).tsr = s.tsr := rfl
@[simp] theorem cntInc_txPin (s : State) : (cntInc s).txPin = s.txPin := rfl
@[simp] theorem cntInc_buf (s : State) : (cntInc s).buf = s.buf := rfl
@[simp] theorem cntInc_rd (s : State) : (cntInc s).rd = s.rd := rfl
@[simp] theorem cntInc_wr (s : State) : (cntInc s).wr = s.wr := rfl
@[simp] theorem cntInc_encPh (s : State) : (cntInc s).encPh = s.encPh := rfl
@[simp] theorem cntInc_encW (s : State) : (cntInc s).encW = s.encW := rfl
@[simp] theorem cntInc_pce (s : State) : (cntInc s).pce = s.pce := rfl
@[simp] theorem cntInc_irLevel (s : State) : (cntInc s).irLevel = s.irLevel := rfl
@[simp] theorem cntInc_capPh (s : State) : (cntInc s).capPh = s.capPh := rfl
@[simp] theorem cntInc_tOvf (s : State) : (cntInc s).tOvf = s.tOvf := rfl
@[simp] theorem cntInc_tCnt (s : State) : (cntInc s).tCnt = s.tCnt := rfl
@[simp] theorem cntInc_edgePending (s : State) : (cntInc s).edgePending = s.edgePending := rfl
@[simp] theorem cntInc_cfg (s : State) : (cntInc s).cfg = s.cfg := rfl
@[simp] theorem cntInc_capTicked (s : State) : (cntInc s).capTicked = s.capTicked := rfl
@[simp] theorem cntInc_capDeferred (s : State) : (cntInc s).capDeferred = s.capDeferred := rfl
@[simp] theorem cntInc_sched (s : State) : (cntInc s).sched = s.sched := rfl
@[simp] theorem cntInc_turn (s : State) : (cntInc s).turn = s.turn := rfl
@[simp] theorem cntInc_epoch (s : State) : (cntInc s).epoch = s.epoch := rfl
@[simp] theorem cntInc_notes (s : State) : (cntInc s).notes = if s.cntWraps then s.notes.count .counterOverflow else s.notes := rfl
@[simp] theorem cntInc_observed (s : State) : (cntInc s).observed = s.observed := rfl
@[simp] theorem cntInc_popResult (s : State) : (cntInc s).popResult = s.popResult := rfl

/-! The record of a TICK changes the model's own fields alone (R189, R96). -/

@[simp] theorem recordTick_cnt (s : State) : (recordTick s).cnt = s.cnt := rfl
@[simp] theorem recordTick_ovf (s : State) : (recordTick s).ovf = s.ovf := rfl
@[simp] theorem recordTick_sample (s : State) : (recordTick s).sample = s.sample := rfl
@[simp] theorem recordTick_st (s : State) : (recordTick s).st = s.st := rfl
@[simp] theorem recordTick_tsr (s : State) : (recordTick s).tsr = s.tsr := rfl
@[simp] theorem recordTick_txPin (s : State) : (recordTick s).txPin = s.txPin := rfl
@[simp] theorem recordTick_buf (s : State) : (recordTick s).buf = s.buf := rfl
@[simp] theorem recordTick_rd (s : State) : (recordTick s).rd = s.rd := rfl
@[simp] theorem recordTick_wr (s : State) : (recordTick s).wr = s.wr := rfl
@[simp] theorem recordTick_encPh (s : State) : (recordTick s).encPh = s.encPh := rfl
@[simp] theorem recordTick_encW (s : State) : (recordTick s).encW = s.encW := rfl
@[simp] theorem recordTick_pce (s : State) : (recordTick s).pce = s.pce := rfl
@[simp] theorem recordTick_irLevel (s : State) : (recordTick s).irLevel = s.irLevel := rfl
@[simp] theorem recordTick_capPh (s : State) : (recordTick s).capPh = s.capPh := rfl
@[simp] theorem recordTick_tOvf (s : State) : (recordTick s).tOvf = s.tOvf := rfl
@[simp] theorem recordTick_tCnt (s : State) : (recordTick s).tCnt = s.tCnt := rfl
@[simp] theorem recordTick_edgePending (s : State) : (recordTick s).edgePending = s.edgePending := rfl
@[simp] theorem recordTick_cfg (s : State) : (recordTick s).cfg = s.cfg := rfl
@[simp] theorem recordTick_capTicked (s : State) : (recordTick s).capTicked = (s.capTicked || s.captureWindow) := rfl
@[simp] theorem recordTick_capDeferred (s : State) : (recordTick s).capDeferred = s.capDeferred := rfl
@[simp] theorem recordTick_sched (s : State) : (recordTick s).sched = s.sched := rfl
@[simp] theorem recordTick_turn (s : State) : (recordTick s).turn = s.turn := rfl
@[simp] theorem recordTick_epoch (s : State) : (recordTick s).epoch = s.epoch := rfl
@[simp] theorem recordTick_notes (s : State) : (recordTick s).notes = s.notes := rfl
@[simp] theorem recordTick_observed (s : State) : (recordTick s).observed = s.txPin :: s.observed := rfl
@[simp] theorem recordTick_popResult (s : State) : (recordTick s).popResult = s.popResult := rfl

end Sys2Proof.Machine.State
end

