-- ==== Sys2Proof/Laws/Ops.lean ====
section
/-! SUPPORT. What each shared operation can do, once: inversion of chained outcomes, of PUSH and POP, of the enabling guards, and the cursor arithmetic (42_txring.md R126, R127, R131). -/

namespace Sys2Proof.Machine

/-! ### Outcomes -/

theorem next_inj {s t : State} : (Host.Outcome.next s : Result) = .next t ↔ t = s := by
  simp [eq_comm]

@[simp] theorem andThen_next (s : State) (k : State → Result) : andThen (.next s) k = k s := rfl

@[simp] theorem andThen_fault (f : Fault) (k : State → Result) : andThen (.fault f) k = .fault f := rfl

@[simp] theorem andThen_refused (q : Refusal) (k : State → Result) : andThen (.refused q) k = .refused q := rfl

/-- A chain answers a next state exactly when both of its parts do. -/
theorem andThen_eq_next {r : Result} {k : State → Result} {t : State} :
    andThen r k = .next t ↔ ∃ s, r = .next s ∧ k s = .next t := by
  cases r <;> simp [andThen]

theorem andThen_assoc (r : Result) (k l : State → Result) :
    andThen (andThen r k) l = andThen r fun s => andThen (k s) l := by
  cases r <;> rfl

/-! ### Cursors -/

theorem ringCap_pos (c : Config) : 0 < c.ringCap := Nat.two_pow_pos _

theorem two_le_ringCap (c : Config) : 2 ≤ c.ringCap := by
  have := Nat.two_pow_pos c.ringExp
  simp only [Config.ringCap, Nat.pow_succ]
  omega

/-- An advanced cursor is in range (R32). -/
theorem nextCursor_lt (s : State) (x : Nat) : s.nextCursor x < s.cfg.ringCap := Nat.mod_lt _ (ringCap_pos _)

/-- An advanced cursor is the next slot, or slot 0 after the last one (R131). -/
theorem nextCursor_eq {s : State} {x : Nat} (h : x < s.cfg.ringCap) :
    s.nextCursor x = if x + 1 = s.cfg.ringCap then 0 else x + 1 := by
  simp only [State.nextCursor]
  split
  · rename_i e
    rw [e, Nat.mod_self]
  · exact Nat.mod_eq_of_lt (by omega)

/-- `ring_count` with the cursors in range (R25). -/
theorem ringCount_eq {s : State} (hr : s.rd < s.cfg.ringCap) (hw : s.wr < s.cfg.ringCap) :
    s.ringCount = if s.rd ≤ s.wr then s.wr - s.rd else s.wr + s.cfg.ringCap - s.rd := by
  simp only [State.ringCount]
  split
  · rw [show s.wr + (s.cfg.ringCap - s.rd) = (s.wr - s.rd) + s.cfg.ringCap by omega, Nat.add_mod_right]
    exact Nat.mod_eq_of_lt (by omega)
  · rw [show s.wr + (s.cfg.ringCap - s.rd) = s.wr + s.cfg.ringCap - s.rd by omega]
    exact Nat.mod_eq_of_lt (by omega)

/-- The ring holds at most `RING_CAP - 1` bytes (R25, R125). -/
theorem ringCount_lt (s : State) : s.ringCount < s.cfg.ringCap := Nat.mod_lt _ (ringCap_pos _)

/-- `ring_empty` is `ring_count = 0` (R25). -/
theorem ringEmpty_iff {s : State} (hr : s.rd < s.cfg.ringCap) (hw : s.wr < s.cfg.ringCap) :
    s.ringEmpty = true ↔ s.ringCount = 0 := by
  rw [ringCount_eq hr hw]
  simp only [State.ringEmpty, beq_iff_eq]
  split <;> omega

/-- `ring_full` is `ring_count = RING_CAP - 1` (R25). -/
theorem ringFull_iff {s : State} (hr : s.rd < s.cfg.ringCap) (hw : s.wr < s.cfg.ringCap) :
    s.ringFull = true ↔ s.ringCount = s.cfg.ringCap - 1 := by
  rw [ringCount_eq hr hw]
  simp only [State.ringFull, beq_iff_eq, nextCursor_eq hw]
  split <;> split <;> omega

/-! ### The ring memory -/

theorem memRead_eq_ok {i : Nat} {s : State} {b : Byte} :
    memRead i s = .ok b ↔ i < s.cfg.ringCap ∧ b = s.slotByte i := by
  unfold memRead
  split
  · rename_i h
    simp [h, eq_comm]
  · rename_i h
    simp [h]

theorem memWrite_eq_next {i : Nat} {v : Byte} {s t : State} :
    memWrite i v s = .next t ↔ i < s.cfg.ringCap ∧ t = { s with buf := s.buf.write i v } := by
  unfold memWrite
  split
  · rename_i h
    simp [h, eq_comm]
  · rename_i h
    simp [h]

/-- A written slot holds what the memory lists. -/
theorem slotByte_of_read {s : State} {i : Nat} {b : Byte} (h : s.buf.read i = some b) : s.slotByte i = b := by
  simp [State.slotByte, h]

/-! ### PUSH and POP -/

/-- Everything PUSH can do (R126): a drop, noted, or the byte stored at `wr` and `wr` advanced. -/
theorem pushByte_eq_next {b : Byte} {s t : State} :
    pushByte b s = .next t ↔
      (s.ringFull = true ∧ t = s.noteIf true .ringFull) ∨
      (s.ringFull = false ∧ s.wr < s.cfg.ringCap ∧
        t = { s with buf := s.buf.write s.wr b, wr := s.nextCursor s.wr }) := by
  unfold pushByte
  cases h : s.ringFull with
  | true => simp [eq_comm]
  | false =>
    simp only [Bool.false_eq_true, if_false, false_and, false_or, true_and, andThen_eq_next, memWrite_eq_next]
    constructor
    · rintro ⟨u, ⟨hw, rfl⟩, hu⟩
      refine ⟨hw, ?_⟩
      cases hu
      rfl
    · rintro ⟨hw, rfl⟩
      exact ⟨_, ⟨hw, rfl⟩, rfl⟩

/-- PUSH completes whenever the write cursor is in range: it never waits (R126, R129). -/
theorem pushByte_completes (b : Byte) {s : State} (hw : s.wr < s.cfg.ringCap) : ∃ t, pushByte b s = .next t := by
  cases h : s.ringFull with
  | true => exact ⟨_, pushByte_eq_next.2 (.inl ⟨h, rfl⟩)⟩
  | false => exact ⟨_, pushByte_eq_next.2 (.inr ⟨h, hw, rfl⟩)⟩

/-- PUSH does not touch what a split capture is told by (R51, R96). -/
theorem captureRunning_of_pushByte {b : Byte} {s t : State} (h : pushByte b s = .next t) :
    t.captureRunning = s.captureRunning := by
  rcases pushByte_eq_next.1 h with ⟨-, rfl⟩ | ⟨-, -, rfl⟩ <;> rfl

/-- Everything POP can do when it answers a next state (R127). -/
theorem popByte_eq_next {s t : State} {k : Byte → State → Result} :
    popByte s k = .next t ↔
      s.ringEmpty = false ∧ s.rd < s.cfg.ringCap ∧
        k (s.slotByte s.rd) { s with rd := s.nextCursor s.rd } = .next t := by
  unfold popByte
  cases h : s.ringEmpty with
  | true => simp
  | false =>
    simp only [Bool.false_eq_true, if_false, true_and, memRead]
    split
    · rename_i h1
      split at h1
      · exact absurd h1 (by simp)
      · rename_i h2
        simp [h2]
    · rename_i b h1
      split at h1
      · rename_i h2
        cases h1
        simp [h2]
      · exact absurd h1 (by simp)

/-! ### Guards -/

theorem outsideCapture_eq_next {s t : State} {k : State → Result} :
    outsideCapture s k = .next t ↔ s.captureRunning = false ∧ k s = .next t := by
  unfold outsideCapture
  cases s.captureRunning <;> simp

/-- While a split capture runs, what it bars is refused (R96). -/
theorem outsideCapture_of_running {s : State} (h : s.captureRunning = true) (k : State → Result) :
    outsideCapture s k = .refused .captureRunning := by
  simp [outsideCapture, h]

theorem atPhase_eq_next {p : EncPhase} {s t : State} {k : State → Result} :
    atPhase p s k = .next t ↔ s.captureRunning = false ∧ s.encPh = p ∧ k s = .next t := by
  unfold atPhase
  rw [outsideCapture_eq_next]
  by_cases h : s.encPh = p <;> simp [h]

theorem whenSelected_eq_next {b : Bool} {s t : State} {k : State → Result} :
    whenSelected b s k = .next t ↔ b = true ∧ k s = .next t := by
  cases b <;> simp [whenSelected]

end Sys2Proof.Machine
end

