-- ==== Sys2Proof/Laws/Uart.lean ====
section
/-! SUPPORT. Everything TX_STEP can do, once (43_uart_tx.md R140 to R148, R155). -/

namespace Sys2Proof.Machine

/-- The state a frame begins in: the oldest byte in `tsr`, the start bit on the line (R149). -/
def frameBegun (s : State) : State :=
  { s with rd := s.nextCursor s.rd, tsr := s.slotByte s.rd, txPin := s.cfg.spaceLevel, st := .startbit }

/-- The state after a data drive (R142, R143). -/
def bitDriven (n : UartState) (s : State) : State :=
  { s with txPin := levelOf s.cfg (s.tsr.getLsbD 0), tsr := s.tsr >>> 1, st := n }

/-- The branch of `idle` and `txend` (R141, R147, R149). -/
theorem beginOrIdle_eq_next {s t : State} :
    beginOrIdle s = .next t ↔
      (s.ringEmpty = true ∧ t = { s with txPin := s.cfg.markLevel, st := .idle }) ∨
      (s.ringEmpty = false ∧ s.rd < s.cfg.ringCap ∧ t = frameBegun s) := by
  unfold beginOrIdle txBegin
  cases h : s.ringEmpty with
  | true =>
    simp only [if_true, true_and, Bool.true_eq_false, false_and, or_false]
    exact next_inj
  | false =>
    simp only [Bool.false_eq_true, if_false, false_and, false_or, popByte_eq_next, h, true_and]
    exact and_congr_right fun _ => next_inj

/-- The edges of the UART state machine with what each does (R155): the row of the table that was taken. -/
inductive TxEdge (s t : State) : Prop
  | toIdle (hst : s.st = .idle ∨ s.st = .txend) (he : s.ringEmpty = true)
      (ht : t = { s with txPin := s.cfg.markLevel, st := .idle })
  | begin (hst : s.st = .idle ∨ s.st = .txend) (he : s.ringEmpty = false) (hr : s.rd < s.cfg.ringCap)
      (ht : t = frameBegun s)
  | start (hst : s.st = .startbit) (ht : t = bitDriven (.databit 0) s)
  | data (i j : Fin 8) (hij : j.val = i.val + 1) (hst : s.st = .databit i) (ht : t = bitDriven (.databit j) s)
  | lastData (hst : s.st = .databit 7) (ht : t = { s with txPin := s.cfg.markLevel, st := .stopbit 0 })
  | stop (k : Nat) (hk : k < s.cfg.stopN) (hst : s.st = .stopbit k) (ht : t = { s with st := .stopbit (k + 1) })
  | lastStop (hst : s.st = .stopbit s.cfg.stopN) (ht : t = { s with st := .txend })

/-- The edges that drive a data bit. -/
theorem driveBit_eq_next {n : UartState} {s t : State} : driveBit n s = .next t ↔ t = bitDriven n s := by
  simp [driveBit, bitDriven, eq_comm]

/-- TX_STEP answers a next state exactly along an edge of the state machine (R155). -/
theorem txStep_eq_next {s t : State} : txStep s = .next t ↔ TxEdge s t := by
  constructor
  · intro h
    unfold txStep at h
    split at h
    case h_1 hst =>
      simp only [execTxIdle, whenSelected_eq_next, beginOrIdle_eq_next] at h
      rcases h with ⟨-, ⟨he, ht⟩ | ⟨he, hr, ht⟩⟩
      · exact .toIdle (.inl hst) he ht
      · exact .begin (.inl hst) he hr ht
    case h_2 hst => exact .start hst (driveBit_eq_next.1 (whenSelected_eq_next.1 h).2)
    case h_3 hst => exact .data 0 1 rfl hst (driveBit_eq_next.1 (whenSelected_eq_next.1 h).2)
    case h_4 hst => exact .data 1 2 rfl hst (driveBit_eq_next.1 (whenSelected_eq_next.1 h).2)
    case h_5 hst => exact .data 2 3 rfl hst (driveBit_eq_next.1 (whenSelected_eq_next.1 h).2)
    case h_6 hst => exact .data 3 4 rfl hst (driveBit_eq_next.1 (whenSelected_eq_next.1 h).2)
    case h_7 hst => exact .data 4 5 rfl hst (driveBit_eq_next.1 (whenSelected_eq_next.1 h).2)
    case h_8 hst => exact .data 5 6 rfl hst (driveBit_eq_next.1 (whenSelected_eq_next.1 h).2)
    case h_9 hst => exact .data 6 7 rfl hst (driveBit_eq_next.1 (whenSelected_eq_next.1 h).2)
    case h_10 hst =>
      have := (whenSelected_eq_next.1 h).2
      cases this
      exact .lastData hst rfl
    case h_11 k hst =>
      split at h
      · rename_i hk
        simp only [execTxStop0, earlierStop, hst, hk, if_true] at h
        cases h
        exact .stop k hk hst rfl
      · split at h
        · rename_i hk
          have := (whenSelected_eq_next.1 h).2
          cases this
          subst hk
          exact .lastStop hst rfl
        · cases h
    case h_12 hst =>
      simp only [execTxEnd, whenSelected_eq_next, beginOrIdle_eq_next] at h
      rcases h with ⟨-, ⟨he, ht⟩ | ⟨he, hr, ht⟩⟩
      · exact .toIdle (.inr hst) he ht
      · exact .begin (.inr hst) he hr ht
  · intro h
    cases h with
    | toIdle hst he ht =>
      rcases hst with hst | hst <;>
        simp [txStep, hst, execTxIdle, execTxEnd, whenSelected_eq_next, beginOrIdle_eq_next, he, ht]
    | begin hst he hr ht =>
      rcases hst with hst | hst <;>
        simp [txStep, hst, execTxIdle, execTxEnd, whenSelected_eq_next, beginOrIdle_eq_next, he, hr, ht]
    | start hst ht => simp [txStep, hst, execTxStart, whenSelected_eq_next, driveBit_eq_next, ht]
    | data i j hij hst ht =>
      subst ht
      rcases i with ⟨i, hi⟩
      rcases j with ⟨j, hj⟩
      dsimp only at hij
      subst hij
      have : i < 7 := by omega
      interval_cases i <;>
        simp [txStep, hst, execTxData0, execTxData1, execTxData2, execTxData3, execTxData4, execTxData5, execTxData6,
          whenSelected_eq_next, driveBit_eq_next]
    | lastData hst ht => simp [txStep, hst, execTxData7, whenSelected_eq_next, ht]
    | stop k hk hst ht => simp [txStep, hst, hk, execTxStop0, earlierStop, ht]
    | lastStop hst ht => simp [txStep, hst, execTxStop1, whenSelected_eq_next, ht]

/-- TX_STEP completes in every legal state with the read cursor in range (R140, R148). -/
theorem txStep_completes {s : State} (hl : s.st.legal s.cfg = true) (hr : s.rd < s.cfg.ringCap) :
    ∃ t, txStep s = .next t := by
  simp only [txStep_eq_next]
  have hb : s.st = .idle ∨ s.st = .txend → ∃ t, TxEdge s t := by
    intro hst
    cases he : s.ringEmpty with
    | true => exact ⟨_, .toIdle hst he rfl⟩
    | false => exact ⟨_, .begin hst he hr rfl⟩
  cases hst : s.st with
  | idle => exact hb (.inl hst)
  | txend => exact hb (.inr hst)
  | startbit => exact ⟨_, .start hst rfl⟩
  | databit i =>
    by_cases h7 : i.val < 7
    · exact ⟨_, .data i ⟨i.val + 1, by omega⟩ rfl hst rfl⟩
    · have : i = 7 := Fin.ext (by have := i.isLt; show i.val = 7; omega)
      subst this
      exact ⟨_, .lastData hst rfl⟩
  | stopbit k =>
    have hk : k ≤ s.cfg.stopN := by simpa [hst, UartState.legal] using hl
    rcases Nat.lt_or_eq_of_le hk with h | h
    · exact ⟨_, .stop k h hst rfl⟩
    · subst h
      exact ⟨_, .lastStop hst rfl⟩

/-- TX_STEP touches `st`, `tsr`, `txPin` and `rd` alone (R140). -/
theorem txStep_frame {s t : State} (h : txStep s = .next t) :
    t = { s with st := t.st, tsr := t.tsr, txPin := t.txPin, rd := t.rd } := by
  cases txStep_eq_next.1 h <;> (rename_i ht; subst ht; rfl)

end Sys2Proof.Machine
end

