-- ==== Sys2Proof/Laws/Capture.lean ====
section
/-! SUPPORT. What TICK, EDGE, PIN and the formats' meanings can do (40_capture.md R91, R94, R96). -/

namespace Sys2Proof.Machine

/-- Everything TICK can do (R91): it is not barred, and TX_STEP takes an edge after CNT_INC. -/
theorem execTick_eq_next {s t : State} :
    execTick s = .next t ↔ s.tickBarred = false ∧ ∃ u, TxEdge (cntInc s) u ∧ t = recordTick u := by
  unfold execTick
  cases h : s.tickBarred with
  | true => simp
  | false =>
    simp only [Bool.false_eq_true, if_false, true_and, andThen_eq_next, txStep_eq_next]
    constructor
    · rintro ⟨u, hu, ht⟩
      cases ht
      exact ⟨u, hu, rfl⟩
    · rintro ⟨u, hu, rfl⟩
      exact ⟨u, hu, rfl⟩

/-- Outside a split capture no TICK is refused (R96). -/
theorem tickBarred_of_not_running {s : State} (h : s.captureRunning = false) : s.tickBarred = false := by
  simp [State.tickBarred, State.captureWindow, h]

/-- Outside a split capture the timer's turn is a TICK (R186). -/
theorem timerWaits_of_not_running {s : State} (h : s.captureRunning = false) : s.timerWaits = false := by
  simp [State.timerWaits, State.deferredUnread, tickBarred_of_not_running h, h]

/-- Where the timer's turn is taken, its TICK is not refused (R91, R96). -/
theorem tickBarred_of_not_timerWaits {s : State} (h : s.timerWaits = false) : s.tickBarred = false :=
  (Bool.or_eq_false_iff.1 h).1

/-- TICK completes in every legal state, once inside a split capture (R91, R96). -/
theorem execTick_completes {s : State} (hb : s.tickBarred = false) (hl : s.st.legal s.cfg = true)
    (hr : s.rd < s.cfg.ringCap) : ∃ t, execTick s = .next t := by
  obtain ⟨u, hu⟩ := txStep_completes (s := cntInc s) hl hr
  exact ⟨_, execTick_eq_next.2 ⟨hb, u, txStep_eq_next.1 hu, rfl⟩⟩

/-- TICK does not touch the mailbox, the encoder, `pce`, `irLevel`, the write cursor, the ring's bytes or the
parameters (R91). -/
theorem execTick_frame {s t : State} (h : execTick s = .next t) :
    t = { recordTick (cntInc s) with
      st := t.st, tsr := t.tsr, txPin := t.txPin, rd := t.rd, observed := t.txPin :: s.observed } := by
  obtain ⟨-, u, hu, rfl⟩ := execTick_eq_next.1 h
  have hf := txStep_frame (txStep_eq_next.2 hu)
  rw [hf]
  rfl

theorem ticks_succ (n : Nat) (s : State) : ticks (n + 1) s = andThen (execTick s) (ticks n) := rfl

/-- A run of TICKs splits anywhere. -/
theorem ticks_add (m n : Nat) (s : State) : ticks (m + n) s = andThen (ticks m s) (ticks n) := by
  induction m generalizing s with
  | zero => simp [ticks]
  | succ m ih =>
    rw [Nat.succ_add, ticks_succ, ticks_succ, andThen_assoc]
    congr 1
    funext u
    exact ih u

/-- The counts after a capture: an overwritten sample and a zero duration are noted, each on its own (R94, R178). -/
def captureNotes (s : State) : Notes :=
  let overrun := if s.sampleReady then s.notes.count .mailboxOverrun else s.notes
  if captureDuration s.ovf s.cnt == 0#16 then overrun.count .zeroDuration else overrun

/-- The capture as one update (R94). -/
theorem capture_eq (l : Level) (s : State) :
    capture l s = { s with
      irLevel := l
      sample := ⟨l, captureDuration s.ovf s.cnt, s.ovf⟩
      cnt := 0#16
      ovf := false
      pce := true
      notes := captureNotes s } := rfl

/-- Everything EDGE can do in the atomic form (R94). -/
theorem edgeAtomic_eq_next {l : Level} {s t : State} :
    edgeAtomic l s = .next t ↔ l ≠ s.irLevel ∧ s.pce = true ∧ t = capture l s := by
  unfold edgeAtomic
  by_cases h : l = s.irLevel
  · simp [h]
  · cases s.pce <;> simp [h, eq_comm]

/-- Everything PIN can do in the split form (R96): the handler is entered, or the transition is remembered, or
lost. -/
theorem pinChange_eq_next {l : Level} {s t : State} :
    pinChange l s = .next t ↔ l ≠ s.irLevel ∧
      ((s.pce = true ∧ s.capPh = .none ∧ t = { s with irLevel := l, pce := false, capPh := .cap1 }) ∨
       (¬(s.pce = true ∧ s.capPh = .none) ∧
        t = { s with
          irLevel := l
          edgePending := match s.cfg.maskedEdge with
            | .deferred => true
            | .lost => s.edgePending })) := by
  unfold pinChange
  by_cases h : l = s.irLevel
  · simp [h]
  · by_cases hp : s.pce = true ∧ s.capPh = .none
    · simp only [h, hp, if_false, if_true, ne_eq, not_false_eq_true, true_and, not_true_eq_false, false_and, or_false]
      exact next_inj
    · simp only [h, hp, if_false, ne_eq, not_false_eq_true, true_and]
      cases hm : s.cfg.maskedEdge
      · simp only [← and_assoc, hp, false_and, false_or]
        exact next_inj
      · simp only [← and_assoc, hp, false_and, false_or]
        exact next_inj

/-- EDGE is the atomic capture or PIN, by `CAPTURE_ATOMIC` (R94, R96). -/
theorem execEdge_eq_next {l : Level} {s t : State} :
    execEdge l s = .next t ↔
      (s.cfg.captureAtomic = true ∧ edgeAtomic l s = .next t) ∨
      (s.cfg.captureAtomic = false ∧ pinChange l s = .next t) := by
  unfold execEdge
  cases s.cfg.captureAtomic <;> simp

/-- WORD pushes the low byte and then the high byte, outside a split capture (R41, R75, R96). -/
theorem execWord_eq_next {l : Level} {d : BitVec 15} {s t : State} :
    execWord l d s = .next t ↔
      d ≠ 0#15 ∧ s.captureRunning = false ∧ ∃ u, pushByte (loByte (pulseWord l d)) s = .next u ∧ pushByte (hiByte (pulseWord l d)) u = .next t := by
  unfold execWord pushWord
  by_cases h : d = 0#15
  · simp [h]
  · simp only [h, if_false, outsideCapture_eq_next, andThen_eq_next, ne_eq, not_false_eq_true, true_and]

/-- FRAME is the frame's TICKs when the frame is the next one on the line (R152). -/
theorem execFrame_eq_next {b : Byte} {s t : State} :
    execFrame b s = .next t ↔
      atFrameBoundary s = true ∧ headIs b s = true ∧ ticks s.cfg.frameTicks s = .next t := by
  unfold execFrame
  cases atFrameBoundary s <;> cases headIs b s <;> simp

end Sys2Proof.Machine
end

