-- ==== Sys2Proof/Laws/Decode.lean ====
section
/-! SUPPORT. The bits of encoded descriptors (30_encoding.md R60, R64, R71, R72). -/

namespace Sys2Proof

/-- The quanta of a frame read back in time order are the byte again (R64, R66). -/
theorem timeOrder_timeOrder (b : Byte) : timeOrder (timeOrder b) = b := by
  revert b
  decide

/-- The bits of an operation's descriptor (R71). -/
theorem opDescriptor_getLsbD (sel : BitVec 3) (operand : Byte) (i : Nat) :
    (opDescriptor sel operand).bits.getLsbD i =
      if i < 8 then operand.getLsbD i else (0#5 ++ sel : BitVec (5 + 3)).getLsbD (i - 8) := BitVec.getLsbD_append

/-- The operand bits of an operation's descriptor (R71). -/
theorem opDescriptor_operand (sel : BitVec 3) (operand : Byte) :
    (opDescriptor sel operand).bits.extractLsb' 0 8 = operand := by
  apply BitVec.eq_of_getLsbD_eq
  intro i hi
  rw [BitVec.getLsbD_extractLsb', opDescriptor_getLsbD]
  simp [hi]

theorem Format.mem_all (f : Format) : f ∈ Format.all := by cases f <;> decide

/-- The readings of a pattern are exactly the descriptors with its bits that decode in a format of its width: none is
lost to another format (R77). -/
theorem mem_tableReadings {width w : Nat} {d : Descriptor} (hw : w < 65536) :
    d ∈ tableReadings width w ↔
      d.bits = BitVec.ofNat 16 w ∧ d.fmt.width = width ∧ (decode d).isOk = true := by
  rw [tableReadings, if_pos hw, List.mem_filter, List.mem_map]
  constructor
  · rintro ⟨⟨f, hf, rfl⟩, h⟩
    exact ⟨rfl, of_decide_eq_true (List.mem_filter.mp hf).2, h⟩
  · rintro ⟨hb, hc, h⟩
    exact ⟨⟨d.fmt, List.mem_filter.mpr ⟨d.fmt.mem_all, decide_eq_true hc⟩, by rw [← hb]⟩, h⟩

/-- 16 bits are read as the prefix or as a PulseWord and as nothing else (R77). -/
theorem fmt_of_mem_tableReadings_sixteen {w : Nat} {d : Descriptor} (hw : w < 65536) (h : d ∈ tableReadings 16 w) :
    d.fmt = .pulseword ∨ d.fmt = .reserved := by
  have hf := ((mem_tableReadings hw).mp h).2.1
  cases hd : d.fmt <;> simp_all [Format.width]

/-- The exact widths 4, 11 and 12 of the table name one format each, and the host's port decodes in that format alone
(R77). -/
theorem decodeTableWord_of_width {nbits w : Nat} {f : Format} (hw : w < 65536)
    (h : (nbits, f) ∈ [(4, Format.txstate), (11, Format.op), (12, Format.frame)]) :
    decodeTableWord nbits w = (decode ⟨f, BitVec.ofNat 16 w⟩).toOption := by
  have hf : portWidths nbits = [nbits] ∧ Format.all.filter (·.width = nbits) = [f] := by
    simp only [List.mem_cons, Prod.mk.injEq, List.not_mem_nil, or_false] at h
    rcases h with ⟨rfl, rfl⟩ | ⟨rfl, rfl⟩ | ⟨rfl, rfl⟩ <;> decide
  rw [decodeTableWord, tableDescriptor, hf.1, List.flatMap_singleton, tableReadings, if_pos hw, hf.2]
  cases hd : decode ⟨f, BitVec.ofNat 16 w⟩ <;> simp [hd, Except.isOk, Except.toBool, Except.toOption]

end Sys2Proof
end

