-- ==== Sys2Proof/Laws/Encoder.lean ====
section
/-! SUPPORT. Everything the encoder's three steps can do (41_encoder.md R111, R113, R114, R115). -/

namespace Sys2Proof.Machine

/-- The state after ENC_TAKE took the sample (R111). -/
def sampleTaken (s : State) : State :=
  { s with
    sample := ⟨s.sample.level, 0#16, false⟩
    pce := true
    encW := encodeWord s.sample.level s.sample.duration
    encPh := .lo
    notes := if durationClamped s.sample.duration then s.notes.count .durationClamp else s.notes }

/-- ENC_TAKE's masked step: the sample is taken, or there is none and only the mask was touched (R111). -/
theorem takeSample_eq (s : State) :
    takeSample s = if s.sampleReady then sampleTaken s else { s with pce := true } := by
  have h : (maskPinEvents s).sampleReady = s.sampleReady := rfl
  unfold takeSample
  simp only [h]
  split <;> rfl

/-- Everything ENC_TAKE can do (R111). -/
theorem execEncTake_eq_next {s t : State} :
    execEncTake s = .next t ↔ s.captureRunning = false ∧ s.encPh = .take ∧
      t = if s.sampleReady then sampleTaken s else { s with pce := true } := by
  simp only [execEncTake, atPhase_eq_next, takeSample_eq]
  exact and_congr_right fun _ => and_congr_right fun _ => next_inj

/-- The push of the low byte (R113). -/
theorem pushLow_eq_next {s t : State} :
    pushLow s = .next t ↔ ∃ u, pushByte (loByte s.encW) s = .next u ∧ t = { u with encPh := .hi } := by
  simp only [pushLow, andThen_eq_next]
  exact exists_congr fun _ => and_congr_right fun _ => next_inj

/-- Everything ENC_LO can do, under both policies (R113, R115). -/
theorem execEncLo_eq_next {s t : State} :
    execEncLo s = .next t ↔ s.captureRunning = false ∧ s.encPh = .lo ∧
      ((s.cfg.pushPolicy = .word ∧ s.ringFree < 2 ∧ t = { s.noteIf true .ringFull with encPh := .take }) ∨
       (¬(s.cfg.pushPolicy = .word ∧ s.ringFree < 2) ∧
         ∃ u, pushByte (loByte s.encW) s = .next u ∧ t = { u with encPh := .hi })) := by
  simp only [execEncLo, atPhase_eq_next]
  refine and_congr_right fun _ => and_congr_right fun _ => ?_
  cases s.cfg.pushPolicy with
  | byte => simp [pushLow_eq_next]
  | word =>
    by_cases hf : s.ringFree < 2
    · simp only [hf, if_true, and_self, true_and, not_true_eq_false, false_and, or_false]
      exact next_inj
    · simp [hf, pushLow_eq_next]

/-- Everything ENC_HI can do (R114). -/
theorem execEncHi_eq_next {s t : State} :
    execEncHi s = .next t ↔ s.captureRunning = false ∧ s.encPh = .hi ∧
      ∃ u, pushByte (hiByte s.encW) s = .next u ∧ t = { u with encPh := .take } := by
  simp only [execEncHi, atPhase_eq_next, andThen_eq_next]
  exact and_congr_right fun _ => and_congr_right fun _ => exists_congr fun _ => and_congr_right fun _ => next_inj

end Sys2Proof.Machine
end

