-- ==== Sys2Proof/Laws/PerInstr.lean ====
section
/-! SUPPORT. What is said of every instruction as syntax, one lemma per constructor of Instr: its encoding agrees with its row of spec/opcode_table.json. -/

namespace Sys2Proof.Laws.EncodeFitsTable

/-- The format, the match and the mask of an instruction's row of spec/opcode_table.json. -/
def row : Instr → Format × Word × Word
  | .reset => (.op, 0x000, 0x7FF)
  | .tick => (.op, 0x100, 0x7FF)
  | .edge _ => (.op, 0x200, 0x7FE)
  | .encTake => (.op, 0x300, 0x7FF)
  | .encLo => (.op, 0x400, 0x7FF)
  | .encHi => (.op, 0x500, 0x7FF)
  | .push _ => (.op, 0x600, 0x700)
  | .pop => (.op, 0x700, 0x7FF)
  | .txIdle => (.txstate, 0x0, 0xF)
  | .txStart => (.txstate, 0x1, 0xF)
  | .txData0 => (.txstate, 0x2, 0xF)
  | .txData1 => (.txstate, 0x3, 0xF)
  | .txData2 => (.txstate, 0x4, 0xF)
  | .txData3 => (.txstate, 0x5, 0xF)
  | .txData4 => (.txstate, 0x6, 0xF)
  | .txData5 => (.txstate, 0x7, 0xF)
  | .txData6 => (.txstate, 0x8, 0xF)
  | .txData7 => (.txstate, 0x9, 0xF)
  | .txStop0 => (.txstate, 0xA, 0xF)
  | .txStop1 => (.txstate, 0xB, 0xF)
  | .txEnd => (.txstate, 0xC, 0xF)
  | .word _ _ => (.pulseword, 0x0000, 0x0000)
  | .frame _ => (.frame, 0x007, 0x807)
  | .oobPrefix => (.reserved, 0x0000, 0xFFFF)

/-- An instruction is encoded in its row's format, has its row's fixed bits, and fits the format's width. -/
def Statement (i : Instr) : Prop :=
  (encode i).fmt = (row i).1 ∧ (encode i).bits &&& (row i).2.2 = (row i).2.1 ∧
    (encode i).bits.toNat < 2 ^ (encode i).fmt.width

theorem reset : Statement .reset := by
  unfold Statement
  decide
theorem tick : Statement .tick := by
  unfold Statement
  decide
theorem edge (l : Level) : Statement (.edge l) := by
  unfold Statement
  cases l <;> decide
theorem encTake : Statement .encTake := by
  unfold Statement
  decide
theorem encLo : Statement .encLo := by
  unfold Statement
  decide
theorem encHi : Statement .encHi := by
  unfold Statement
  decide
theorem push (b : Byte) : Statement (.push b) := by
  unfold Statement
  revert b
  decide
theorem pop : Statement .pop := by
  unfold Statement
  decide
theorem txIdle : Statement .txIdle := by
  unfold Statement
  decide
theorem txStart : Statement .txStart := by
  unfold Statement
  decide
theorem txData0 : Statement .txData0 := by
  unfold Statement
  decide
theorem txData1 : Statement .txData1 := by
  unfold Statement
  decide
theorem txData2 : Statement .txData2 := by
  unfold Statement
  decide
theorem txData3 : Statement .txData3 := by
  unfold Statement
  decide
theorem txData4 : Statement .txData4 := by
  unfold Statement
  decide
theorem txData5 : Statement .txData5 := by
  unfold Statement
  decide
theorem txData6 : Statement .txData6 := by
  unfold Statement
  decide
theorem txData7 : Statement .txData7 := by
  unfold Statement
  decide
theorem txStop0 : Statement .txStop0 := by
  unfold Statement
  decide
theorem txStop1 : Statement .txStop1 := by
  unfold Statement
  decide
theorem txEnd : Statement .txEnd := by
  unfold Statement
  decide
theorem word (l : Level) (d : BitVec 15) : Statement (.word l d) :=
  ⟨rfl, BitVec.and_zero, (encode (.word l d)).bits.isLt⟩
theorem frame (b : Byte) : Statement (.frame b) := by
  unfold Statement
  revert b
  decide
theorem oobPrefix : Statement .oobPrefix := by
  unfold Statement
  decide

end Sys2Proof.Laws.EncodeFitsTable
end

