-- ==== Sys2Proof/Laws/Ring.lean ====
section
/-! SUPPORT. PUSH and POP as operations of their own, and the ring as a sequence of slots (42_txring.md R125 to R131). -/

namespace Sys2Proof.Machine

/-- Everything a PUSH on its own can do when it answers a next state: what a PUSH does, with a full ring in every state
and otherwise outside a split capture (R126, R129, R96). -/
theorem execPush_eq_next {b : Byte} {s t : State} :
    execPush b s = .next t ↔ (s.ringFull = true ∨ s.captureRunning = false) ∧ pushByte b s = .next t := by
  unfold execPush
  cases s.ringFull <;> simp [outsideCapture_eq_next]

/-- Outside a split capture a PUSH on its own is the shared operation (R126). -/
theorem execPush_of_not_running {s : State} (h : s.captureRunning = false) (b : Byte) :
    execPush b s = pushByte b s := by
  simp [execPush, outsideCapture, h]

/-- Everything POP can do when it answers a next state (R127, R96). -/
theorem execPop_eq_next {s t : State} :
    execPop s = .next t ↔ s.captureRunning = false ∧ s.ringEmpty = false ∧ s.rd < s.cfg.ringCap ∧
      t = { s with rd := s.nextCursor s.rd, popResult := some (s.slotByte s.rd) } := by
  simp only [execPop, outsideCapture_eq_next, popByte_eq_next]
  exact and_congr_right fun _ => and_congr_right fun _ => and_congr_right fun _ => next_inj

/-- The slots after an advance of `rd` are the slots from the second one on (R125). -/
theorem nextCursor_add (s : State) (k : Nat) :
    (s.nextCursor s.rd + k) % s.cfg.ringCap = (s.rd + (k + 1)) % s.cfg.ringCap := by
  simp only [State.nextCursor, Nat.mod_add_mod]
  congr 1
  omega

/-- The slot after the buffered ones is the one PUSH writes (R125). -/
theorem slot_ringCount {s : State} (hr : s.rd < s.cfg.ringCap) (hw : s.wr < s.cfg.ringCap) :
    (s.rd + s.ringCount) % s.cfg.ringCap = s.wr := by
  rw [ringCount_eq hr hw]
  split
  · rw [Nat.mod_eq_of_lt (by omega)]
    omega
  · rw [show s.rd + (s.wr + s.cfg.ringCap - s.rd) = s.wr + s.cfg.ringCap by omega, Nat.add_mod_right,
      Nat.mod_eq_of_lt hw]

/-- No buffered slot is the one PUSH writes, so a push never corrupts a buffered byte (R126, R129). -/
theorem slot_ne_wr {s : State} (hr : s.rd < s.cfg.ringCap) (hw : s.wr < s.cfg.ringCap) {k : Nat}
    (hk : k < s.ringCount) : (s.rd + k) % s.cfg.ringCap ≠ s.wr := by
  rw [ringCount_eq hr hw] at hk
  by_cases h : s.rd + k < s.cfg.ringCap
  · rw [Nat.mod_eq_of_lt h]
    split at hk <;> omega
  · rw [Nat.mod_eq_sub_mod (by omega), Nat.mod_eq_of_lt (by split at hk <;> omega)]
    split at hk <;> omega

end Sys2Proof.Machine
end

