-- ==== Sys2Proof/Laws/Trace.lean ====
section
/-! SUPPORT. Everything ENCODE with nothing in between can do (41_encoder.md R110, R115). -/

namespace Sys2Proof.Machine

/-- ENCODE takes no sample, or drops the word at ENC_LO, or performs all its three steps (R110, R115). -/
theorem encodeOnce_eq_next {s t : State} :
    encodeOnce s = .next t ↔ ∃ u, execEncTake s = .next u ∧
      ((u.encPh ≠ .lo ∧ t = u) ∨
       (u.encPh = .lo ∧ ∃ v, execEncLo u = .next v ∧
         ((v.encPh ≠ .hi ∧ t = v) ∨ (v.encPh = .hi ∧ execEncHi v = .next t)))) := by
  simp only [encodeOnce, exec, andThen_eq_next]
  refine exists_congr fun u => and_congr_right fun _ => ?_
  by_cases hl : u.encPh = .lo
  · simp only [hl, if_true, andThen_eq_next, ne_eq, not_true_eq_false, false_and, true_and, false_or]
    refine exists_congr fun v => and_congr_right fun _ => ?_
    by_cases hh : v.encPh = .hi
    · simp [hh]
    · simp only [hh, if_false, not_false_eq_true, true_and, false_and, or_false]
      exact next_inj
  · simp only [hl, if_false, ne_eq, not_false_eq_true, true_and, false_and, or_false]
    exact next_inj

end Sys2Proof.Machine
end

