-- ==== Sys2Proof/Tests/Slice0.lean ====
section
/-! SUPPORT. Tests of the model against the encodings and the vectors of the spec (30_encoding.md, 95_test_vectors.md), the smoke test of WellFormed, and for every obligation with hypotheses a witness that meets them. -/

namespace Sys2Proof.Tests

open Sys2Proof.Machine

/-! ### Well-formedness -/

theorem test_wellFormed_refuses_zero_duration : ¬ WellFormed (.word true 0#15) := by decide

theorem test_wellFormed_accepts_smallest_duration : WellFormed (.word true 1#15) := by decide

/-! ### Decoding: words written out from the tables of 30_encoding.md R71, R72, R60, R64, R70 -/

theorem test_decode_reset : decode ⟨.op, 0b000_00000000⟩ = .ok .reset := by decide
theorem test_decode_tick : decode ⟨.op, 0b001_00000000⟩ = .ok .tick := by decide
theorem test_decode_edge_high : decode ⟨.op, 0b010_00000001⟩ = .ok (.edge true) := by decide
theorem test_decode_edge_low : decode ⟨.op, 0b010_00000000⟩ = .ok (.edge false) := by decide
theorem test_decode_encTake : decode ⟨.op, 0b011_00000000⟩ = .ok .encTake := by decide
theorem test_decode_encLo : decode ⟨.op, 0b100_00000000⟩ = .ok .encLo := by decide
theorem test_decode_encHi : decode ⟨.op, 0b101_00000000⟩ = .ok .encHi := by decide
theorem test_decode_push : decode ⟨.op, 0b110_10100101⟩ = .ok (.push 0xA5) := by decide
theorem test_decode_pop : decode ⟨.op, 0b111_00000000⟩ = .ok .pop := by decide
theorem test_decode_edge_operand_two : decode ⟨.op, 0b010_00000010⟩ = .error .operandNotZero := by decide
theorem test_decode_tick_operand : decode ⟨.op, 0b001_00000001⟩ = .error .operandNotZero := by decide

theorem test_decode_txIdle : decode ⟨.txstate, 0b0000⟩ = .ok .txIdle := by decide
theorem test_decode_txStart : decode ⟨.txstate, 0b0001⟩ = .ok .txStart := by decide
theorem test_decode_txData : (List.range 8).map (fun i => decode ⟨.txstate, BitVec.ofNat 16 (2 + i)⟩) =
    [.ok .txData0, .ok .txData1, .ok .txData2, .ok .txData3, .ok .txData4, .ok .txData5, .ok .txData6,
     .ok .txData7] := by decide
theorem test_decode_txStop0 : decode ⟨.txstate, 0b1010⟩ = .ok .txStop0 := by decide
theorem test_decode_txStop1 : decode ⟨.txstate, 0b1011⟩ = .ok .txStop1 := by decide
theorem test_decode_txEnd : decode ⟨.txstate, 0b1100⟩ = .ok .txEnd := by decide
theorem test_decode_txstate_thirteen : decode ⟨.txstate, 0b1101⟩ = .error .illegalUartState := by decide

/-- 95_test_vectors.md S1: the word 0x8064 is a pulse of 100 ticks. -/
theorem test_decode_word : decode ⟨.pulseword, 0b1000000001100100⟩ = .ok (.word true 100) := by decide
theorem test_decode_word_zero : decode ⟨.pulseword, 0x8000⟩ = .error .zeroDuration := by decide

/-- 95_test_vectors.md V-TX-1: 0x64 is `S SSMSSMMS MMM`. -/
theorem test_decode_frame : decode ⟨.frame, 0b0_00100110_111⟩ = .ok (.frame 0x64) := by decide
theorem test_decode_frame_stop_at_space : decode ⟨.frame, 0b0_00100110_101⟩ = .error .notAFrame := by decide
theorem test_decode_oobPrefix : decode ⟨.reserved, 0x0000⟩ = .ok .oobPrefix := by decide

/-- The host's way to the decoder, one row of each format. -/
theorem test_decodeTableWord : decodeTableWord 11 0x664 = some (.push 0x64) ∧ decodeTableWord 16 0x664 = some (.push 0x64) ∧
    decodeTableWord 4 0x9 = some .txData7 ∧ decodeTableWord 8 0x9 = some .txData7 ∧
    decodeTableWord 16 0x8064 = some (.word true 100) ∧ decodeTableWord 12 0x137 = some (.frame 0x64) := by decide

/-- R77: the same bits at the width of each format; 16 bits are a PulseWord, 16 zero bits the prefix. -/
theorem test_tableReadings :
    tableReadings 16 0x664 = [⟨.pulseword, 0x664⟩] ∧ tableReadings 11 0x664 = [⟨.op, 0x664⟩] ∧
    tableReadings 16 0x137 = [⟨.pulseword, 0x137⟩] ∧ tableReadings 12 0x137 = [⟨.frame, 0x137⟩] ∧
    tableReadings 16 0 = [⟨.reserved, 0⟩] ∧ tableReadings 11 0 = [⟨.op, 0⟩] ∧ tableReadings 4 0 = [⟨.txstate, 0⟩] := by
  decide

/-! ### States -/

/-- The state after reset with the unspecified registers at values of the test's choice. -/
def base : State :=
  { State.reset with sample := ⟨false, 0#16, false⟩, tsr := 0#8, encW := 1#16, tOvf := false, tCnt := 0#16 }

/-- `base` in the split form. -/
def splitBase : State := { base with cfg := { Config.standard with captureAtomic := false } }

/-- `base` with the byte 0x64 in slot 0. -/
def loaded : State := { base with buf := [(0, 0x64#8)], wr := 1 }

/-- What a test looks at in a next state. -/
def look {α : Type} (f : State → α) (r : Result) : Option α :=
  match r with
  | .next t => some (f t)
  | .fault _ => none
  | .refused _ => none

/-- Why an operation was refused. -/
def why (r : Result) : Option Refusal :=
  match r with
  | .refused q => some q
  | .next _ => none
  | .fault _ => none

/-! ### Meanings, one step each -/

/-- V-CNT: the wrap. -/
theorem test_tick_wraps :
    look (fun t => (t.cnt, t.ovf, t.notes.counterOverflow)) (exec .tick { base with cnt := 0xFFFF }) =
      some (0x0000, true, 1) := by decide

/-- V-CNT: `ovf` is sticky. -/
theorem test_tick_keeps_ovf :
    look (fun t => (t.cnt, t.ovf)) (exec .tick { base with ovf := true }) = some (0x0001, true) := by decide

/-- V-EDGE: exactly 65536 ticks. -/
theorem test_edge_sentinel :
    look (fun t => (t.sample, t.cnt, t.ovf)) (exec (.edge true) { base with ovf := true, irLevel := false }) =
      some (⟨true, 0xFFFF, true⟩, 0, false) := by decide

/-- V-EDGE: overrun and zero duration together destroy the 7. -/
theorem test_edge_overrun_zero :
    look (fun t => (t.sample, t.notes)) (exec (.edge false) { base with sample := ⟨true, 7, false⟩ }) =
      some (⟨false, 0, false⟩, ⟨0, 0, 1, 1, 0⟩) := by decide

/-- V-WORD: 0x8000 clamps to 0x7FFF. -/
theorem test_encTake_clamps :
    look (fun t => (t.encW, t.encPh, t.sample, t.notes.durationClamp))
      (exec .encTake { base with sample := ⟨true, 0x8000, false⟩ }) =
      some (0x7FFF, .lo, ⟨true, 0, false⟩, 1) := by decide

/-- V-WORD: the sentinel of a pulse. -/
theorem test_encTake_sentinel :
    look (fun t => (t.encW, t.sample)) (exec .encTake { base with sample := ⟨false, 0xFFFF, true⟩ }) =
      some (0xFFFF, ⟨false, 0, false⟩) := by decide

/-- P1: ENC_LO pushes 0x64 of 0x8064. -/
theorem test_encLo :
    look (fun t => (t.buf, t.wr, t.encPh)) (exec .encLo { base with encW := 0x8064, encPh := .lo }) =
      some ([(0, 0x64)], 1, .hi) := by decide

/-- V-POLICY under `word`: one free slot, the word is dropped whole. -/
theorem test_encLo_word_policy :
    look (fun t => (t.buf, t.wr, t.encPh, t.notes.ringFull))
      (exec .encLo { base with
        cfg := { Config.standard with ringExp := 1, pushPolicy := .word }
        buf := [(0, 0x10), (1, 0x80)], wr := 2, encW := 0x0020, encPh := .lo }) =
      some ([(0, 0x10), (1, 0x80)], 2, .take, 1) := by decide

/-- P1: ENC_HI pushes 0x80 of 0x8064. -/
theorem test_encHi :
    look (fun t => (t.buf, t.wr, t.encPh)) (exec .encHi { loaded with encW := 0x8064, encPh := .hi }) =
      some ([(0, 0x64), (1, 0x80)], 2, .take) := by decide

/-- V-RING-1: 0xB0 into slot 7, the cursor wraps. -/
theorem test_push_wraps :
    look (fun t => (t.buf, t.wr, t.ringCount)) (exec (.push 0xB0) { base with rd := 3, wr := 7 }) =
      some ([(7, 0xB0)], 0, 5) := by decide

/-- V-RING-1: 0xA7 is dropped. -/
theorem test_push_full :
    look (fun t => (t.buf, t.wr, t.ringCount, t.notes.ringFull)) (exec (.push 0xA7) { base with wr := 7 }) =
      some ([], 7, 7, 1) := by decide

/-- V-RING-1: POP returns 0xA0. -/
theorem test_pop :
    look (fun t => (t.popResult, t.rd, t.ringCount)) (exec .pop { base with buf := [(0, 0xA0)], wr := 7 }) =
      some (some 0xA0, 1, 6) := by decide

theorem test_pop_empty : why (exec .pop base) = some .popEmpty := by decide

/-- V-TX-1, tick 1. -/
theorem test_txIdle_begins :
    look (fun t => (t.st, t.tsr, t.txPin, t.rd)) (exec .txIdle loaded) = some (.startbit, 0x64, false, 1) := by decide

/-- V-TX-1, tick 2. -/
theorem test_txStart :
    look (fun t => (t.st, t.tsr, t.txPin)) (exec .txStart { base with st := .startbit, tsr := 0x64 }) =
      some (.databit 0, 0x32, false) := by decide

/-- V-TX-1, tick 4: a 1 is driven as MARK. -/
theorem test_txData1 :
    look (fun t => (t.st, t.tsr, t.txPin)) (exec .txData1 { base with st := .databit 1, tsr := 0x19, txPin := false }) =
      some (.databit 2, 0x0C, true) := by decide

/-- V-TX-1, tick 4 with `MARK_LEVEL` = 0. -/
theorem test_txData1_low_mark :
    look (fun t => t.txPin) (exec .txData1
      { base with cfg := { Config.standard with markLevel := false }, st := .databit 1, tsr := 0x19 }) =
      some false := by decide

/-- V-TX-1, tick 9: the last data bit of 0x64 is 0. -/
theorem test_txData6 :
    look (fun t => (t.st, t.tsr, t.txPin)) (exec .txData6 { base with st := .databit 6 }) =
      some (.databit 7, 0x00, false) := by decide

/-- V-TX-1, tick 10. -/
theorem test_txData7 :
    look (fun t => (t.st, t.txPin)) (exec .txData7 { base with st := .databit 7, txPin := false }) =
      some (.stopbit 0, true) := by decide

/-- V-TX-1, tick 11. -/
theorem test_txStop0 : look (fun t => t.st) (exec .txStop0 { base with st := .stopbit 0 }) = some (.stopbit 1) := by decide

/-- V-TX-1, tick 12. -/
theorem test_txStop1 : look (fun t => t.st) (exec .txStop1 { base with st := .stopbit 1 }) = some .txend := by decide

/-- V-TX-2: from `txend` directly to the start bit. -/
theorem test_txEnd_begins :
    look (fun t => (t.st, t.tsr, t.txPin)) (exec .txEnd { loaded with st := .txend }) =
      some (.startbit, 0x64, false) := by decide

/-- V-TX-1, tick 13. -/
theorem test_txEnd_rests : look (fun t => t.st) (exec .txEnd { base with st := .txend }) = some .idle := by decide

/-- P4: PUSHW 0x8010 puts 0x10 and then 0x80 into the ring. -/
theorem test_word :
    look (fun t => (t.buf, t.wr)) (exec (.word true 0x10) base) = some ([(0, 0x10), (1, 0x80)], 2) := by decide

/-- V-TX-1: the quanta of 0x64, `S SSMSSMMS MMM`. -/
theorem test_frame :
    look (fun t => (t.observed.reverse, t.st)) (exec (.frame 0x64) loaded) =
      some ([false, false, false, true, false, false, true, true, false, true, true, true], .txend) := by decide

theorem test_reset :
    look (fun t => (t.cnt, t.st, t.rd, t.wr, t.txPin, t.irLevel)) (exec .reset { loaded with cnt := 5, st := .startbit }) =
      some (0, .idle, 0, 0, true, true) := by decide

theorem test_oobPrefix : why (exec .oobPrefix base) = some .reservedPrefix := by decide

/-- V-SPLIT, second table: `cnt` = 0xFFFF, the TICK between CAP2 and CAP3 tears the duration. -/
theorem test_split_torn :
    look (fun t => ((capSteps 4 t).sample.duration, (capSteps 4 t).cnt, (capSteps 4 t).ovf))
      (exec .tick { splitBase with cnt := 0xFFFF, capPh := .cap3, pce := false }) = some (0, 0, false) := by decide

/-- V-SPLIT, first table: the TICK between CAP3 and CAP4 is in neither interval. -/
theorem test_split_lost_tick :
    look (fun t => ((capSteps 3 t).sample.duration, (capSteps 3 t).cnt))
      (exec .tick { splitBase with cnt := 9, sample := ⟨false, 9, false⟩, capPh := .cap4, pce := false }) =
      some (9, 0) := by decide

/-- V-TX-1 read back by the rule R66. -/
theorem test_receive :
    receive Config.standard .scan
      [true, false, false, false, true, false, false, true, true, false, true, true, true, true] = [0x64] := by decide

/-! ### Witnesses: states that meet the hypotheses of the obligations

Each is named after its obligation; the clauses with hypotheses of their own have a witness each. -/

/-- What makes a state with a resting transmitter and no deferred capture sound, as one computable check. -/
def restingSound (s : State) : Bool :=
  decide (s.rd < s.cfg.ringCap) && decide (s.wr < s.cfg.ringCap) && s.st.legal s.cfg && s.buf.wf &&
    s.buf.below s.cfg.ringCap &&
    (List.range s.ringCount).all (fun k => (s.buf.read ((s.rd + k) % s.cfg.ringCap)).isSome) &&
    (s.txPin == s.cfg.markLevel) && (s.tsr == 0#8) && (s.st != .startbit) && (s.encW.extractLsb' 0 15 != 0#15) &&
    (if s.cfg.captureAtomic then s.pce && s.capPh == .none && !s.edgePending
     else (s.pce == decide (s.capPh = .none)) &&
      (!s.edgePending || (s.capPh != .none && s.cfg.maskedEdge == .deferred))) &&
    !s.capDeferred && (s.cnt == 0#16 || (s.capPh != .cap5 && s.capPh != .cap6)) && (!s.ovf || s.capPh != .cap6)

theorem inv_of_restingSound {s : State} (h : restingSound s = true) : Inv s := by
  simp only [restingSound, Bool.and_eq_true, decide_eq_true_eq, List.all_eq_true, List.mem_range, beq_iff_eq,
    bne_iff_ne, Bool.or_eq_true, Bool.not_eq_true', ne_eq] at h
  obtain ⟨⟨⟨⟨⟨⟨⟨⟨⟨⟨⟨⟨⟨hrd, hwr⟩, hst⟩, hwf⟩, hbelow⟩, hbuf⟩, hpin⟩, htsr⟩, hstart⟩, hword⟩, hform⟩, hdef⟩, hcnt⟩, hovf⟩ := h
  exact {
    rd_lt := hrd
    wr_lt := hwr
    st_legal := hst
    buf_wf := hwf
    buf_below := hbelow
    buffered_written := hbuf
    mark_at_rest := fun _ => hpin
    space_at_start := fun e => absurd e hstart
    tsr_left := fun i _ => htsr ▸ Nat.two_pow_pos _
    tsr_done := fun _ => htsr
    word_duration := fun _ => hword
    atomic_form := fun e => by simpa [e, and_assoc] using hform
    split_form := fun e => by
      simp only [e, Bool.false_eq_true, if_false, Bool.and_eq_true, beq_iff_eq] at hform
      exact hform.1
    pending_masked := fun e => by cases hc : s.cfg.captureAtomic <;> simp_all
    deferred_running := fun e => by simp [hdef] at e
    counted_since_zeroed := fun e => .inl (hcnt.resolve_right fun h => e.elim h.1 h.2)
    cleared_flag := fun e => hovf.resolve_right (absurd e) }

theorem base_sound : Inv base := inv_of_restingSound (by decide)
theorem splitBase_sound : Inv splitBase := inv_of_restingSound (by decide)
theorem loaded_sound : Inv loaded := inv_of_restingSound (by decide)

theorem witness_StepPerformsScheduledOperation : ∃ s d i es,
    (s : State).sched = .op d :: es ∧ decode d = .ok i ∧ exec i { s with sched := es } = exec .tick base :=
  ⟨{ base with sched := [.op ⟨.op, 0x100⟩] }, ⟨.op, 0x100⟩, .tick, [], rfl, by decide, rfl⟩

theorem witness_PlacedTableWordRunsNext : decodeTableWord 11 0x100 = some .tick ∧ decodeTableWord 4 0xC = some .txEnd ∧
    decodeTableWord 16 0xFFFF = some (.word true 0x7FFF) := by decide

theorem witness_TurnsPerformTheirAgentsOperation :
    ({ base with sched := [.turn .timer] } : State).sched = [.turn .timer] ∧ base.sched = [] ∧
    base.timerWaits = false ∧ ({ splitBase with capPh := .cap3, capTicked := true } : State).timerWaits = true ∧
    ({ splitBase with capPh := .cap1, capDeferred := true, cnt := 1 } : State).timerWaits = true ∧
    base.pce = true ∧ ({ base with pce := false } : State).cfg.captureAtomic = true ∧ ({ base with pce := false } : State).pce = false ∧
    ({ splitBase with capPh := .cap1 } : State).captureRunning = true ∧ base.captureRunning = false ∧
    base.encPh = .take ∧ ({ base with encPh := .lo } : State).encPh = .lo ∧
    ({ base with encPh := .hi } : State).encPh = .hi := by decide

theorem witness_UndecodableDescriptorRefused :
    ({ base with sched := [.op ⟨.txstate, 13⟩] } : State).sched = [.op ⟨.txstate, 13⟩] ∧
    decode ⟨.txstate, 13⟩ = .error .illegalUartState := by decide

theorem witness_DecodeEncodeRoundTrip : WellFormed (.word false 1#15) ∧ WellFormed (.push 0xFF) ∧ WellFormed .oobPrefix := by
  decide

theorem witness_EncodeDecodeRoundTrip : decode ⟨.frame, 0x7FF⟩ = .ok (.frame 0xFF) := by decide

theorem witness_ReservedEncodingsRejected :
    ((7 : BitVec 3) ≠ 2 ∧ (7 : BitVec 3) ≠ 6 ∧ (1 : Byte) ≠ 0#8) ∧ 2 ≤ (2 : Byte).toNat ∧ 13 ≤ (13 : BitVec 4).toNat := by
  decide

theorem witness_NothingSurvivesReset : ∃ s u : State, s ≠ u ∧ s.cfg = u.cfg ∧ s.sched = u.sched ∧ s.turn = u.turn ∧
    s.epoch = u.epoch ∧ s.notes = u.notes ∧ s.observed = u.observed ∧ s.popResult = u.popResult :=
  ⟨base, loaded, by decide, rfl, rfl, rfl, rfl, rfl, rfl, rfl⟩

theorem witness_StepKeepsSoundness : ∃ s t : State, Inv s ∧ step s = .next t ∧ t.wr = 1 :=
  ⟨{ base with sched := [.op ⟨.op, 0x664⟩] }, _, inv_of_restingSound (by decide), rfl, rfl⟩

theorem witness_SoundStepNeverFaults : Inv base := base_sound

theorem witness_UnscheduledStepAlwaysCompletes : Inv base ∧ base.sched = [] := ⟨base_sound, rfl⟩

theorem witness_ParametersNeverChange : ∃ s t : State, step s = .next t ∧ t.rd = 1 :=
  ⟨{ loaded with sched := [.turn .timer] }, _, rfl, rfl⟩

theorem witness_TickCountsAndSteps :
    (Inv { base with cnt := 0xFFFF } ∧ ({ base with cnt := 0xFFFF } : State).tickBarred = false) ∧
    (Inv { splitBase with pce := false, capPh := .cap2 } ∧
      ({ splitBase with pce := false, capPh := .cap2 } : State).tickBarred = false) :=
  ⟨⟨inv_of_restingSound (by decide), by decide⟩, inv_of_restingSound (by decide), by decide⟩

/-- An idle block with an empty ring and no capture running takes any number of TICKs. -/
theorem ticks_of_idle (n : Nat) : ∀ s : State, s.captureRunning = false → s.st = .idle → s.rd = s.wr →
    ∃ t, ticks n s = .next t ∧ t.cfg = s.cfg ∧ t.pce = s.pce ∧ t.irLevel = s.irLevel ∧ t.capPh = s.capPh := by
  induction n with
  | zero => exact fun s _ _ _ => ⟨s, rfl, rfl, rfl, rfl, rfl⟩
  | succ n ih =>
    intro s hc hs hr
    obtain ⟨t, ht, h⟩ := ih (recordTick { cntInc s with txPin := s.cfg.markLevel, st := .idle }) hc rfl hr
    refine ⟨t, ?_, h⟩
    rw [ticks_succ, execTick_eq_next.2 ⟨tickBarred_of_not_running hc, _, .toIdle (.inl hs) (by simp [State.ringEmpty, hr]) rfl, rfl⟩]
    exact ht

/-- The premises of the last clause, in the atomic form. -/
theorem witness_OverflowFlagIsSticky_atomic : base.cfg.captureAtomic = true ∧ ∃ t u t' u',
    ticks 65536 base = .next t ∧ ticks 65537 base = .next u ∧ exec (.edge false) t = .next t' ∧
      exec (.edge false) u = .next u' := by
  obtain ⟨t, ht, hc, hp, hl, -⟩ := ticks_of_idle 65536 base rfl rfl rfl
  obtain ⟨u, hu, hc', hp', hl', -⟩ := ticks_of_idle 65537 base rfl rfl rfl
  exact ⟨rfl, t, u, capture false t, capture false u, ht, hu,
    execEdge_eq_next.2 (.inl ⟨hc ▸ rfl, edgeAtomic_eq_next.2 ⟨hl ▸ by decide, hp ▸ rfl, rfl⟩⟩),
    execEdge_eq_next.2 (.inl ⟨hc' ▸ rfl, edgeAtomic_eq_next.2 ⟨hl' ▸ by decide, hp' ▸ rfl, rfl⟩⟩)⟩

/-- The premises of the last clause, in the split form. -/
theorem witness_OverflowFlagIsSticky_split :
    splitBase.cfg.captureAtomic = false ∧ splitBase.pce = true ∧ splitBase.capPh = .none ∧ ∃ t u t' u',
      ticks 65536 splitBase = .next t ∧ ticks 65537 splitBase = .next u ∧ exec (.edge false) t = .next t' ∧
        exec (.edge false) u = .next u' := by
  obtain ⟨t, ht, hc, hp, hl, hq⟩ := ticks_of_idle 65536 splitBase rfl rfl rfl
  obtain ⟨u, hu, hc', hp', hl', hq'⟩ := ticks_of_idle 65537 splitBase rfl rfl rfl
  exact ⟨rfl, rfl, rfl, t, u, _, _, ht, hu,
    execEdge_eq_next.2 (.inr ⟨hc ▸ rfl, pinChange_eq_next.2 ⟨hl ▸ by decide, .inl ⟨hp ▸ rfl, hq ▸ rfl, rfl⟩⟩⟩),
    execEdge_eq_next.2 (.inr ⟨hc' ▸ rfl, pinChange_eq_next.2 ⟨hl' ▸ by decide, .inl ⟨hp' ▸ rfl, hq' ▸ rfl, rfl⟩⟩⟩)⟩

theorem witness_OverflowFlagIsSticky :
    (∃ t, ticks 2 { base with ovf := true } = .next t ∧ t.cnt = 2) ∧
    (∃ t, exec (.edge false) { base with ovf := true } = .next t ∧ t.ovf = false) ∧
    (capStep { splitBase with ovf := true, capPh := .cap5 }).ovf = false :=
  ⟨⟨_, rfl, rfl⟩, ⟨_, rfl, rfl⟩, rfl⟩

theorem witness_CounterOverflowSetsSentinel :
    (∃ t, exec .tick { base with cnt := 0xFFFF } = .next t ∧ t.ovf = true) ∧
    (∃ t, exec (.push 1) { base with ovf := true } = .next t ∧ t.wr = 1) ∧
    (∃ t, exec (.edge false) { base with ovf := true } = .next t ∧ t.irLevel = false) ∧
    splitBase.cfg.captureAtomic = false ∧ splitBase.pce = true ∧ splitBase.capPh = .none ∧
    ∃ t, exec (.edge false) { splitBase with ovf := true } = .next t ∧ t.capPh = .cap1 :=
  ⟨⟨_, rfl, rfl⟩, ⟨_, rfl, rfl⟩, ⟨_, rfl, rfl⟩, rfl, rfl, rfl, _, rfl, rfl⟩

theorem witness_DurationIsNumberOfTicks :
    (∀ i ∈ [Instr.tick, .push 1, .tick, .encTake], i ≠ .reset ∧ ∀ l, i ≠ .edge l) ∧
    (∃ t u, base.cnt = 0#16 ∧ base.ovf = false ∧
      runTrace ([Instr.tick, .push 1, .tick, .encTake].map .op) base = .next t ∧ t.cfg.captureAtomic = true ∧
      exec (.edge false) t = .next u ∧ u.sample.duration = 2) ∧
    ∃ t u, splitBase.cnt = 0#16 ∧ splitBase.ovf = false ∧
      runTrace ([Instr.tick, .push 1, .tick, .encTake].map .op) splitBase = .next t ∧
      t.cfg.captureAtomic = false ∧ t.pce = true ∧ t.capPh = .none ∧
      exec (.edge false) t = .next u ∧ (capSteps 6 u).sample.duration = 2 :=
  ⟨by simp, ⟨_, _, rfl, rfl, rfl, rfl, rfl, rfl⟩, _, _, rfl, rfl, rfl, rfl, rfl, rfl, rfl, rfl⟩

theorem witness_TickPerformsTheSelectedRow :
    base.tickBarred = false ∧ (.txIdle, .idle) ∈ selectedRows base.cfg ∧ base.st = .idle ∧
    (.txStop1, .stopbit 1) ∈ selectedRows base.cfg ∧ 0 < base.cfg.stopN ∧ base.cfg.stopN < 2 := by decide

theorem witness_EdgeCapturesTheInterval :
    base.cfg.captureAtomic = true ∧ base.pce = true ∧ false = !base.irLevel := by decide

theorem witness_EdgeStopsWhereNotEnabled :
    ({ base with pce := false } : State).cfg.captureAtomic = true ∧ ({ base with pce := false } : State).pce = false := by
  decide

theorem witness_CapturedLevelsAlternate : ∃ t u v, exec (.edge false) base = .next t ∧
    (∀ i ∈ [Instr.tick], i ≠ .reset ∧ ∀ k, i ≠ .edge k) ∧ runTrace ([Instr.tick].map .op) t = .next u ∧
    exec (.edge true) u = .next v ∧ v.sample.duration = 1 :=
  ⟨_, _, _, rfl, by simp, rfl, rfl, rfl⟩

theorem witness_SplitPinEntersOrMasks :
    splitBase.cfg.captureAtomic = false ∧ (splitBase.pce = true ∧ splitBase.capPh = .none) ∧
    splitBase.cfg.maskedEdge = .lost ∧ ({ splitBase with pce := false } : State).pce = false ∧
    ({ splitBase with cfg := { splitBase.cfg with maskedEdge := .deferred } } : State).cfg.maskedEdge = .deferred := by
  decide

theorem witness_SplitCaptureWithoutTickIsTheCapture : ∃ t, splitBase.cfg.captureAtomic = false ∧ splitBase.pce = true ∧
    splitBase.capPh = .none ∧ splitBase.edgePending = false ∧ exec (.edge false) splitBase = .next t ∧ t.capPh = .cap1 :=
  ⟨_, rfl, rfl, rfl, rfl, rfl, rfl⟩

theorem witness_TickInsideSplitCapture :
    splitBase.cfg.captureAtomic = false ∧
    look (fun t => t.ovf) (exec .tick { splitBase with capPh := .cap1, cnt := 0xFFFF }) = some true ∧
    look (fun t => t.capTicked) (exec .tick { splitBase with capPh := .cap2 }) = some true ∧
    look (fun t => t.ovf) (exec .tick { splitBase with capPh := .cap3, cnt := 0xFFFF }) = some true ∧
    look (fun t => t.capPh) (exec .tick { splitBase with capPh := .cap4, edgePending := true }) = some .cap4 ∧
    look (fun t => t.cnt) (exec .tick { splitBase with capPh := .cap5 }) = some 1 ∧
    look (fun t => t.cnt) (exec .tick { splitBase with capPh := .cap6 }) = some 1 := by decide

/-- R91: TICK is enabled before CAP1 of a deferred capture, whatever the counter holds. -/
theorem test_tick_enabled_in_deferred_capture :
    look (fun t => t.cnt) (exec .tick { splitBase with pce := false, capPh := .cap1, capDeferred := true, cnt := 1 }) =
      some 2 := by decide

/-- The end of a split capture, a transition remembered. -/
def deferredBase : State :=
  { splitBase with
    cfg := { Config.standard with captureAtomic := false, maskedEdge := .deferred }
    pce := false, capPh := .cap6, edgePending := true }

theorem witness_TickInsideSplitCapture_deferred :
    Inv deferredBase ∧ deferredBase.cfg.captureAtomic = false ∧ deferredBase.capPh = .cap6 ∧
    deferredBase.edgePending = true ∧
    (let ts : List Turn := [.capture, .timer, .timer, .capture, .timer, .capture, .capture]
     .reset ∉ ts ∧ ts.count .capture = 4 ∧ look (fun u => u.sample.duration) (runTurns ts deferredBase) = some 1) ∧
    (let ts : List Turn := [.capture, .capture, .capture, .capture]
     .reset ∉ ts ∧ ts.count .capture = 4 ∧ look (fun u => u.sample.duration) (runTurns ts deferredBase) = some 0) :=
  ⟨inv_of_restingSound (by decide), rfl, rfl, rfl, by decide, by decide⟩

theorem witness_EncTakeDrainsTheMailbox :
    base.encPh = .take ∧ base.captureRunning = false ∧ base.pce = true ∧ base.sample.duration = 0#16 ∧
    ({ base with sample := ⟨true, 0x8000, false⟩ } : State).sample.duration ≠ 0#16 := by decide

theorem witness_DurationClampsAtMaximum :
    (∃ t, exec .encTake { base with sample := ⟨true, 0x8000, false⟩ } = .next t ∧ t.encW = 0x7FFF) ∧
    (∃ t, exec .encTake { base with sample := ⟨true, 0x7FFF, false⟩ } = .next t ∧ t.encW = 0x7FFF) :=
  ⟨⟨_, rfl, by decide⟩, ⟨_, rfl, by decide⟩⟩

theorem witness_EncoderPushesBytesOnTheirOwn :
    Inv { base with encPh := .lo } ∧ Inv { base with encPh := .hi } ∧ base.captureRunning = false ∧
    base.cfg.pushPolicy = .byte :=
  ⟨inv_of_restingSound (by decide), inv_of_restingSound (by decide), rfl, rfl⟩

/-- A state at `lo` under the policy `word` with `n` bytes in a ring of four slots. -/
def wordState (n : Nat) : State :=
  { base with
    cfg := { Config.standard with ringExp := 1, pushPolicy := .word }
    encPh := .lo
    buf := (List.range n).map fun i => (i, 0x10)
    wr := n }

theorem witness_WordPolicyNeverTears :
    (Inv (wordState 2) ∧ (wordState 2).ringFree < 2) ∧ (Inv (wordState 1) ∧ 2 ≤ (wordState 1).ringFree) ∧
    (wordState 1).captureRunning = false ∧ (wordState 1).encPh = .lo ∧ (wordState 1).cfg.pushPolicy = .word ∧
    (let s := { wordState 1 with cfg := { (wordState 1).cfg with captureAtomic := false } }
     let ts : List Turn := [.pin, .capture, .capture, .timer, .capture, .capture, .capture, .capture]
     Inv s ∧ s.captureRunning = false ∧ (∀ x ∈ ts, x = .timer ∨ x = .pin ∨ x = .capture) ∧
     ∃ t u, exec .encLo s = .next t ∧ runTurns ts t = .next u ∧ u.captureRunning = false ∧ u.sample.level = false) :=
  ⟨⟨inv_of_restingSound (by decide), by decide⟩, ⟨inv_of_restingSound (by decide), by decide⟩, rfl, rfl, rfl,
    inv_of_restingSound (by decide), rfl, by decide, _, _, rfl, rfl, rfl, rfl⟩

theorem witness_EncoderStopsWhereNotEnabled :
    ({ splitBase with capPh := .cap1 } : State).captureRunning = true ∧
    ({ splitBase with capPh := .cap1 } : State).ringFull = false ∧ base.captureRunning = false ∧
    base.encPh ≠ .lo ∧ base.encPh ≠ .hi ∧ ({ base with encPh := .lo } : State).encPh ≠ .take := by decide

theorem witness_PushStoresOrDrops :
    base.captureRunning = false ∧ splitBase.captureRunning = false ∧
    (base.rd < base.cfg.ringCap ∧ base.wr < base.cfg.ringCap) ∧ (base.wr + 1) % base.cfg.ringCap ≠ base.rd ∧
    (({ base with wr := 7 } : State).wr + 1) % base.cfg.ringCap = base.rd := by decide

theorem witness_PopTakesTheOldestByte : loaded.captureRunning = false ∧
    (loaded.rd < loaded.cfg.ringCap ∧ loaded.wr < loaded.cfg.ringCap) ∧ base.rd = base.wr ∧ loaded.rd ≠ loaded.wr := by
  decide

theorem witness_FullPushChangesNoRegister :
    ({ base with wr := 7 } : State).ringFull = true ∧
    ({ splitBase with wr := 7, pce := false, capPh := .cap4 } : State).ringFull = true ∧
    ({ splitBase with wr := 7, pce := false, capPh := .cap4 } : State).captureRunning = true := by decide

theorem witness_RingIsABoundedQueue : Inv loaded ∧
    (∃ t, exec (.push 1) loaded = .next t ∧ t.wr = 2) ∧ (∃ t, exec .pop loaded = .next t ∧ t.rd = 1) ∧
    (∃ t, exec .tick loaded = .next t ∧ t.st = .startbit) ∧ (∃ t, exec .tick base = .next t ∧ t.st = .idle) ∧
    (∃ t, exec (.edge false) loaded = .next t ∧ t.irLevel = false) ∧
    ∃ t, exec .encTake loaded = .next t ∧ t.encPh = .take :=
  ⟨loaded_sound, ⟨_, rfl, rfl⟩, ⟨_, rfl, rfl⟩, ⟨_, rfl, rfl⟩, ⟨_, rfl, rfl⟩, ⟨_, rfl, rfl⟩, ⟨_, rfl, rfl⟩⟩

theorem witness_PushesFillUpToCapacity : Inv base ∧ base.contents = [] ∧
    ∃ t, runTrace ([0x01, 0x02].map fun b => .op (.push b)) base = .next t ∧ t.wr = 2 :=
  ⟨base_sound, rfl, _, rfl, rfl⟩

theorem witness_CursorsOnlyAdvanceByOne :
    (∃ t, exec (.push 1) base = .next t ∧ t.wr = 1) ∧ (∃ t, exec (.word true 1) base = .next t ∧ t.wr = 2) ∧
    ∃ t, exec (.frame 0x64) loaded = .next t ∧ t.rd = 1 :=
  ⟨⟨_, rfl, rfl⟩, ⟨_, rfl, rfl⟩, _, rfl, rfl⟩

theorem witness_OnlyPushesWriteTheirSlots :
    (∃ t, exec (.push 1) base = .next t ∧ t.wr = 1) ∧
    (∃ t, exec .encHi { base with encPh := .hi } = .next t ∧ t.wr = 1) ∧
    (∃ t, exec (.word true 1) base = .next t ∧ t.wr = 2) ∧ (∃ t, exec .tick base = .next t ∧ t.cnt = 1) ∧
    ∃ t, exec .encTake base = .next t ∧ t.encPh = .take :=
  ⟨⟨_, rfl, rfl⟩, ⟨_, rfl, rfl⟩, ⟨_, rfl, rfl⟩, ⟨_, rfl, rfl⟩, _, rfl, rfl⟩

theorem witness_TxIdleRestsOrBegins : (base.st = .idle ∧ base.rd < base.cfg.ringCap ∧ base.rd = base.wr) ∧
    loaded.st = .idle ∧ loaded.rd < loaded.cfg.ringCap ∧ loaded.rd ≠ loaded.wr := by decide

theorem witness_TxDataRowsDriveBits : (.txData6, .databit 6, .databit 7) ∈ dataRows ∧
    ({ base with st := .databit 6, tsr := 1 } : State).st = .databit 6 := by decide

theorem witness_TxLastDataBitEntersStop : ({ base with st := .databit 7 } : State).st = .databit 7 := by decide

theorem witness_TxStopRowsHoldThePin :
    (({ base with st := .stopbit 0 } : State).st = .stopbit 0 ∧ 0 < base.cfg.stopN) ∧
    ({ base with st := .stopbit 1 } : State).st = .stopbit base.cfg.stopN := by decide

theorem witness_TxEndGoesOnOrRests : ({ base with st := .txend } : State).st = .txend ∧ base.rd < base.cfg.ringCap ∧
    base.rd = base.wr ∧ loaded.rd ≠ loaded.wr := by decide

theorem witness_TxRowStopsWhereNotSelected : (.txEnd, .txend) ∈ selectedRows base.cfg ∧ base.st ≠ .txend ∧
    ∀ k, ({ base with st := .stopbit 1 } : State).st = .stopbit k → base.cfg.stopN ≤ k :=
  ⟨by decide, by decide, fun k h => by cases h; decide⟩

theorem witness_PinIsWrittenOnlyByTheTransmitter :
    (∃ t, exec (.push 1) base = .next t ∧ t.wr = 1) ∧ (∃ t, exec .pop loaded = .next t ∧ t.rd = 1) ∧
    look (fun t => t.st) (exec .tick base) = some .idle ∧ look (fun t => t.st) (exec .tick loaded) = some .startbit ∧
    look (fun t => t.st) (exec .tick { base with st := .startbit }) = some (.databit 0) ∧
    look (fun t => t.st) (exec .tick { base with st := .databit 7 }) = some (.stopbit 0) ∧
    look (fun t => t.st) (exec .tick { base with st := .stopbit 0 }) = some (.stopbit 1) ∧
    look (fun t => t.st) (exec .tick { base with st := .stopbit 1 }) = some .txend :=
  ⟨⟨_, rfl, rfl⟩, ⟨_, rfl, rfl⟩, by decide, by decide, by decide, by decide, by decide, by decide⟩

theorem witness_IdleLineStaysAtMark : Inv base ∧ base.captureRunning = false ∧ base.st = .idle ∧ base.rd = base.wr :=
  ⟨base_sound, rfl, rfl, rfl⟩

theorem witness_FrameCarriesItsByte :
    (Inv loaded ∧ loaded.st = .idle) ∧ Inv { loaded with st := .txend } ∧ loaded.captureRunning = false ∧
    loaded.rd ≠ loaded.wr ∧ loaded.buf.read loaded.rd = some 0x64 :=
  ⟨⟨loaded_sound, rfl⟩, inv_of_restingSound (by decide), rfl, by decide, by decide⟩

theorem witness_FrameStopsWhereNotNext :
    (({ loaded with st := .startbit } : State).st ≠ .idle ∧ ({ loaded with st := .startbit } : State).st ≠ .txend) ∧
    base.rd = base.wr ∧ loaded.buf.read loaded.rd ≠ some 0x65 := by decide

theorem witness_DrainSendsTheRingsBytes :
    (Inv loaded ∧ loaded.captureRunning = false ∧ loaded.st = .idle) ∧ Inv { loaded with st := .txend } :=
  ⟨⟨loaded_sound, rfl, rfl⟩, inv_of_restingSound (by decide)⟩

theorem witness_WordEntersTheRingLowByteFirst :
    Inv base ∧ base.captureRunning = false ∧ (1#15 : BitVec 15) ≠ 0#15 ∧ 2 ≤ base.ringFree ∧
    2 ≤ ({ base with wr := 5 } : State).ringFree :=
  ⟨base_sound, rfl, by decide, by decide, by decide⟩

theorem witness_ZeroWordIsNeverSent :
    look (fun t => t.encPh) (exec .encTake { base with sample := ⟨false, 1, false⟩ }) = some .lo ∧
    Inv { base with encPh := .lo } ∧ Inv { base with encPh := .hi } :=
  ⟨by decide, inv_of_restingSound (by decide), inv_of_restingSound (by decide)⟩

/-- R129: PUSH on a full ring is enabled in every state, and drops its byte. -/
theorem test_push_full_during_capture :
    look (fun t => (t.buf, t.wr)) (exec (.push 1) { splitBase with wr := 7, pce := false, capPh := .cap4 }) =
      some ([], 7) := by decide

/-- R96: while a capture runs, a direct PUSH into a ring with room is not enabled. -/
theorem test_push_during_capture :
    why (exec (.push 1) { splitBase with pce := false, capPh := .cap4 }) = some .captureRunning := by decide

/-- R96: while a capture runs, a direct POP is not enabled. -/
theorem test_pop_during_capture :
    why (exec .pop { loaded with cfg := splitBase.cfg, pce := false, capPh := .cap1 }) = some .captureRunning := by decide

theorem witness_CapturedIntervalReachesTheWire :
    Inv { base with sample := ⟨false, 100, false⟩ } ∧ base.captureRunning = false ∧ base.st = .idle ∧ base.rd = base.wr ∧
    4 ≤ base.cfg.ringCap ∧ base.encPh = .take ∧ (100 : Word) ≠ 0#16 :=
  ⟨inv_of_restingSound (by decide), rfl, rfl, rfl, by decide, rfl, by decide⟩

theorem witness_SampleIsEncodedAtMostOnce :
    (Inv base ∧ base.captureRunning = false ∧ base.encPh = .take ∧ base.sample.duration = 0#16) ∧
    (Inv { base with sample := ⟨false, 100, false⟩ } ∧ (100 : Word) ≠ 0#16 ∧ 2 ≤ base.ringFree) ∧
    Inv { wordState 2 with encPh := .take, sample := ⟨true, 32, false⟩ } ∧ (wordState 2).captureRunning = false ∧
    (wordState 2).cfg.pushPolicy = .word ∧ (wordState 2).ringFree < 2 :=
  ⟨⟨base_sound, rfl, rfl, rfl⟩, ⟨inv_of_restingSound (by decide), by decide, by decide⟩,
    inv_of_restingSound (by decide), rfl, rfl, by decide⟩

/-- V-POLICY under `word`: ENCODE completes and the ring still holds 0x10 and 0x80. -/
theorem test_encode_word_policy :
    look (fun t => (t.buf, t.wr, t.encPh, t.sample.duration, t.notes.ringFull))
      (encodeOnce { base with
        cfg := { Config.standard with ringExp := 1, pushPolicy := .word }
        buf := [(0, 0x10), (1, 0x80)], wr := 2, sample := ⟨true, 32, false⟩ }) =
      some ([(0, 0x10), (1, 0x80)], 2, .take, 0, 1) := by decide

/-- V-POLICY under `byte`: the ring holds 0x10, 0x80, 0x20 and the high byte was dropped. -/
theorem test_encode_byte_policy :
    look (fun t => (t.buf, t.wr, t.encPh, t.sample.duration, t.notes.ringFull))
      (encodeOnce { base with
        cfg := { Config.standard with ringExp := 1 }
        buf := [(0, 0x10), (1, 0x80)], wr := 2, sample := ⟨true, 32, false⟩ }) =
      some ([(0, 0x10), (1, 0x80), (2, 0x20)], 3, .take, 0, 1) := by decide

theorem witness_AgentsOwnTheirState :
    (∃ t, exec (.push 1) base = .next t ∧ performer (.push 1) = .mainLoop) ∧
    (∃ t, exec .tick base = .next t ∧ performer .tick = .timer) ∧
    ∃ t, exec (.edge false) base = .next t ∧ performer (.edge false) = .pin :=
  ⟨⟨_, rfl, rfl⟩, ⟨_, rfl, rfl⟩, _, rfl, rfl⟩

theorem witness_FairTurnsMakeProgress :
    (Inv { loaded with sched := (List.replicate 12 Turn.timer).map .turn } ∧ loaded.cfg.captureAtomic = true ∧
      Turn.reset ∉ List.replicate 12 Turn.timer ∧ loaded.rd ≠ loaded.wr ∧
      loaded.cfg.frameTicks ≤ (List.replicate 12 Turn.timer).count .timer) ∧
    Inv { base with sample := ⟨false, 100, false⟩, sched := [.turn .pin, .turn .mainLoop] } ∧ base.encPh = .take ∧
    Turn.reset ∉ [Turn.pin, Turn.mainLoop] ∧ Turn.mainLoop ∈ [Turn.pin, Turn.mainLoop] ∧ (100 : Word) ≠ 0#16 :=
  ⟨⟨inv_of_restingSound (by decide), rfl, by decide, by decide, by decide⟩, inv_of_restingSound (by decide), rfl,
    by decide, by decide, by decide⟩

end Sys2Proof.Tests
end

/-! PROOFS. Noninterference: what an operation does not read. First the rules for any erasure of a part of the state, one
per shared operation of the model; then the records (00_scope.md R8, 60_exceptions.md R170, R189). -/

namespace Sys2Proof.Machine

/-! ### Operations that ignore what an erasure erases -/

/-- The outcome `r` with `e` applied to the next state. -/
def hide (e : State → State) (r : Result) : Result := andThen r fun t => .next (e t)

/-- The operation `f` reads nothing of what `e` erases: erased before, the outcome is the same but for what `e` erases. -/
def Ignores (e : State → State) (f : State → Result) : Prop := ∀ s, hide e (f (e s)) = hide e (f s)

section
variable {e : State → State} {f g : State → Result}

/-- Before an operation that ignores it, the erased part may be erased once more. -/
theorem hide_andThen_hide {k : State → Result} (hk : Ignores e k) (r : Result) :
    hide e (andThen (hide e r) k) = hide e (andThen r k) := by
  cases r with
  | next t => exact hk t
  | fault _ => rfl
  | refused _ => rfl

theorem Ignores.next {u : State → State} (h : ∀ s, e (u (e s)) = e (u s)) : Ignores e fun s => .next (u s) :=
  fun s => congrArg Host.Outcome.next (h s)

theorem Ignores.refused (q : Refusal) : Ignores e fun _ => .refused q := fun _ => rfl

theorem Ignores.ite {c : State → Prop} [DecidablePred c] (hc : ∀ s, c (e s) ↔ c s) (hf : Ignores e f) (hg : Ignores e g) :
    Ignores e fun s => if c s then f s else g s := by
  intro s
  simp only [hc]
  split
  · exact hf s
  · exact hg s

/-- Chaining; the second operation may also depend on the state the chain began in. -/
theorem Ignores.andThen {k : State → State → Result} (hf : Ignores e f) (hk : ∀ s, Ignores e (k s))
    (hks : ∀ s, k (e s) = k s) : Ignores e fun s => andThen (f s) (k s) := by
  intro s
  calc hide e (Machine.andThen (f (e s)) (k (e s)))
      = hide e (Machine.andThen (hide e (f (e s))) (k s)) := by rw [hks, hide_andThen_hide (hk s)]
    _ = hide e (Machine.andThen (hide e (f s)) (k s)) := by rw [hf s]
    _ = hide e (Machine.andThen (f s) (k s)) := hide_andThen_hide (hk s) _

theorem Ignores.whenSelected {sel : State → Bool} (hsel : ∀ s, sel (e s) = sel s) (hf : Ignores e f) :
    Ignores e fun s => whenSelected (sel s) s f :=
  .ite (fun s => by rw [hsel]) hf (.refused _)

theorem Ignores.outsideCapture (hc : ∀ s, (e s).captureRunning = s.captureRunning) (hf : Ignores e f) :
    Ignores e fun s => outsideCapture s f :=
  .ite (fun s => by rw [hc]) (.refused _) hf

theorem Ignores.atPhase (hc : ∀ s, (e s).captureRunning = s.captureRunning) (he : ∀ s, (e s).encPh = s.encPh)
    (p : EncPhase) (hf : Ignores e f) : Ignores e fun s => atPhase p s f :=
  .outsideCapture hc (.ite (fun s => by rw [he]) hf (.refused _))

theorem Ignores.popByte {k : Byte → State → Result} (he : ∀ s, (e s).ringEmpty = s.ringEmpty)
    (hm : ∀ s, memRead (e s).rd (e s) = memRead s.rd s)
    (hk : ∀ b, Ignores e fun s => k b { s with rd := s.nextCursor s.rd }) : Ignores e fun s => popByte s k := by
  refine .ite (fun s => by rw [he]) (.refused _) fun s => ?_
  rw [hm]
  cases memRead s.rd s with
  | error _ => rfl
  | ok b => exact hk b s

end

/-! ### The records -/

/-- The counts of conditions, the recorded line and the popped byte, erased. -/
def eraseRecords (s : State) : State := { s with notes := ⟨0, 0, 0, 0, 0⟩, observed := [], popResult := none }

theorem forgetRecords_eq_hide (r : Result) : forgetRecords r = hide eraseRecords r := by
  cases r <;> rfl

/-- The operation `f` reads no record. -/
abbrev IgnoresRecords (f : State → Result) : Prop := Ignores eraseRecords f

/-- An operation that reads no record does the same whatever the records hold. -/
theorem IgnoresRecords.forgetRecords_eq {f : State → Result} (hf : IgnoresRecords f) (s : State) (n : Notes)
    (ls : List Level) (b : Option Byte) :
    forgetRecords (f { s with notes := n, observed := ls, popResult := b }) = forgetRecords (f s) := by
  simp only [forgetRecords_eq_hide]
  exact (hf _).symm.trans (hf s)

theorem ignoresRecords_pushByte (b : Byte) : IgnoresRecords (pushByte b) :=
  have hw : IgnoresRecords fun s => memWrite s.wr b s := .ite (fun _ => Iff.rfl) (.next fun _ => rfl) fun _ => rfl
  .ite (fun _ => Iff.rfl) (.next fun _ => rfl) (.andThen hw (fun _ => .next fun _ => rfl) fun _ => rfl)

theorem ignoresRecords_popByte {k : Byte → State → Result}
    (hk : ∀ b, IgnoresRecords fun s => k b { s with rd := s.nextCursor s.rd }) : IgnoresRecords fun s => popByte s k :=
  .popByte (fun _ => rfl) (fun _ => rfl) hk

/-! The transmitter and TICK -/

theorem ignoresRecords_beginOrIdle : IgnoresRecords beginOrIdle :=
  .ite (fun _ => Iff.rfl) (.next fun _ => rfl) (ignoresRecords_popByte fun _ => .next fun _ => rfl)

theorem ignoresRecords_driveBit (n : UartState) : IgnoresRecords (driveBit n) := .next fun _ => rfl

theorem ignoresRecords_dataRow (n m : UartState) : IgnoresRecords fun s => whenSelected (s.st == n) s (driveBit m) :=
  .whenSelected (fun _ => rfl) (ignoresRecords_driveBit m)

theorem ignoresRecords_execTxIdle : IgnoresRecords execTxIdle := .whenSelected (fun _ => rfl) ignoresRecords_beginOrIdle

theorem ignoresRecords_execTxData7 : IgnoresRecords execTxData7 := .whenSelected (fun _ => rfl) (.next fun _ => rfl)

theorem ignoresRecords_execTxStop0 : IgnoresRecords execTxStop0 := by
  intro s
  have hstop : earlierStop (eraseRecords s) = earlierStop s := rfl
  unfold execTxStop0
  rw [hstop]
  cases earlierStop s <;> rfl

theorem ignoresRecords_execTxStop1 : IgnoresRecords execTxStop1 := .whenSelected (fun _ => rfl) (.next fun _ => rfl)

theorem ignoresRecords_execTxEnd : IgnoresRecords execTxEnd := .whenSelected (fun _ => rfl) ignoresRecords_beginOrIdle

theorem ignoresRecords_txStep : IgnoresRecords txStep := by
  intro s
  have hst : (eraseRecords s).st = s.st := rfl
  unfold txStep
  rw [hst]
  split
  case h_1 => exact ignoresRecords_execTxIdle s
  case h_10 => exact ignoresRecords_execTxData7 s
  case h_11 k _ =>
    exact Ignores.ite (e := eraseRecords) (c := fun s => k < s.cfg.stopN) (fun _ => Iff.rfl) ignoresRecords_execTxStop0
      (.ite (c := fun s => k = s.cfg.stopN) (fun _ => Iff.rfl) ignoresRecords_execTxStop1 (.refused _)) s
  case h_12 => exact ignoresRecords_execTxEnd s
  all_goals exact ignoresRecords_dataRow _ _ s

theorem ignoresRecords_execTick : IgnoresRecords execTick :=
  have hstep : IgnoresRecords fun s => txStep (cntInc s) := fun s =>
    (ignoresRecords_txStep (cntInc (eraseRecords s))).symm.trans (ignoresRecords_txStep (cntInc s))
  .ite (fun _ => Iff.rfl) (.refused _) (.andThen hstep (fun _ => .next fun _ => rfl) fun _ => rfl)

theorem ignoresRecords_ticks (n : Nat) : IgnoresRecords (ticks n) := by
  induction n with
  | zero => exact .next fun _ => rfl
  | succ n ih => exact .andThen ignoresRecords_execTick (fun _ => ih) fun _ => rfl

/-! The capture -/

theorem ignoresRecords_execEdge (l : Level) : IgnoresRecords (execEdge l) :=
  have hatomic : IgnoresRecords (edgeAtomic l) :=
    .ite (fun _ => Iff.rfl) (.refused _) (.ite (fun _ => Iff.rfl) (.next fun _ => rfl) (.refused _))
  have hpin : IgnoresRecords (pinChange l) :=
    .ite (fun _ => Iff.rfl) (.refused _) (.ite (fun _ => Iff.rfl) (.next fun _ => rfl) fun s => by
      have hcfg : (eraseRecords s).cfg = s.cfg := rfl
      rw [hcfg]
      cases s.cfg.maskedEdge <;> rfl)
  .ite (fun _ => Iff.rfl) hatomic hpin

/-- A CAP micro-step reads no record: its notes are written and no more (R96). -/
theorem eraseRecords_capStep (s : State) : eraseRecords (capStep (eraseRecords s)) = eraseRecords (capStep s) := by
  have hph : (eraseRecords s).capPh = s.capPh := rfl
  have hpend : (eraseRecords s).edgePending = s.edgePending := rfl
  unfold capStep
  rw [hph, hpend]
  cases s.capPh with
  | cap6 => cases s.edgePending <;> rfl
  | none | cap1 | cap2 | cap3 | cap4 | cap5 => rfl

/-! The encoder and the formats -/

theorem ignoresRecords_atPhase (p : EncPhase) {f : State → Result} (hf : IgnoresRecords f) :
    IgnoresRecords fun s => atPhase p s f :=
  .atPhase (e := eraseRecords) (fun _ => rfl) (fun _ => rfl) p hf

theorem eraseRecords_takeSample (s : State) :
    eraseRecords (takeSample (eraseRecords s)) = eraseRecords (takeSample s) := by
  have hready : (eraseRecords s).sampleReady = s.sampleReady := rfl
  rw [takeSample_eq, takeSample_eq, hready]
  split <;> rfl

theorem ignoresRecords_pushLow : IgnoresRecords pushLow :=
  have hpush : IgnoresRecords fun s => pushByte (loByte s.encW) s := fun s => ignoresRecords_pushByte (loByte s.encW) s
  .andThen hpush (fun _ => .next fun _ => rfl) fun _ => rfl

theorem ignoresRecords_execEncLo : IgnoresRecords execEncLo := by
  have hdrop : IgnoresRecords fun s => .next { s.noteIf true .ringFull with encPh := .take } := .next fun _ => rfl
  refine ignoresRecords_atPhase .lo fun s => ?_
  have hcfg : (eraseRecords s).cfg = s.cfg := rfl
  rw [hcfg]
  cases s.cfg.pushPolicy with
  | byte => exact ignoresRecords_pushLow s
  | word =>
    exact Ignores.ite (e := eraseRecords) (c := fun s => s.ringFree < 2) (fun _ => Iff.rfl) hdrop ignoresRecords_pushLow s

theorem ignoresRecords_execEncHi : IgnoresRecords execEncHi :=
  have hpush : IgnoresRecords fun s => pushByte (hiByte s.encW) s := fun s => ignoresRecords_pushByte (hiByte s.encW) s
  ignoresRecords_atPhase .hi (.andThen hpush (fun _ => .next fun _ => rfl) fun _ => rfl)

theorem ignoresRecords_execPush (b : Byte) : IgnoresRecords (execPush b) :=
  .ite (fun _ => Iff.rfl) (ignoresRecords_pushByte b) (.outsideCapture (fun _ => rfl) (ignoresRecords_pushByte b))

/-- POP writes the byte it returns and does not read the one before it. -/
theorem ignoresRecords_execPop : IgnoresRecords execPop :=
  .outsideCapture (fun _ => rfl) (ignoresRecords_popByte fun _ => .next fun _ => rfl)

theorem ignoresRecords_execWord (l : Level) (d : BitVec 15) : IgnoresRecords (execWord l d) :=
  have hword : IgnoresRecords (pushWord (pulseWord l d)) :=
    .andThen (ignoresRecords_pushByte _) (fun _ => ignoresRecords_pushByte _) fun _ => rfl
  .ite (fun _ => Iff.rfl) (.refused _) (.outsideCapture (fun _ => rfl) hword)

theorem ignoresRecords_execFrame (b : Byte) : IgnoresRecords (execFrame b) :=
  have hticks : IgnoresRecords fun s => ticks s.cfg.frameTicks s := fun s => ignoresRecords_ticks s.cfg.frameTicks s
  .ite (fun _ => Iff.rfl) hticks (.refused _)

/-- No operation reads a record. -/
theorem ignoresRecords_exec (i : Instr) : IgnoresRecords (exec i) := by
  cases i with
  | reset => exact .next fun _ => rfl
  | tick => exact ignoresRecords_execTick
  | edge l => exact ignoresRecords_execEdge l
  | encTake => exact ignoresRecords_atPhase .take (.next eraseRecords_takeSample)
  | encLo => exact ignoresRecords_execEncLo
  | encHi => exact ignoresRecords_execEncHi
  | push b => exact ignoresRecords_execPush b
  | pop => exact ignoresRecords_execPop
  | txIdle => exact ignoresRecords_execTxIdle
  | txStart | txData0 | txData1 | txData2 | txData3 | txData4 | txData5 | txData6 => exact ignoresRecords_dataRow _ _
  | txData7 => exact ignoresRecords_execTxData7
  | txStop0 => exact ignoresRecords_execTxStop0
  | txStop1 => exact ignoresRecords_execTxStop1
  | txEnd => exact ignoresRecords_execTxEnd
  | word l d => exact ignoresRecords_execWord l d
  | frame b => exact ignoresRecords_execFrame b
  | oobPrefix => exact .refused _

/-- Settles O58: every operation ignores the records, rule by rule, and so does every CAP micro-step. -/
theorem recordsAreReadByNothing : Obligations.RecordsAreReadByNothing := by
  intro i s n ls b
  have hcap : IgnoresRecords fun s => .next (capStep s) := .next eraseRecords_capStep
  exact ⟨(ignoresRecords_exec i).forgetRecords_eq s n ls b, hcap.forgetRecords_eq s n ls b⟩

end Sys2Proof.Machine

/-! PROOFS. What a step can be, once: the row of TX_STEP that is performed on its own, and the turn, operation or CAP
micro-step that a step performs (60_exceptions.md R186, R187). -/

namespace Sys2Proof.Machine

/-- `st` selects this row of TX_STEP: the row's own state, or for TX_STOP0 a stop state before the last (R140, R145). -/
def rowSelected (i : Instr) (s : State) : Bool :=
  (selectedRows s.cfg).contains (i, s.st) || (i == .txStop0 && (earlierStop s).isSome)

/-- A row of TX_STEP on its own is TX_STEP where `st` selects it, and refused elsewhere (R77, R140). -/
theorem exec_txRow {i : Instr} (hi : (encode i).fmt = .txstate) (s : State) :
    exec i s = whenSelected (rowSelected i s) s txStep := by
  cases i with
  | txStop0 =>
    cases hst : s.st with
    | stopbit k =>
      by_cases hk : k < s.cfg.stopN <;>
        simp [exec, execTxStop0, rowSelected, selectedRows, earlierStop, whenSelected, txStep, hst, hk]
    | idle | startbit | databit _ | txend =>
      simp [exec, execTxStop0, rowSelected, selectedRows, earlierStop, whenSelected, hst]
  | txIdle | txStart | txData0 | txData1 | txData2 | txData3 | txData4 | txData5 | txData6 | txData7 | txStop1 | txEnd =>
    -- both sides turn on whether `st` is the row's own state
    cases hsel : rowSelected _ s
    all_goals
      simp [rowSelected, selectedRows] at hsel
      simp [exec, execTxIdle, execTxStart, execTxData0, execTxData1, execTxData2, execTxData3, execTxData4, execTxData5,
        execTxData6, execTxData7, execTxStop1, execTxEnd, whenSelected, txStep, hsel]
  | reset | tick | edge _ | encTake | encLo | encHi | push _ | pop | word _ _ | frame _ | oobPrefix => cases hi

/-- The outcomes a step can have in `u`, the state in which its event has left the schedule: a turn passes, the running
capture goes on, an operation is performed, or the scheduled descriptor stands for nothing. -/
inductive StepIn (u : State) : Result → Prop
  | pass : StepIn u (.next u)
  | cap (hr : u.captureRunning = true) : StepIn u (.next (capStep u))
  | op (i : Instr) : StepIn u (exec i u)
  | undecodable (r : DecodeReject) : StepIn u (.refused (.undecodable r))

theorem stepIn_runTurn (x : Turn) (u : State) : StepIn u (runTurn x u) := by
  cases x with
  | timer =>
    simp only [runTurn]
    split
    · exact .pass
    · exact .op .tick
  | pin =>
    simp only [runTurn]
    split
    · exact .pass
    · exact .op (.edge _)
  | capture =>
    simp only [runTurn]
    split
    · exact .cap ‹_›
    · exact .pass
  | mainLoop =>
    simp only [runTurn]
    split
    · exact .pass
    · exact .op (mainLoopInstr u.encPh)
  | reset => exact .op .reset

theorem stepIn_runEvent (e : Event) (u : State) : StepIn u (runEvent e u) := by
  cases e with
  | turn x => exact stepIn_runTurn x u
  | op d =>
    simp only [runEvent]
    cases decode d with
    | ok i => exact .op i
    | error r => exact .undecodable r

/-- A step takes its event off the schedule, or counts a free turn, and acts in the state that is left (R50, R187). -/
theorem stepIn_step (s : State) : ∃ es n, StepIn { s with sched := es, turn := n } (step s) := by
  unfold step runNext
  cases s.sched with
  | nil => exact ⟨_, _, stepIn_runTurn _ _⟩
  | cons e es => exact ⟨_, _, stepIn_runEvent e _⟩

end Sys2Proof.Machine

/-! PROOFS. Soundness (10_state.md R32, 20_memory.md R44, 70_reset_and_hazards.md R223): the states after RESET are sound,
and every operation from a sound state leads to a sound state and accesses no slot that does not exist. -/

namespace Sys2Proof.Machine

open Memory (wf_write below_write read_write_same read_write_isSome)

/-! ### Outcomes without a fault -/

/-- No fault, and a next state that meets `Q`. -/
def Safe (Q : State → Prop) : Result → Prop
  | .next t => Q t
  | .fault _ => False
  | .refused _ => True

section
variable {P Q : State → Prop} {r : Result} {s : State} {k : State → Result}

theorem Safe.of_next (h : Safe Q r) {t : State} (ht : r = .next t) : Q t := by
  subst ht
  exact h

theorem Safe.ne_fault (h : Safe Q r) (f : Fault) : r ≠ .fault f := by
  rintro rfl
  exact h

/-- An operation that completes is safe when every state it can lead to is. -/
theorem safe_of_completes (hc : ∃ t, r = .next t) (h : ∀ t, r = .next t → Q t) : Safe Q r := by
  obtain ⟨t, rfl⟩ := hc
  exact h t rfl

theorem Safe.mono (h : Safe P r) (hPQ : ∀ t, P t → Q t) : Safe Q r := by
  cases r with
  | next t => exact hPQ t h
  | fault _ => exact h
  | refused _ => trivial

theorem Safe.andThen (h : Safe P r) (hk : ∀ t, P t → Safe Q (k t)) : Safe Q (andThen r k) := by
  cases r with
  | next t => exact hk t h
  | fault _ => exact h
  | refused _ => trivial

theorem Safe.outsideCapture (hk : s.captureRunning = false → Safe Q (k s)) : Safe Q (outsideCapture s k) := by
  unfold Machine.outsideCapture
  split
  · trivial
  · exact hk (Bool.eq_false_iff.2 ‹_›)

theorem Safe.atPhase {p : EncPhase} (hk : s.captureRunning = false → s.encPh = p → Safe Q (k s)) :
    Safe Q (atPhase p s k) := by
  refine .outsideCapture fun hr => ?_
  split
  · exact hk hr ‹_›
  · trivial

theorem Safe.whenSelected {b : Bool} (hk : Safe Q (k s)) : Safe Q (whenSelected b s k) := by
  cases b with
  | true => exact hk
  | false => trivial

end

/-! ### After RESET -/

/-- The registers that make a state sound stand at their reset values (R33, R200). -/
structure AtReset (s : State) : Prop where
  rd : s.rd = 0
  wr : s.wr = 0
  buf : s.buf = []
  st : s.st = .idle
  txPin : s.txPin = s.cfg.markLevel
  encPh : s.encPh = .take
  pce : s.pce = true
  capPh : s.capPh = .none
  edgePending : s.edgePending = false
  capDeferred : s.capDeferred = false

theorem AtReset.inv {s : State} (h : AtReset s) : Inv s where
  rd_lt := h.rd ▸ ringCap_pos _
  wr_lt := h.wr ▸ ringCap_pos _
  st_legal := by rw [h.st]; rfl
  buf_wf := by rw [h.buf]; rfl
  buf_below := by rw [h.buf]; rfl
  buffered_written := by simp [State.ringCount, h.rd, h.wr]
  mark_at_rest := fun _ => h.txPin
  space_at_start := by simp [h.st]
  tsr_left := by simp [h.st]
  tsr_done := by simp [h.st]
  word_duration := absurd h.encPh
  atomic_form := fun _ => ⟨h.pce, h.capPh, h.edgePending⟩
  split_form := fun _ => by simp [h.pce, h.capPh]
  pending_masked := by simp [h.edgePending]
  deferred_running := by simp [h.capDeferred]
  counted_since_zeroed := by simp [h.capPh]
  cleared_flag := by simp [h.capPh]

theorem atReset_initial (c : Config) : AtReset (State.initial c) := ⟨rfl, rfl, rfl, rfl, rfl, rfl, rfl, rfl, rfl, rfl⟩

/-- RESET completes and puts the registers at their reset values, whatever the state was (R200). -/
theorem safe_execReset (s : State) : Safe AtReset (execReset s) := ⟨rfl, rfl, rfl, rfl, rfl, rfl, rfl, rfl, rfl, rfl⟩

/-! ### What keeps a state sound -/

section
variable {s : State}

/-- The schedule and the count of free turns are no part of soundness. -/
theorem Inv.rescheduled (h : Inv s) (es : List Event) (n : Nat) : Inv { s with sched := es, turn := n } := { h with }

theorem captureRunning_iff : s.captureRunning = true ↔ s.cfg.captureAtomic = false ∧ s.capPh ≠ .none := by
  simp [State.captureRunning]

/-! The ring -/

/-- One more byte is buffered after `wr` advanced, modulo the capacity. -/
theorem ringCount_stored (m : Memory) :
    State.ringCount { s with buf := m, wr := s.nextCursor s.wr } = (s.ringCount + 1) % s.cfg.ringCap := by
  simp only [State.ringCount, State.nextCursor, Nat.mod_add_mod]
  congr 1
  omega

/-- PUSH's store: the buffered slots and the one written are the new buffered slots (R126). -/
theorem Inv.stored (h : Inv s) (b : Byte) : Inv { s with buf := s.buf.write s.wr b, wr := s.nextCursor s.wr } :=
  { h with
    wr_lt := nextCursor_lt s s.wr
    buf_wf := wf_write h.buf_wf _ _
    buf_below := below_write h.buf_below h.wr_lt b
    buffered_written := fun k hk => by
      have hle : k ≤ s.ringCount := by
        rw [ringCount_stored] at hk
        exact Nat.le_of_lt_succ (hk.trans_le (Nat.mod_le _ _))
      rcases Nat.lt_or_eq_of_le hle with hlt | rfl
      · exact read_write_isSome _ _ _ _ (h.buffered_written k hlt)
      · simp only [slot_ringCount h.rd_lt h.wr_lt, read_write_same, Option.isSome_some] }

/-- One byte less is buffered after `rd` advanced. -/
theorem ringCount_popped (h : Inv s) (he : s.ringEmpty = false) :
    State.ringCount { s with rd := s.nextCursor s.rd } + 1 = s.ringCount := by
  have hrd := h.rd_lt
  have hwr := h.wr_lt
  have hne : s.rd ≠ s.wr := by simpa [State.ringEmpty] using he
  rw [ringCount_eq hrd hwr, ringCount_eq (s := { s with rd := s.nextCursor s.rd }) (nextCursor_lt s s.rd) hwr]
  simp only [nextCursor_eq hrd]
  split <;> split <;> split <;> omega

/-- POP's advance: the buffered slots are those from the second one on (R127). -/
theorem Inv.popped (h : Inv s) (he : s.ringEmpty = false) : Inv { s with rd := s.nextCursor s.rd } :=
  { h with
    rd_lt := nextCursor_lt s s.rd
    buffered_written := fun k hk => by
      have hk' : k + 1 < s.ringCount := by
        have := ringCount_popped h he
        omega
      simpa only [nextCursor_add] using h.buffered_written (k + 1) hk' }

/-! The transmitter -/

theorem Inv.toIdle (h : Inv s) : Inv { s with txPin := s.cfg.markLevel, st := .idle } :=
  { h with
    st_legal := rfl
    mark_at_rest := fun _ => rfl
    space_at_start := by simp
    tsr_left := by simp
    tsr_done := by simp }

theorem Inv.frameBegun (h : Inv s) (he : s.ringEmpty = false) : Inv (frameBegun s) :=
  { h.popped he with
    st_legal := rfl
    mark_at_rest := by simp [Machine.frameBegun]
    space_at_start := fun _ => rfl
    tsr_left := by simp [Machine.frameBegun]
    tsr_done := by simp [Machine.frameBegun] }

/-- A data drive shifts one bit out of `tsr` (R142, R143). -/
theorem Inv.bitDriven (h : Inv s) {j : Fin 8} (ht : s.tsr.toNat < 2 ^ (8 - j.val)) : Inv (bitDriven (.databit j) s) :=
  { h with
    st_legal := rfl
    mark_at_rest := by simp [Machine.bitDriven]
    space_at_start := by simp [Machine.bitDriven]
    tsr_left := by
      rintro i ⟨⟩
      have hj := j.isLt
      rw [show 8 - j.val = 7 - j.val + 1 by omega, Nat.pow_succ] at ht
      simp only [Machine.bitDriven, BitVec.toNat_ushiftRight, Nat.shiftRight_one]
      omega
    tsr_done := by simp [Machine.bitDriven] }

/-- The stop states and `txend`: the pin is at MARK and `tsr` is 0 (R144, R145, R146). -/
theorem Inv.stopping (h : Inv s) {n : UartState} (hn : n = .txend ∨ ∃ k ≤ s.cfg.stopN, n = .stopbit k) {p : Level}
    (hp : p = s.cfg.markLevel) (hz : s.tsr = 0#8) : Inv { s with txPin := p, st := n } :=
  { h with
    st_legal := by
      obtain rfl | ⟨k, hk, rfl⟩ := hn
      · rfl
      · simpa [UartState.legal] using hk
    mark_at_rest := fun _ => hp
    space_at_start := by obtain rfl | ⟨k, -, rfl⟩ := hn <;> simp
    tsr_left := by obtain rfl | ⟨k, -, rfl⟩ := hn <;> simp
    tsr_done := fun _ => hz }

/-- TX_STEP keeps soundness along every edge of the state machine (R155). -/
theorem Inv.txEdge (h : Inv s) {t : State} (e : TxEdge s t) : Inv t := by
  cases e with
  | toIdle _ _ ht => exact ht ▸ h.toIdle
  | begin _ he _ ht => exact ht ▸ h.frameBegun he
  | start _ ht => exact ht ▸ h.bitDriven s.tsr.isLt
  | data i j hij hst ht =>
    refine ht ▸ h.bitDriven ?_
    have := h.tsr_left i hst
    rwa [show 8 - j.val = 7 - i.val by omega]
  | lastData hst ht =>
    have hz : s.tsr = 0#8 := BitVec.eq_of_toNat_eq (by simpa using h.tsr_left 7 hst)
    exact ht ▸ h.stopping (.inr ⟨0, Nat.zero_le _, rfl⟩) rfl hz
  | stop k hk hst ht =>
    have hp := h.mark_at_rest (.inr (.inr ⟨k, hst⟩))
    exact ht ▸ h.stopping (.inr ⟨k + 1, hk, rfl⟩) hp (h.tsr_done (.inr ⟨k, hst⟩))
  | lastStop hst ht =>
    have hp := h.mark_at_rest (.inr (.inr ⟨_, hst⟩))
    exact ht ▸ h.stopping (.inl rfl) hp (h.tsr_done (.inr ⟨_, hst⟩))

theorem Inv.safe_txStep (h : Inv s) : Safe Inv (txStep s) :=
  safe_of_completes (txStep_completes h.st_legal h.rd_lt) fun _ ht => h.txEdge (txStep_eq_next.1 ht)

/-! TICK -/

/-- At CAP5 and CAP6 the window of a split capture is open, so a TICK that is not barred is the first one in it (R96). -/
theorem Inv.no_tick_in_window (h : Inv s) (hb : s.tickBarred = false) (hph : s.capPh = .cap5 ∨ s.capPh = .cap6) :
    s.captureWindow = true ∧ s.capTicked = false := by
  have ha : s.cfg.captureAtomic = false := by
    by_contra ha
    obtain ⟨-, hnone, -⟩ := h.atomic_form (by simpa using ha)
    simp [hnone] at hph
  have hw : s.captureWindow = true := by
    rcases hph with hph | hph <;> simp [State.captureWindow, State.captureRunning, ha, hph]
  exact ⟨hw, by simpa [State.tickBarred, hw] using hb⟩

/-- CNT_INC and the record of the TICK keep soundness together: the one TICK that CAP5 or CAP6 may find counted is
recorded (R92, R96). -/
theorem Inv.counted (h : Inv s) (hb : s.tickBarred = false) : Inv (recordTick (cntInc s)) := by
  have hz (hph : s.capPh = .cap5 ∨ s.capPh = .cap6) : s.cnt = 0#16 :=
    (h.counted_since_zeroed hph).resolve_right fun hc => by simp [(h.no_tick_in_window hb hph).2] at hc
  exact { h with
    counted_since_zeroed := fun hph => by
      have hw : (cntInc s).captureWindow = true := (h.no_tick_in_window hb hph).1
      exact .inr ⟨by simp [hz hph], by simp [hw]⟩
    cleared_flag := fun hph => by
      simp [State.ovfAfterTick, State.cntWraps, h.cleared_flag hph, hz (.inr hph), Config.sentinel] }

/-- TX_STEP does not read the counter: an edge taken after CNT_INC can be taken before it (R91). -/
theorem TxEdge.before_cntInc {u : State} (e : TxEdge (cntInc s) u) : ∃ v, TxEdge s v ∧ u = cntInc v := by
  cases e with
  | toIdle hst he ht => exact ⟨_, .toIdle hst he rfl, ht⟩
  | begin hst he hr ht => exact ⟨_, .begin hst he hr rfl, ht⟩
  | start hst ht => exact ⟨_, .start hst rfl, ht⟩
  | data i j hij hst ht => exact ⟨_, .data i j hij hst rfl, ht⟩
  | lastData hst ht => exact ⟨_, .lastData hst rfl, ht⟩
  | stop k hk hst ht => exact ⟨_, .stop k hk hst rfl, ht⟩
  | lastStop hst ht => exact ⟨_, .lastStop hst rfl, ht⟩

theorem TxEdge.tickBarred_eq {t : State} (e : TxEdge s t) : t.tickBarred = s.tickBarred := by
  rw [txStep_frame (txStep_eq_next.2 e)]
  rfl

theorem Inv.safe_execTick (h : Inv s) : Safe Inv (execTick s) := by
  cases hb : s.tickBarred with
  | true => simp [execTick, hb, Safe]
  | false =>
    refine safe_of_completes (execTick_completes hb h.st_legal h.rd_lt) fun t ht => ?_
    obtain ⟨-, u, hu, rfl⟩ := execTick_eq_next.1 ht
    obtain ⟨v, hv, rfl⟩ := hu.before_cntInc
    exact (h.txEdge hv).counted (hv.tickBarred_eq.trans hb)

theorem Inv.safe_ticks (h : Inv s) (n : Nat) : Safe Inv (ticks n s) := by
  induction n generalizing s with
  | zero => exact h
  | succ n ih => exact h.safe_execTick.andThen fun _ ht => ih ht

/-! The capture -/

theorem Inv.capture (h : Inv s) (ha : s.cfg.captureAtomic = true) (l : Level) : Inv (capture l s) := by
  obtain ⟨-, hnone, hpend⟩ := h.atomic_form ha
  exact { h with
    atomic_form := fun _ => ⟨rfl, hnone, hpend⟩
    split_form := fun _ => by simp [Machine.capture, hnone]
    counted_since_zeroed := fun _ => .inl rfl
    cleared_flag := fun _ => rfl }

/-- PIN enters the handler, remembers the transition while a capture runs, or loses it (R96). -/
theorem Inv.safe_pinChange (h : Inv s) (ha : s.cfg.captureAtomic = false) (l : Level) : Safe Inv (pinChange l s) := by
  unfold pinChange
  split
  · trivial
  · dsimp only
    split
    next hp =>
      obtain ⟨-, hnone⟩ := hp
      exact { h with
        atomic_form := by simp [ha]
        split_form := fun _ => rfl
        pending_masked := fun e => absurd hnone (h.pending_masked e).1
        deferred_running := fun e => absurd hnone (h.deferred_running e).1
        counted_since_zeroed := by simp
        cleared_flag := by simp }
    next hp =>
      have hrun : s.capPh ≠ .none := fun hnone => hp ⟨by rw [h.split_form ha, hnone]; rfl, hnone⟩
      cases hm : s.cfg.maskedEdge with
      | deferred => exact { h with
          atomic_form := by simp [ha]
          pending_masked := fun _ => ⟨hrun, hm⟩ }
      | lost => exact { h with }

theorem Inv.safe_execEdge (h : Inv s) (l : Level) : Safe Inv (execEdge l s) := by
  unfold execEdge
  split
  next ha =>
    unfold edgeAtomic
    split
    · trivial
    · split
      · exact h.capture ha l
      · trivial
  next ha => exact h.safe_pinChange (Bool.eq_false_iff.2 ha) l

/-- The running capture comes to stand at another of its steps: pin-change events stay disabled (R96). -/
theorem Inv.advanced (h : Inv s) (hr : s.captureRunning = true) (p : CapPhase) (c : Word) (o k : Bool) (hp : p ≠ .none)
    (hc : p = .cap5 ∨ p = .cap6 → c = 0#16 ∨ (c = 1#16 ∧ k = true)) (ho : p = .cap6 → o = false) :
    Inv { s with capPh := p, cnt := c, ovf := o, capTicked := k } := by
  obtain ⟨ha, hrun⟩ := captureRunning_iff.1 hr
  exact { h with
    atomic_form := by simp [ha]
    split_form := fun _ => by simpa [hrun, hp] using h.split_form ha
    pending_masked := fun e => ⟨hp, (h.pending_masked e).2⟩
    deferred_running := fun e => ⟨hp, (h.deferred_running e).2⟩
    counted_since_zeroed := hc
    cleared_flag := ho }

theorem Inv.capStep (h : Inv s) (hr : s.captureRunning = true) : Inv (capStep s) := by
  obtain ⟨ha, -⟩ := captureRunning_iff.1 hr
  unfold Machine.capStep
  cases hph : s.capPh with
  | none => exact h
  | cap1 => exact { h.advanced hr .cap2 s.cnt s.ovf false (by simp) (by simp) (by simp) with }
  | cap2 => exact { h.advanced hr .cap3 s.cnt s.ovf s.capTicked (by simp) (by simp) (by simp) with }
  | cap3 => exact { h.advanced hr .cap4 s.cnt s.ovf s.capTicked (by simp) (by simp) (by simp) with }
  | cap4 => exact h.advanced hr .cap5 0#16 s.ovf s.capTicked (by simp) (by simp) (by simp)
  | cap5 =>
    exact h.advanced hr .cap6 s.cnt false s.capTicked (by simp) (fun _ => h.counted_since_zeroed (.inl hph)) fun _ => rfl
  | cap6 =>
    dsimp only
    split
    next hpend => exact { h with
      atomic_form := by simp [ha]
      split_form := fun _ => rfl
      pending_masked := by simp
      deferred_running := fun _ => ⟨by simp, (h.pending_masked hpend).2⟩
      counted_since_zeroed := by simp
      cleared_flag := by simp }
    next hpend => exact { h with
      atomic_form := by simp [ha]
      split_form := fun _ => rfl
      pending_masked := fun e => absurd e hpend
      deferred_running := by simp
      counted_since_zeroed := by simp
      cleared_flag := by simp }

/-! The encoder, PUSH, POP and the formats -/

theorem Inv.safe_pushByte (h : Inv s) (b : Byte) : Safe (fun t => Inv t ∧ t.encW = s.encW) (pushByte b s) := by
  refine safe_of_completes (pushByte_completes b h.wr_lt) fun t ht => ?_
  rcases pushByte_eq_next.1 ht with ⟨-, rfl⟩ | ⟨-, -, rfl⟩
  · exact ⟨{ h with }, rfl⟩
  · exact ⟨h.stored b, rfl⟩

theorem Inv.safe_execPush (h : Inv s) (b : Byte) : Safe Inv (execPush b s) := by
  have hpush : Safe Inv (pushByte b s) := (h.safe_pushByte b).mono fun _ ht => ht.1
  unfold execPush
  split
  · exact hpush
  · exact .outsideCapture fun _ => hpush

theorem Inv.safe_execPop (h : Inv s) : Safe Inv (execPop s) := by
  refine .outsideCapture fun _ => ?_
  cases he : s.ringEmpty with
  | true => simp [popByte, he, Safe]
  | false =>
    rw [popByte_eq_next.2 ⟨he, h.rd_lt, rfl⟩]
    exact { h.popped he with }

/-- Outside a split capture pin-change events may be enabled (R180). -/
theorem Inv.unmasked (h : Inv s) (hr : s.captureRunning = false) : Inv { s with pce := true } :=
  { h with
    atomic_form := fun ha => ⟨rfl, (h.atomic_form ha).2⟩
    split_form := fun ha => by
      have hnone : s.capPh = .none := by_contra fun hn => by simp [captureRunning_iff (s := s).2 ⟨ha, hn⟩] at hr
      simp [hnone] }

/-- A sample that is taken has a duration, so the word has `D` in 1..0x7FFF (R111, R223 (g)). -/
theorem Inv.safe_execEncTake (h : Inv s) : Safe Inv (execEncTake s) := by
  refine .atPhase fun hr _ => ?_
  rw [takeSample_eq]
  split
  next hready =>
    have hd : s.sample.duration ≠ 0#16 := by simpa [State.sampleReady] using hready
    exact { h.unmasked hr with word_duration := fun _ => encodeWord_duration_ne_zero _ hd }
  next => exact h.unmasked hr

/-- The low byte is pushed and the word stays for the high byte (R113). -/
theorem Inv.safe_pushLow (h : Inv s) (hph : s.encPh = .lo) : Safe Inv (pushLow s) := by
  refine (h.safe_pushByte _).andThen fun t ht => ?_
  obtain ⟨hinv, hw⟩ := ht
  exact { hinv with word_duration := fun _ => by simpa [hw] using h.word_duration (by simp [hph]) }

/-- The encoder is back at ENC_TAKE, where no word is held (R114, R115). -/
theorem Inv.atTake (h : Inv s) : Inv { s with encPh := .take } := { h with word_duration := by simp }

theorem Inv.safe_execEncLo (h : Inv s) : Safe Inv (execEncLo s) := by
  refine .atPhase fun _ hph => ?_
  cases s.cfg.pushPolicy with
  | byte => exact h.safe_pushLow hph
  | word =>
    dsimp only
    split
    · exact { h.atTake with }
    · exact h.safe_pushLow hph

theorem Inv.safe_execEncHi (h : Inv s) : Safe Inv (execEncHi s) :=
  .atPhase fun _ _ => (h.safe_pushByte _).andThen fun _ ht => ht.1.atTake

theorem Inv.safe_execWord (h : Inv s) (l : Level) (d : BitVec 15) : Safe Inv (execWord l d s) := by
  unfold execWord
  split
  · trivial
  · refine .outsideCapture fun _ => (h.safe_pushByte _).andThen fun t ht => ?_
    exact (ht.1.safe_pushByte _).mono fun _ hu => hu.1

theorem Inv.safe_execFrame (h : Inv s) (b : Byte) : Safe Inv (execFrame b s) := by
  unfold execFrame
  split
  · exact h.safe_ticks _
  · trivial

/-! ### Every operation and every step -/

theorem Inv.safe_exec (h : Inv s) (i : Instr) : Safe Inv (exec i s) := by
  cases i with
  | reset => exact (safe_execReset s).mono fun _ ht => ht.inv
  | tick => exact h.safe_execTick
  | edge l => exact h.safe_execEdge l
  | encTake => exact h.safe_execEncTake
  | encLo => exact h.safe_execEncLo
  | encHi => exact h.safe_execEncHi
  | push b => exact h.safe_execPush b
  | pop => exact h.safe_execPop
  | txIdle | txStart | txData0 | txData1 | txData2 | txData3 | txData4 | txData5 | txData6 | txData7 | txStop0 | txStop1
  | txEnd =>
    rw [exec_txRow rfl]
    exact .whenSelected h.safe_txStep
  | word l d => exact h.safe_execWord l d
  | frame b => exact h.safe_execFrame b
  | oobPrefix => trivial

theorem Inv.safe_stepIn (h : Inv s) {r : Result} (hr : StepIn s r) : Safe Inv r := by
  cases hr with
  | pass => exact h
  | cap hrun => exact h.capStep hrun
  | op i => exact h.safe_exec i
  | undecodable _ => trivial

/-- A step from a sound state leads to a sound state and does not fault. -/
theorem Inv.safe_step (h : Inv s) : Safe Inv (step s) := by
  obtain ⟨es, n, hstep⟩ := stepIn_step s
  exact (h.rescheduled es n).safe_stepIn hstep

end

/-- Settles O9: RESET is one update of the state, and these are its fields. -/
theorem resetPutsEveryRegister : Obligations.ResetPutsEveryRegister := fun _ =>
  ⟨_, rfl, rfl, rfl, rfl, rfl, rfl, rfl, rfl, rfl, rfl, rfl, rfl, rfl, rfl, rfl, rfl, rfl, rfl, rfl, rfl⟩

/-- Settles O11: the state of R33's table is at the reset values, whatever the parameters are. -/
theorem resetStatesAreSound : Obligations.ResetStatesAreSound :=
  ⟨(atReset_initial _).inv, fun c => (atReset_initial c).inv⟩

/-- Settles O12: soundness is kept by every operation and every CAP micro-step, and a step is one of these. -/
theorem stepKeepsSoundness : Obligations.StepKeepsSoundness := fun _ _ h ht => h.safe_step.of_next ht

/-- Settles O13: the cursors of a sound state are in range, so PUSH and POP find their slots. -/
theorem soundStepNeverFaults : Obligations.SoundStepNeverFaults := fun _ f h => h.safe_step.ne_fault f

end Sys2Proof.Machine

/-! PROOFS. What no operation writes or reads: the parameters (10_state.md R10) and the mailbox's `overflowed`
(R16, decision D18). -/

namespace Sys2Proof.Machine

/-! ### The parameters -/

section
variable {s t : State}

theorem cfg_of_pushByte {b : Byte} (h : pushByte b s = .next t) : t.cfg = s.cfg := by
  rcases pushByte_eq_next.1 h with ⟨-, rfl⟩ | ⟨-, -, rfl⟩ <;> rfl

theorem cfg_of_txStep (h : txStep s = .next t) : t.cfg = s.cfg := by rw [txStep_frame h]

theorem cfg_of_execTick (h : execTick s = .next t) : t.cfg = s.cfg := by
  rw [execTick_frame h]
  rfl

theorem cfg_of_ticks {n : Nat} (h : ticks n s = .next t) : t.cfg = s.cfg := by
  induction n generalizing s with
  | zero =>
    cases h
    rfl
  | succ n ih =>
    obtain ⟨u, hu, ht⟩ := andThen_eq_next.1 h
    exact (ih ht).trans (cfg_of_execTick hu)

theorem cfg_of_execEdge {l : Level} (h : execEdge l s = .next t) : t.cfg = s.cfg := by
  rcases execEdge_eq_next.1 h with ⟨-, hatomic⟩ | ⟨-, hpin⟩
  · obtain ⟨-, -, rfl⟩ := edgeAtomic_eq_next.1 hatomic
    rfl
  · obtain ⟨-, ⟨-, -, rfl⟩ | ⟨-, rfl⟩⟩ := pinChange_eq_next.1 hpin <;> rfl

theorem cfg_capStep (s : State) : (capStep s).cfg = s.cfg := by
  unfold capStep
  cases s.capPh with
  | cap6 => cases s.edgePending <;> rfl
  | none | cap1 | cap2 | cap3 | cap4 | cap5 => rfl

theorem cfg_of_execEncTake (h : execEncTake s = .next t) : t.cfg = s.cfg := by
  obtain ⟨-, -, rfl⟩ := execEncTake_eq_next.1 h
  split <;> rfl

theorem cfg_of_execEncLo (h : execEncLo s = .next t) : t.cfg = s.cfg := by
  obtain ⟨-, -, ⟨-, -, rfl⟩ | ⟨-, u, hu, rfl⟩⟩ := execEncLo_eq_next.1 h
  · rfl
  · exact (cfg_of_pushByte hu :)

theorem cfg_of_execEncHi (h : execEncHi s = .next t) : t.cfg = s.cfg := by
  obtain ⟨-, -, u, hu, rfl⟩ := execEncHi_eq_next.1 h
  exact (cfg_of_pushByte hu :)

theorem cfg_of_execPop (h : execPop s = .next t) : t.cfg = s.cfg := by
  obtain ⟨-, -, -, rfl⟩ := execPop_eq_next.1 h
  rfl

theorem cfg_of_execWord {l : Level} {d : BitVec 15} (h : execWord l d s = .next t) : t.cfg = s.cfg := by
  obtain ⟨-, -, u, hu, ht⟩ := execWord_eq_next.1 h
  exact (cfg_of_pushByte ht).trans (cfg_of_pushByte hu)

/-- No operation writes a parameter, from whatever state. -/
theorem cfg_of_exec {i : Instr} (h : exec i s = .next t) : t.cfg = s.cfg := by
  cases i with
  | reset =>
    cases h
    rfl
  | tick => exact cfg_of_execTick h
  | edge l => exact cfg_of_execEdge h
  | encTake => exact cfg_of_execEncTake h
  | encLo => exact cfg_of_execEncLo h
  | encHi => exact cfg_of_execEncHi h
  | push b => exact cfg_of_pushByte (execPush_eq_next.1 h).2
  | pop => exact cfg_of_execPop h
  | txIdle | txStart | txData0 | txData1 | txData2 | txData3 | txData4 | txData5 | txData6 | txData7 | txStop0 | txStop1
  | txEnd =>
    rw [exec_txRow rfl] at h
    exact cfg_of_txStep (whenSelected_eq_next.1 h).2
  | word l d => exact cfg_of_execWord h
  | frame b =>
    obtain ⟨-, -, hticks⟩ := execFrame_eq_next.1 h
    exact cfg_of_ticks hticks
  | oobPrefix => cases h

theorem cfg_of_stepIn {r : Result} (hr : StepIn s r) (h : r = .next t) : t.cfg = s.cfg := by
  cases hr with
  | pass =>
    cases h
    rfl
  | cap _ =>
    cases h
    exact cfg_capStep s
  | op i => exact cfg_of_exec h
  | undecodable _ => cases h

end

/-- Settles O15: a step is an operation, a CAP micro-step or nothing, and none of them writes a parameter. -/
theorem parametersNeverChange : Obligations.ParametersNeverChange := by
  intro s t ht
  obtain ⟨es, n, hstep⟩ := stepIn_step s
  exact (cfg_of_stepIn hstep ht :)

/-! ### The mailbox's `overflowed` -/

/-- The state with the mailbox's `overflowed` erased. -/
def eraseOverflowed (s : State) : State := { s with sample := { s.sample with overflowed := false } }

theorem forgetOverflowed_eq_hide (r : Result) : forgetOverflowed r = hide eraseOverflowed r := by
  cases r <;> rfl

/-- The operation `f` does not read the mailbox's `overflowed`. -/
abbrev IgnoresOverflowed (f : State → Result) : Prop := Ignores eraseOverflowed f

theorem IgnoresOverflowed.forgetOverflowed_eq {f : State → Result} (hf : IgnoresOverflowed f) (s : State) (o : Bool) :
    forgetOverflowed (f { s with sample := { s.sample with overflowed := o } }) = forgetOverflowed (f s) := by
  simp only [forgetOverflowed_eq_hide]
  exact (hf _).symm.trans (hf s)

theorem ignoresOverflowed_pushByte (b : Byte) : IgnoresOverflowed (pushByte b) :=
  have hw : IgnoresOverflowed fun s => memWrite s.wr b s := .ite (fun _ => Iff.rfl) (.next fun _ => rfl) fun _ => rfl
  .ite (fun _ => Iff.rfl) (.next fun _ => rfl) (.andThen hw (fun _ => .next fun _ => rfl) fun _ => rfl)

theorem ignoresOverflowed_beginOrIdle : IgnoresOverflowed beginOrIdle :=
  .ite (fun _ => Iff.rfl) (.next fun _ => rfl) (.popByte (fun _ => rfl) (fun _ => rfl) fun _ => .next fun _ => rfl)

/-- A row that `st` selects; the stop rows but the last one have a test of their own. -/
theorem ignoresOverflowed_row (n : UartState) {f : State → Result} (hf : IgnoresOverflowed f) :
    IgnoresOverflowed fun s => whenSelected (s.st == n) s f :=
  .whenSelected (fun _ => rfl) hf

theorem ignoresOverflowed_execTxStop0 : IgnoresOverflowed execTxStop0 := by
  intro s
  have hstop : earlierStop (eraseOverflowed s) = earlierStop s := rfl
  unfold execTxStop0
  rw [hstop]
  cases earlierStop s <;> rfl

theorem ignoresOverflowed_execTxStop1 : IgnoresOverflowed execTxStop1 := .whenSelected (fun _ => rfl) (.next fun _ => rfl)

theorem ignoresOverflowed_txStep : IgnoresOverflowed txStep := by
  intro s
  have hst : (eraseOverflowed s).st = s.st := rfl
  unfold txStep
  rw [hst]
  split
  case h_1 | h_12 => exact ignoresOverflowed_row _ ignoresOverflowed_beginOrIdle s
  case h_11 k _ =>
    exact Ignores.ite (e := eraseOverflowed) (c := fun s => k < s.cfg.stopN) (fun _ => Iff.rfl)
      ignoresOverflowed_execTxStop0
      (.ite (c := fun s => k = s.cfg.stopN) (fun _ => Iff.rfl) ignoresOverflowed_execTxStop1 (.refused _)) s
  all_goals exact ignoresOverflowed_row _ (.next fun _ => rfl) s

theorem ignoresOverflowed_txRow {i : Instr} (hi : (encode i).fmt = .txstate) : IgnoresOverflowed (exec i) := by
  rw [funext (exec_txRow hi)]
  exact .whenSelected (fun _ => rfl) ignoresOverflowed_txStep

theorem ignoresOverflowed_execTick : IgnoresOverflowed execTick :=
  have hstep : IgnoresOverflowed fun s => txStep (cntInc s) := fun s => ignoresOverflowed_txStep (cntInc s)
  .ite (fun _ => Iff.rfl) (.refused _) (.andThen hstep (fun _ => .next fun _ => rfl) fun _ => rfl)

theorem ignoresOverflowed_ticks (n : Nat) : IgnoresOverflowed (ticks n) := by
  induction n with
  | zero => exact .next fun _ => rfl
  | succ n ih => exact .andThen ignoresOverflowed_execTick (fun _ => ih) fun _ => rfl

/-- EDGE stores a new sample, and of the old one it reads the duration alone, for its note (R94). -/
theorem ignoresOverflowed_execEdge (l : Level) : IgnoresOverflowed (execEdge l) :=
  have hatomic : IgnoresOverflowed (edgeAtomic l) :=
    .ite (fun _ => Iff.rfl) (.refused _) (.ite (fun _ => Iff.rfl) (.next fun _ => rfl) (.refused _))
  have hpin : IgnoresOverflowed (pinChange l) :=
    .ite (fun _ => Iff.rfl) (.refused _) (.ite (fun _ => Iff.rfl) (.next fun _ => rfl) fun s => by
      have hcfg : (eraseOverflowed s).cfg = s.cfg := rfl
      rw [hcfg]
      cases s.cfg.maskedEdge <;> rfl)
  .ite (fun _ => Iff.rfl) hatomic hpin

/-- CAP1 reads the old sample's duration and CAP3 stores the new `overflowed` (R96). -/
theorem eraseOverflowed_capStep (s : State) :
    eraseOverflowed (capStep (eraseOverflowed s)) = eraseOverflowed (capStep s) := by
  have hph : (eraseOverflowed s).capPh = s.capPh := rfl
  have hpend : (eraseOverflowed s).edgePending = s.edgePending := rfl
  unfold capStep
  rw [hph, hpend]
  cases s.capPh with
  | cap6 => cases s.edgePending <;> rfl
  | none | cap1 | cap2 | cap3 | cap4 | cap5 => rfl

/-- ENC_TAKE encodes the sample's level and duration (R111). -/
theorem eraseOverflowed_takeSample (s : State) :
    eraseOverflowed (takeSample (eraseOverflowed s)) = eraseOverflowed (takeSample s) := by
  have hready : (eraseOverflowed s).sampleReady = s.sampleReady := rfl
  rw [takeSample_eq, takeSample_eq, hready]
  split <;> rfl

theorem ignoresOverflowed_atPhase (p : EncPhase) {f : State → Result} (hf : IgnoresOverflowed f) :
    IgnoresOverflowed fun s => atPhase p s f :=
  .atPhase (e := eraseOverflowed) (fun _ => rfl) (fun _ => rfl) p hf

/-- The push of one of the bytes of `encW`, and on to the next phase (R113, R114). -/
theorem ignoresOverflowed_pushOf (part : Word → Byte) (p : EncPhase) :
    IgnoresOverflowed fun s => andThen (pushByte (part s.encW) s) fun t => .next { t with encPh := p } :=
  have hpush : IgnoresOverflowed fun s => pushByte (part s.encW) s := fun s => ignoresOverflowed_pushByte (part s.encW) s
  .andThen hpush (fun _ => .next fun _ => rfl) fun _ => rfl

theorem ignoresOverflowed_execEncLo : IgnoresOverflowed execEncLo := by
  have hdrop : IgnoresOverflowed fun s => .next { s.noteIf true .ringFull with encPh := .take } := .next fun _ => rfl
  have hlow : IgnoresOverflowed pushLow := ignoresOverflowed_pushOf loByte .hi
  refine ignoresOverflowed_atPhase .lo fun s => ?_
  have hcfg : (eraseOverflowed s).cfg = s.cfg := rfl
  rw [hcfg]
  cases s.cfg.pushPolicy with
  | byte => exact hlow s
  | word => exact Ignores.ite (e := eraseOverflowed) (c := fun s => s.ringFree < 2) (fun _ => Iff.rfl) hdrop hlow s

theorem ignoresOverflowed_execPush (b : Byte) : IgnoresOverflowed (execPush b) :=
  .ite (fun _ => Iff.rfl) (ignoresOverflowed_pushByte b)
    (.outsideCapture (fun _ => rfl) (ignoresOverflowed_pushByte b))

theorem ignoresOverflowed_execPop : IgnoresOverflowed execPop :=
  .outsideCapture (fun _ => rfl) (.popByte (fun _ => rfl) (fun _ => rfl) fun _ => .next fun _ => rfl)

theorem ignoresOverflowed_execWord (l : Level) (d : BitVec 15) : IgnoresOverflowed (execWord l d) :=
  have hword : IgnoresOverflowed (pushWord (pulseWord l d)) :=
    .andThen (ignoresOverflowed_pushByte _) (fun _ => ignoresOverflowed_pushByte _) fun _ => rfl
  .ite (fun _ => Iff.rfl) (.refused _) (.outsideCapture (fun _ => rfl) hword)

theorem ignoresOverflowed_execFrame (b : Byte) : IgnoresOverflowed (execFrame b) :=
  have hticks : IgnoresOverflowed fun s => ticks s.cfg.frameTicks s := fun s => ignoresOverflowed_ticks s.cfg.frameTicks s
  .ite (fun _ => Iff.rfl) hticks (.refused _)

/-- No operation reads the mailbox's `overflowed`. -/
theorem ignoresOverflowed_exec (i : Instr) : IgnoresOverflowed (exec i) := by
  cases i with
  | reset => exact .next fun _ => rfl
  | tick => exact ignoresOverflowed_execTick
  | edge l => exact ignoresOverflowed_execEdge l
  | encTake => exact ignoresOverflowed_atPhase .take (.next eraseOverflowed_takeSample)
  | encLo => exact ignoresOverflowed_execEncLo
  | encHi => exact ignoresOverflowed_atPhase .hi (ignoresOverflowed_pushOf hiByte .take)
  | push b => exact ignoresOverflowed_execPush b
  | pop => exact ignoresOverflowed_execPop
  | txIdle | txStart | txData0 | txData1 | txData2 | txData3 | txData4 | txData5 | txData6 | txData7 | txStop0 | txStop1
  | txEnd => exact ignoresOverflowed_txRow rfl
  | word l d => exact ignoresOverflowed_execWord l d
  | frame b => exact ignoresOverflowed_execFrame b
  | oobPrefix => exact .refused _

/-- Settles O59: every operation ignores `overflowed`, and so does every CAP micro-step. -/
theorem overflowedFieldIsReadByNothing : Obligations.OverflowedFieldIsReadByNothing := by
  intro i s o
  have hcap : IgnoresOverflowed fun s => .next (capStep s) := .next eraseOverflowed_capStep
  exact ⟨(ignoresOverflowed_exec i).forgetOverflowed_eq s o, hcap.forgetOverflowed_eq s o⟩

end Sys2Proof.Machine

/-! PROOFS. Ownership (20_memory.md R51, 43_uart_tx.md R140, decision D15): what each agent's operations leave alone, and
which slots of the ring they write (R44, 42_txring.md R126). -/

namespace Sys2Proof.Machine

/-! ### One scheduled operation -/

/-- Settles O1: the step takes the operation off the schedule, decodes it and performs it. -/
theorem stepPerformsScheduledOperation : Obligations.StepPerformsScheduledOperation := by
  intro s d i es hsched hd
  simp only [step, runNext, hsched, runEvent, hd]

/-! ### What each agent leaves alone -/

/-- What the main loop leaves alone: the counter, the transmitter, the read cursor and the pins (R51). -/
def State.keptByMainLoop (s : State) : Word × Bool × UartState × Byte × Level × Nat × Level :=
  (s.cnt, s.ovf, s.st, s.tsr, s.txPin, s.rd, s.irLevel)

/-- What the timer leaves alone: the mailbox, the encoder, the ring's bytes, the write cursor, `pce` and the IR pin
(R51, R140). -/
def State.keptByTimer (s : State) : Sample × EncPhase × Word × Memory × Nat × Bool × Level :=
  (s.sample, s.encPh, s.encW, s.buf, s.wr, s.pce, s.irLevel)

/-- What a pin change leaves alone: the ring, the transmitter and the encoder (R94, R96). -/
def State.keptByPin (s : State) : Memory × Nat × Nat × UartState × Byte × Level × EncPhase × Word :=
  (s.buf, s.rd, s.wr, s.st, s.tsr, s.txPin, s.encPh, s.encW)

section
variable {i : Instr} {s t : State}

theorem keptByMainLoop_of_pushByte {b : Byte} (h : pushByte b s = .next t) : t.keptByMainLoop = s.keptByMainLoop := by
  rcases pushByte_eq_next.1 h with ⟨-, rfl⟩ | ⟨-, -, rfl⟩ <;> rfl

theorem keptByMainLoop_of_exec (hi : performer i = .mainLoop) (h : exec i s = .next t) :
    t.keptByMainLoop = s.keptByMainLoop := by
  cases i with
  | encTake =>
    obtain ⟨-, -, rfl⟩ := execEncTake_eq_next.1 h
    split <;> rfl
  | encLo =>
    obtain ⟨-, -, ⟨-, -, rfl⟩ | ⟨-, u, hu, rfl⟩⟩ := execEncLo_eq_next.1 h
    · rfl
    · exact (keptByMainLoop_of_pushByte hu :)
  | encHi =>
    obtain ⟨-, -, u, hu, rfl⟩ := execEncHi_eq_next.1 h
    exact (keptByMainLoop_of_pushByte hu :)
  | push b => exact keptByMainLoop_of_pushByte (execPush_eq_next.1 h).2
  | word l d =>
    obtain ⟨-, -, u, hu, ht⟩ := execWord_eq_next.1 h
    exact (keptByMainLoop_of_pushByte ht).trans (keptByMainLoop_of_pushByte hu)
  | oobPrefix => cases h
  | reset | tick | edge _ | pop | txIdle | txStart | txData0 | txData1 | txData2 | txData3 | txData4 | txData5 | txData6
  | txData7 | txStop0 | txStop1 | txEnd | frame _ => cases hi

theorem keptByTimer_of_txStep (h : txStep s = .next t) : t.keptByTimer = s.keptByTimer := by
  rw [txStep_frame h]
  rfl

theorem keptByTimer_of_execTick (h : execTick s = .next t) : t.keptByTimer = s.keptByTimer := by
  rw [execTick_frame h]
  rfl

theorem keptByTimer_of_ticks {n : Nat} (h : ticks n s = .next t) : t.keptByTimer = s.keptByTimer := by
  induction n generalizing s with
  | zero =>
    cases h
    rfl
  | succ n ih =>
    obtain ⟨u, hu, ht⟩ := andThen_eq_next.1 h
    exact (ih ht).trans (keptByTimer_of_execTick hu)

theorem keptByTimer_of_exec (hi : performer i = .timer) (h : exec i s = .next t) : t.keptByTimer = s.keptByTimer := by
  cases i with
  | tick => exact keptByTimer_of_execTick h
  | pop =>
    obtain ⟨-, -, -, rfl⟩ := execPop_eq_next.1 h
    rfl
  | txIdle | txStart | txData0 | txData1 | txData2 | txData3 | txData4 | txData5 | txData6 | txData7 | txStop0 | txStop1
  | txEnd =>
    rw [exec_txRow rfl] at h
    exact keptByTimer_of_txStep (whenSelected_eq_next.1 h).2
  | frame b =>
    obtain ⟨-, -, hticks⟩ := execFrame_eq_next.1 h
    exact keptByTimer_of_ticks hticks
  | reset | edge _ | encTake | encLo | encHi | push _ | word _ _ | oobPrefix => cases hi

theorem keptByPin_of_execEdge {l : Level} (h : execEdge l s = .next t) : t.keptByPin = s.keptByPin := by
  rcases execEdge_eq_next.1 h with ⟨-, hatomic⟩ | ⟨-, hpin⟩
  · obtain ⟨-, -, rfl⟩ := edgeAtomic_eq_next.1 hatomic
    rfl
  · obtain ⟨-, ⟨-, -, rfl⟩ | ⟨-, rfl⟩⟩ := pinChange_eq_next.1 hpin <;> rfl

theorem keptByPin_of_exec (hi : performer i = .pin) (h : exec i s = .next t) : t.keptByPin = s.keptByPin := by
  cases i with
  | edge l => exact keptByPin_of_execEdge h
  | reset | tick | encTake | encLo | encHi | push _ | pop | txIdle | txStart | txData0 | txData1 | txData2 | txData3
  | txData4 | txData5 | txData6 | txData7 | txStop0 | txStop1 | txEnd | word _ _ | frame _ | oobPrefix => cases hi

end

/-- A CAP micro-step writes the mailbox, the counter, `pce`, the temporaries and the marks of the split form, and its
notes (R96). -/
theorem capStep_frame (s : State) : capStep s = { s with
    sample := (capStep s).sample, cnt := (capStep s).cnt, ovf := (capStep s).ovf, pce := (capStep s).pce,
    capPh := (capStep s).capPh, tOvf := (capStep s).tOvf, tCnt := (capStep s).tCnt,
    edgePending := (capStep s).edgePending, capTicked := (capStep s).capTicked,
    capDeferred := (capStep s).capDeferred, notes := (capStep s).notes } := by
  unfold capStep
  cases s.capPh with
  | cap6 => cases s.edgePending <;> rfl
  | none | cap1 | cap2 | cap3 | cap4 | cap5 => rfl

/-- Settles O57: operation by operation for each agent, and micro-step by micro-step for the split capture. -/
theorem agentsOwnTheirState : Obligations.AgentsOwnTheirState := by
  refine ⟨fun i s t h => ⟨fun hi => ?_, fun hi => ?_, fun hi => ?_⟩, capStep_frame⟩
  · simpa only [State.keptByMainLoop, Prod.mk.injEq] using keptByMainLoop_of_exec hi h
  · simpa only [State.keptByTimer, Prod.mk.injEq] using keptByTimer_of_exec hi h
  · simpa only [State.keptByPin, Prod.mk.injEq] using keptByPin_of_exec hi h

/-! ### Which slots are written -/

section
variable {i : Instr} {s t : State}

/-- A push leaves every slot but `wr` alone (R126). -/
theorem read_of_pushByte {b : Byte} (h : pushByte b s = .next t) {a : Nat} (ha : a ≠ s.wr) :
    t.buf.read a = s.buf.read a := by
  rcases pushByte_eq_next.1 h with ⟨-, rfl⟩ | ⟨-, -, rfl⟩
  · rfl
  · exact Memory.read_write_other _ _ ha

/-- A push leaves the write cursor or advances it by one (R126, R131). -/
theorem wr_of_pushByte {b : Byte} (h : pushByte b s = .next t) : t.wr = s.wr ∨ t.wr = s.nextCursor s.wr := by
  rcases pushByte_eq_next.1 h with ⟨-, rfl⟩ | ⟨-, -, rfl⟩
  · exact .inl rfl
  · exact .inr rfl

theorem read_of_execEncLo (h : execEncLo s = .next t) {a : Nat} (ha : a ≠ s.wr) : t.buf.read a = s.buf.read a := by
  obtain ⟨-, -, ⟨-, -, rfl⟩ | ⟨-, u, hu, rfl⟩⟩ := execEncLo_eq_next.1 h
  · rfl
  · exact (read_of_pushByte hu ha :)

theorem read_of_execEncHi (h : execEncHi s = .next t) {a : Nat} (ha : a ≠ s.wr) : t.buf.read a = s.buf.read a := by
  obtain ⟨-, -, u, hu, rfl⟩ := execEncHi_eq_next.1 h
  exact (read_of_pushByte hu ha :)

/-- WORD's second push stands at `wr`, where the first was dropped, or at the slot after it (R126; log 9). -/
theorem read_of_execWord {l : Level} {d : BitVec 15} (h : execWord l d s = .next t) {a : Nat} (ha : a ≠ s.wr)
    (ha' : a ≠ s.nextCursor s.wr) : t.buf.read a = s.buf.read a := by
  obtain ⟨-, -, u, hu, ht⟩ := execWord_eq_next.1 h
  have hau : a ≠ u.wr := by rcases wr_of_pushByte hu with hw | hw <;> rwa [hw]
  exact (read_of_pushByte ht hau).trans (read_of_pushByte hu ha)

/-- An operation of another agent than the main loop writes no slot, RESET apart (R51). -/
theorem buf_of_exec (hm : performer i ≠ .mainLoop) (hr : i ≠ .reset) (h : exec i s = .next t) : t.buf = s.buf := by
  have hp : performer i = .timer ∨ performer i = .pin := by cases i <;> simp [performer] at hm hr ⊢
  rcases hp with hp | hp
  · have hk := keptByTimer_of_exec hp h
    simp only [State.keptByTimer, Prod.mk.injEq] at hk
    obtain ⟨-, -, -, hbuf, -⟩ := hk
    exact hbuf
  · have hk := keptByPin_of_exec hp h
    simp only [State.keptByPin, Prod.mk.injEq] at hk
    obtain ⟨hbuf, -⟩ := hk
    exact hbuf

/-- ENC_TAKE takes the sample and pushes nothing (R111). -/
theorem buf_of_execEncTake (h : execEncTake s = .next t) : t.buf = s.buf := by
  obtain ⟨-, -, rfl⟩ := execEncTake_eq_next.1 h
  split <;> rfl

end

/-- Settles O39: PUSH, ENC_LO and ENC_HI are one push each and WORD is two; of the rest only RESET writes the ring. -/
theorem onlyPushesWriteTheirSlots : Obligations.OnlyPushesWriteTheirSlots := by
  intro i s t h
  refine ⟨?_, ?_, fun hm hr a => by rw [buf_of_exec hm hr h], ?_⟩
  · rintro (⟨b, rfl⟩ | rfl | rfl) a ha
    · exact read_of_pushByte (execPush_eq_next.1 h).2 ha
    · exact read_of_execEncLo h ha
    · exact read_of_execEncHi h ha
  · rintro ⟨l, d, rfl⟩ a ha ha'
    exact read_of_execWord h ha ha'
  · rintro rfl a
    rw [buf_of_execEncTake h]

end Sys2Proof.Machine

/-! PROOFS. The ring as a queue, and a word's two bytes entering it (42_txring.md R125, R126, 20_memory.md R41): by WORD, and
by ENCODE from the mailbox (41_encoder.md R110). -/

namespace Sys2Proof.Machine

/-! ### A byte stored -/

/-- The state after a push into a ring with room (R126). -/
def byteStored (b : Byte) (s : State) : State := { s with buf := s.buf.write s.wr b, wr := s.nextCursor s.wr }

section
variable {s : State}

theorem inv_byteStored (h : Inv s) (b : Byte) : Inv (byteStored b s) := h.stored b

/-- The free slots of R25 leave room for `n` bytes. -/
theorem room_of_ringFree {n : Nat} (hn : 0 < n) (hf : n ≤ s.ringFree) : s.ringCount + n < s.cfg.ringCap := by
  simp only [State.ringFree] at hf
  omega

/-- One slot is never used: a ring with room for one more byte is not full (R125). -/
theorem Inv.pushByte_of_room (h : Inv s) (hroom : s.ringCount + 1 < s.cfg.ringCap) (b : Byte) :
    pushByte b s = .next (byteStored b s) := by
  have hfull : s.ringFull = false := by
    rw [← Bool.not_eq_true, ringFull_iff h.rd_lt h.wr_lt]
    omega
  exact pushByte_eq_next.2 (.inr ⟨hfull, h.wr_lt, rfl⟩)

theorem ringCount_byteStored (hroom : s.ringCount + 1 < s.cfg.ringCap) (b : Byte) :
    (byteStored b s).ringCount = s.ringCount + 1 :=
  (ringCount_stored _).trans (Nat.mod_eq_of_lt hroom)

/-- Where two bytes have room, one has room after the other. -/
theorem room_byteStored (hroom : s.ringCount + 2 < s.cfg.ringCap) (b : Byte) :
    (byteStored b s).ringCount + 1 < (byteStored b s).cfg.ringCap := by
  rw [ringCount_byteStored (Nat.lt_of_succ_lt hroom)]
  exact hroom

theorem slotByte_byteStored_wr (b : Byte) (s : State) : (byteStored b s).slotByte s.wr = b :=
  slotByte_of_read (Memory.read_write_same _ _ _)

theorem slotByte_byteStored_other (b : Byte) {a : Nat} (ha : a ≠ s.wr) : (byteStored b s).slotByte a = s.slotByte a := by
  simp only [State.slotByte, byteStored, Memory.read_write_other _ _ ha]

/-- A push appends its byte to the queue: the buffered slots keep their bytes and the next one is `wr` (R125, R126). -/
theorem Inv.contents_byteStored (h : Inv s) (hroom : s.ringCount + 1 < s.cfg.ringCap) (b : Byte) :
    (byteStored b s).contents = s.contents ++ [b] := by
  have hlast : (byteStored b s).slotByte ((s.rd + s.ringCount) % s.cfg.ringCap) = b := by
    rw [slot_ringCount h.rd_lt h.wr_lt, slotByte_byteStored_wr]
  have hbuffered : ∀ k ∈ List.range s.ringCount, (byteStored b s).slotByte ((s.rd + k) % s.cfg.ringCap) =
      s.slotByte ((s.rd + k) % s.cfg.ringCap) := fun k hk =>
    slotByte_byteStored_other b (slot_ne_wr h.rd_lt h.wr_lt (List.mem_range.1 hk))
  calc (byteStored b s).contents
      = (List.range (s.ringCount + 1)).map fun k => (byteStored b s).slotByte ((s.rd + k) % s.cfg.ringCap) := by
        rw [State.contents, ringCount_byteStored hroom]
        rfl
    _ = s.contents ++ [b] := by
        rw [List.range_succ, List.map_append, List.map_congr_left hbuffered, List.map_singleton, hlast]
        rfl

theorem length_contents (s : State) : s.contents.length = s.ringCount := by simp [State.contents]

/-- The empty ring's queue is empty (R25, R125). -/
theorem Inv.contents_of_empty (h : Inv s) (he : s.ringEmpty = true) : s.contents = [] := by
  rw [← List.length_eq_zero_iff, length_contents]
  exact (ringEmpty_iff h.rd_lt h.wr_lt).1 he

/-- An advance of `rd` takes the oldest byte off the queue (R125, R127). -/
theorem Inv.contents_popped (h : Inv s) (he : s.ringEmpty = false) :
    s.contents = s.slotByte s.rd :: State.contents { s with rd := s.nextCursor s.rd } := by
  have hhead : s.slotByte ((s.rd + 0) % s.cfg.ringCap) = s.slotByte s.rd := by rw [Nat.add_zero, Nat.mod_eq_of_lt h.rd_lt]
  simp only [State.contents, ← ringCount_popped h he, List.range_succ_eq_map, List.map_cons, List.map_map, hhead]
  simp only [Function.comp_def, Nat.succ_eq_add_one, nextCursor_add]
  rfl

/-- With room for both its bytes a word enters the queue low byte first (R41, R126). -/
theorem Inv.contents_wordStored (h : Inv s) (hroom : s.ringCount + 2 < s.cfg.ringCap) (lo hi : Byte) :
    (byteStored hi (byteStored lo s)).contents = s.contents ++ [lo, hi] := by
  rw [(inv_byteStored h lo).contents_byteStored (room_byteStored hroom lo),
    h.contents_byteStored (Nat.lt_of_succ_lt hroom), List.append_assoc, List.singleton_append]

end

/-- Settles O52: WORD is the two pushes, and where both have room each stores its byte. -/
theorem wordEntersTheRingLowByteFirst : Obligations.WordEntersTheRingLowByteFirst := by
  intro l d s h hr hd
  obtain ⟨u, hu⟩ := pushByte_completes (loByte (pulseWord l d)) h.wr_lt
  obtain ⟨hinv, -⟩ := (h.safe_pushByte _).of_next hu
  obtain ⟨t, ht⟩ := pushByte_completes (hiByte (pulseWord l d)) hinv.wr_lt
  have hru : u.captureRunning = false := (captureRunning_of_pushByte hu).trans hr
  refine ⟨u, t, (execPush_of_not_running hr _).trans hu, (execPush_of_not_running hru _).trans ht,
    execWord_eq_next.2 ⟨hd, hr, u, hu, ht⟩, fun hfree => ?_⟩
  have hroom := room_of_ringFree (by decide) hfree
  obtain rfl := next_inj.1 ((h.pushByte_of_room (Nat.lt_of_succ_lt hroom) _).symm.trans hu)
  obtain rfl := next_inj.1 ((hinv.pushByte_of_room (room_byteStored hroom _) _).symm.trans ht)
  exact ⟨h.contents_wordStored hroom _ _, rfl⟩

/-! ### ENCODE -/

/-- The state after ENC_LO where its byte has room (R113). -/
def lowStored (s : State) : State := { byteStored (loByte s.encW) s with encPh := .hi }

/-- The state after ENC_HI where its byte has room (R114). -/
def highStored (s : State) : State := { byteStored (hiByte s.encW) s with encPh := .take }

section
variable {s : State}

theorem Inv.safe_encodeOnce (h : Inv s) : Safe Inv (encodeOnce s) := by
  refine (h.safe_exec .encTake).andThen fun t ht => ?_
  split
  · refine (ht.safe_exec .encLo).andThen fun u hu => ?_
    split
    · exact hu.safe_exec .encHi
    · exact hu
  · exact ht

/-- Where both bytes of a word have room, ENC_LO stores the low one under either policy (R113, R115). -/
theorem Inv.execEncLo_of_room (h : Inv s) (hr : s.captureRunning = false) (hph : s.encPh = .lo)
    (hroom : s.ringCount + 2 < s.cfg.ringCap) : execEncLo s = .next (lowStored s) := by
  have hfree : ¬ s.ringFree < 2 := by
    simp only [State.ringFree]
    omega
  have hpush := h.pushByte_of_room (Nat.lt_of_succ_lt hroom) (loByte s.encW)
  exact execEncLo_eq_next.2 ⟨hr, hph, .inr ⟨fun hw => hfree hw.2, _, hpush, rfl⟩⟩

theorem Inv.execEncHi_of_room (h : Inv s) (hr : s.captureRunning = false) (hph : s.encPh = .hi)
    (hroom : s.ringCount + 1 < s.cfg.ringCap) : execEncHi s = .next (highStored s) :=
  execEncHi_eq_next.2 ⟨hr, hph, _, h.pushByte_of_room hroom _, rfl⟩

/-- ENCODE of a waiting sample whose word has room takes the sample and stores both bytes (R110). -/
theorem Inv.encodeOnce_of_room (h : Inv s) (hr : s.captureRunning = false) (hph : s.encPh = .take)
    (hd : s.sample.duration ≠ 0#16) (hroom : s.ringCount + 2 < s.cfg.ringCap) :
    encodeOnce s = .next (highStored (lowStored (sampleTaken s))) := by
  have htake : execEncTake s = .next (sampleTaken s) :=
    execEncTake_eq_next.2 ⟨hr, hph, by simp [State.sampleReady, hd]⟩
  have hinv : Inv (sampleTaken s) := h.safe_execEncTake.of_next htake
  have hlo := hinv.execEncLo_of_room hr rfl hroom
  have hroom' : (lowStored (sampleTaken s)).ringCount + 1 < s.cfg.ringCap :=
    room_byteStored (s := sampleTaken s) hroom (loByte (sampleTaken s).encW)
  have hhi := (hinv.safe_execEncLo.of_next hlo).execEncHi_of_room hr rfl hroom'
  exact encodeOnce_eq_next.2 ⟨_, htake, .inr ⟨rfl, _, hlo, .inr ⟨rfl, hhi⟩⟩⟩

/-- The encoded word enters the queue low byte first (R41, R110). -/
theorem Inv.contents_sampleStored (h : Inv s) (hroom : s.ringCount + 2 < s.cfg.ringCap) :
    (highStored (lowStored (sampleTaken s))).contents = s.contents ++
      [loByte (encodeWord s.sample.level s.sample.duration), hiByte (encodeWord s.sample.level s.sample.duration)] :=
  h.contents_wordStored hroom _ _

end

end Sys2Proof.Machine

/-! PROOFS. The line (30_encoding.md R64, R66, 43_uart_tx.md R151, R152): what the transmitter will still put on it, what a
receiver reads from it, and that DRAIN sends the ring's bytes; with ENCODE, an interval's way to the wire (R41, R110). -/

namespace Sys2Proof.Machine

/-! ### The levels of a byte's bits -/

section
variable (c : Config)

/-- The levels of the `n` low bits of `b`, least significant bit first (R65, R142). -/
def bitLevels (n : Nat) (b : Byte) : List Level := (List.range n).map fun i => levelOf c (b.getLsbD i)

/-- The first of them is what a data drive puts on the pin; the others are left in the shifted byte (R142). -/
theorem bitLevels_succ (n : Nat) (b : Byte) :
    bitLevels c (n + 1) b = levelOf c (b.getLsbD 0) :: bitLevels c n (b >>> 1) := by
  simp [bitLevels, List.range_succ_eq_map, Nat.add_comm]

theorem length_bitLevels (n : Nat) (b : Byte) : (bitLevels c n b).length = n := by simp [bitLevels]

theorem frameLevels_eq (b : Byte) :
    frameLevels c b = c.spaceLevel :: (bitLevels c 8 b ++ List.replicate (c.stopN + 2) c.markLevel) := rfl

/-- A frame lasts FRAME_TICKS quanta (R64, R153). -/
theorem length_frameLevels (b : Byte) : (frameLevels c b).length = c.frameTicks := by
  simp only [frameLevels_eq, List.length_cons, List.length_append, length_bitLevels, List.length_replicate,
    Config.frameTicks]
  omega

/-! ### The receiver -/

/-- The byte whose bits below `i` are those of `b`: what the receiver holds before it reads bit `i` (R66). -/
def lowBits (b : Byte) (i : Nat) : Byte := (b.setWidth i).setWidth 8

theorem lowBits_zero (b : Byte) : lowBits b 0 = 0 := by
  ext j
  simp [lowBits]

theorem lowBits_eight (b : Byte) : lowBits b 8 = b := by simp [lowBits]

/-- Reading bit `i` adds it to the bits below it. -/
theorem lowBits_succ (b : Byte) (i : Nat) :
    (lowBits b i ||| if b.getLsbD i then 1#8 <<< i else 0) = lowBits b (i + 1) := by
  cases hb : b.getLsbD i with
  | true => exact (BitVec.setWidth_setWidth_succ_eq_setWidth_setWidth_or_twoPow_of_getLsbD_true hb).symm
  | false =>
    exact BitVec.or_zero.trans (BitVec.setWidth_setWidth_succ_eq_setWidth_setWidth_of_getLsbD_false hb).symm

theorem levelOf_eq_markLevel (bit : Bool) : levelOf c bit = c.markLevel ↔ bit = true := by
  cases bit <;> simp [levelOf, Config.spaceLevel]

/-- The receiver reads bit `i` from the first of the levels that are left (R65, R66). -/
theorem receive_bit (b : Byte) (i n : Nat) (ls : List Level) :
    receive c (.data i (lowBits b i)) (bitLevels c (n + 1) (b >>> i) ++ ls) =
      if i < 7 then receive c (.data (i + 1) (lowBits b (i + 1))) (bitLevels c n (b >>> (i + 1)) ++ ls)
      else lowBits b (i + 1) :: receive c (.tail (c.stopN + 2)) (bitLevels c n (b >>> (i + 1)) ++ ls) := by
  have hbit : (b >>> i).getLsbD 0 = b.getLsbD i := by simp
  rw [bitLevels_succ, List.cons_append, hbit, ← BitVec.shiftRight_add, receive]
  simp only [levelOf_eq_markLevel, lowBits_succ]

/-- From bit `i` on, with the bits before it read, the receiver reads the rest of the byte (R66). -/
theorem receive_bits (b : Byte) (ls : List Level) {i n : Nat} (hn : i + n = 7) :
    receive c (.data i (lowBits b i)) (bitLevels c (n + 1) (b >>> i) ++ ls) = b :: receive c (.tail (c.stopN + 2)) ls := by
  induction n generalizing i with
  | zero =>
    obtain rfl : i = 7 := hn
    rw [receive_bit, if_neg (by decide), lowBits_eight]
    rfl
  | succ n ih => rw [receive_bit, if_pos (by omega), ih (by omega)]

/-- The receiver passes over a frame's tail and looks for a start bit again (R66). -/
theorem receive_tail (k : Nat) (l : Level) (ls : List Level) :
    receive c (.tail (k + 1)) (List.replicate (k + 1) l ++ ls) = receive c .scan ls := by
  induction k with
  | zero => rfl
  | succ k ih =>
    rw [List.replicate_succ, List.cons_append, receive, if_neg (by omega)]
    exact ih

theorem receive_frame (b : Byte) (ls : List Level) :
    receive c .scan (frameLevels c b ++ ls) = b :: receive c .scan ls := by
  have hspace : c.spaceLevel ≠ c.markLevel := by simp [Config.spaceLevel]
  have hdata := receive_bits c b (List.replicate (c.stopN + 2) c.markLevel ++ ls) (Nat.zero_add 7)
  rw [BitVec.ushiftRight_zero, lowBits_zero, receive_tail] at hdata
  rw [frameLevels_eq, List.cons_append, List.append_assoc, receive, if_neg hspace]
  exact hdata

/-- Frames one after the other are read as their bytes (R66). -/
theorem receive_frames (bs : List Byte) (ls : List Level) :
    receive c .scan (bs.flatMap (frameLevels c) ++ ls) = bs ++ receive c .scan ls := by
  induction bs with
  | nil => rfl
  | cons b bs ih => rw [List.flatMap_cons, List.append_assoc, receive_frame, ih, List.cons_append]

end

/-! ### What is still to be sent -/

/-- The levels of a frame after the quantum of state `st`, with the data bits that are left in `b` (R142 to R146). -/
def restOfFrame (c : Config) (b : Byte) : UartState → List Level
  | .idle | .txend => []
  | .startbit => bitLevels c 8 b ++ List.replicate (c.stopN + 2) c.markLevel
  | .databit i => bitLevels c (7 - i.val) b ++ List.replicate (c.stopN + 2) c.markLevel
  | .stopbit k => List.replicate (c.stopN + 1 - k) c.markLevel

/-- The line up to its rest: the frame in progress, the frames of the buffered bytes and the quantum of the return to idle
(R151, R152). Nothing is ahead of a line that rests. -/
def lineAhead (s : State) : List Level :=
  if drained s then []
  else restOfFrame s.cfg s.tsr s.st ++ (s.contents.flatMap (frameLevels s.cfg) ++ [s.cfg.markLevel])

section
variable {s t : State}

theorem lineAhead_of_drained (hd : drained s = true) : lineAhead s = [] := if_pos hd

theorem lineAhead_of_not_drained (hd : drained s = false) :
    lineAhead s = restOfFrame s.cfg s.tsr s.st ++ (s.contents.flatMap (frameLevels s.cfg) ++ [s.cfg.markLevel]) := by
  simp [lineAhead, hd]

theorem drained_of_ne_idle (hst : s.st ≠ .idle) : drained s = false := by simp [drained, hst]

/-- At a frame boundary a receiver reads the ring's bytes from what is ahead (R66, R152). -/
theorem Inv.receive_lineAhead (h : Inv s) (hst : s.st = .idle ∨ s.st = .txend) :
    receive s.cfg .scan (lineAhead s) = s.contents := by
  cases hd : drained s with
  | true =>
    have he : s.ringEmpty = true := (Bool.and_eq_true_iff.1 hd).2
    rw [lineAhead_of_drained hd, h.contents_of_empty he, receive]
  | false =>
    have hrest : restOfFrame s.cfg s.tsr s.st = [] := by rcases hst with hst | hst <;> rw [hst, restOfFrame]
    rw [lineAhead_of_not_drained hd, hrest, List.nil_append, receive_frames, receive, if_pos rfl, receive, List.append_nil]

/-- Within a frame the ring stays as it is, and what is ahead shrinks by the frame's next level. -/
theorem lineAhead_cons_of_frame (hs : s.st ≠ .idle) (ht : t.st ≠ .idle) (hcfg : t.cfg = s.cfg)
    (hqueue : t.contents = s.contents)
    (hrest : restOfFrame s.cfg s.tsr s.st = t.txPin :: restOfFrame s.cfg t.tsr t.st) :
    lineAhead s = t.txPin :: lineAhead t := by
  rw [lineAhead_of_not_drained (drained_of_ne_idle hs), lineAhead_of_not_drained (drained_of_ne_idle ht), hcfg, hqueue,
    hrest, List.cons_append]

/-- A data drive puts the first of the levels left in `tsr` on the pin (R142, R143). -/
theorem lineAhead_of_bitDriven {j : Fin 8} (hs : s.st ≠ .idle)
    (hrest : restOfFrame s.cfg s.tsr s.st =
      bitLevels s.cfg (7 - j.val + 1) s.tsr ++ List.replicate (s.cfg.stopN + 2) s.cfg.markLevel) :
    lineAhead s = (bitDriven (.databit j) s).txPin :: lineAhead (bitDriven (.databit j) s) :=
  lineAhead_cons_of_frame hs (by simp [bitDriven]) rfl rfl (by rw [hrest, bitLevels_succ]; rfl)

/-- Every step of the transmitter puts the next level of what is ahead on the pin (R155). -/
theorem lineAhead_of_txEdge (h : Inv s) (hd : drained s = false) (e : TxEdge s t) :
    lineAhead s = t.txPin :: lineAhead t := by
  cases e with
  | toIdle hst he ht =>
    have hend : s.st = .txend := hst.resolve_left fun hidle => by simp [drained, hidle, he] at hd
    have hrests : drained t = true := ht ▸ he
    rw [lineAhead_of_not_drained hd, lineAhead_of_drained hrests, hend, h.contents_of_empty he, ht]
    rfl
  | begin hst he _ ht =>
    have hsends : drained t = false := by simp [ht, drained, frameBegun]
    have hrest : restOfFrame s.cfg s.tsr s.st = [] := by rcases hst with hst | hst <;> rw [hst, restOfFrame]
    rw [lineAhead_of_not_drained hd, lineAhead_of_not_drained hsends, hrest, h.contents_popped he, List.flatMap_cons,
      List.append_assoc, ht]
    rfl
  | start hst ht => exact ht ▸ lineAhead_of_bitDriven (by simp [hst]) (by rw [hst]; rfl)
  | data i j hij hst ht =>
    have hleft : 7 - i.val = 7 - j.val + 1 := by omega
    exact ht ▸ lineAhead_of_bitDriven (by simp [hst]) (by rw [hst, restOfFrame, hleft])
  | lastData hst ht =>
    subst ht
    exact lineAhead_cons_of_frame (by simp [hst]) (by simp) rfl rfl
      (by simp [restOfFrame, hst, bitLevels, List.replicate_succ])
  | stop k hk hst ht =>
    subst ht
    have hpin := h.mark_at_rest (.inr (.inr ⟨k, hst⟩))
    have hleft : s.cfg.stopN + 1 - k = s.cfg.stopN + 1 - (k + 1) + 1 := by omega
    exact lineAhead_cons_of_frame (by simp [hst]) (by simp) rfl rfl
      (by rw [hst, restOfFrame, restOfFrame, hleft, List.replicate_succ, hpin])
  | lastStop hst ht =>
    subst ht
    have hpin := h.mark_at_rest (.inr (.inr ⟨_, hst⟩))
    exact lineAhead_cons_of_frame (by simp [hst]) (by simp) rfl rfl (by simp [restOfFrame, hst, hpin])

/-! ### DRAIN -/

/-- A TICK outside a split capture puts the next level of what is ahead on the line (R91, R189). -/
theorem Inv.tick_sends (h : Inv s) (hr : s.captureRunning = false) (hd : drained s = false) :
    ∃ t, execTick s = .next t ∧ Inv t ∧ t.captureRunning = false ∧ t.observed = t.txPin :: s.observed ∧
      lineAhead s = t.txPin :: lineAhead t := by
  obtain ⟨t, ht⟩ := execTick_completes (tickBarred_of_not_running hr) h.st_legal h.rd_lt
  have hframe := execTick_frame ht
  refine ⟨t, ht, h.safe_execTick.of_next ht, ?_, ?_, ?_⟩
  · rw [hframe]
    exact hr
  · rw [hframe]
  · obtain ⟨-, u, hu, rfl⟩ := execTick_eq_next.1 ht
    obtain ⟨v, hv, rfl⟩ := hu.before_cntInc
    exact (lineAhead_of_txEdge h hd hv :)

/-- TICKs until the line rests send all that is ahead, where the bound allows for it (R75, R151). -/
theorem Inv.drainWithin_sends (h : Inv s) (hr : s.captureRunning = false) {n : Nat} (hn : (lineAhead s).length ≤ n) :
    ∃ t, drainWithin n s = .next t ∧ drained t = true ∧ t.observed = (lineAhead s).reverse ++ s.observed ∧
      t.keptByTimer = s.keptByTimer := by
  induction n generalizing s with
  | zero =>
    have hd : drained s = true := by
      by_contra hd
      rw [lineAhead_of_not_drained (Bool.eq_false_iff.2 hd)] at hn
      simp at hn
    exact ⟨s, rfl, hd, by rw [lineAhead_of_drained hd]; rfl, rfl⟩
  | succ n ih =>
    rw [drainWithin]
    cases hd : drained s with
    | true => exact ⟨s, rfl, hd, by rw [lineAhead_of_drained hd]; rfl, rfl⟩
    | false =>
      obtain ⟨t, ht, hinv, hrt, hobs, hahead⟩ := h.tick_sends hr hd
      have hnt : (lineAhead t).length ≤ n := by
        rw [hahead] at hn
        exact Nat.le_of_succ_le_succ hn
      obtain ⟨u, hu, hrests, hline, hkept⟩ := ih hinv hrt hnt
      refine ⟨u, ?_, hrests, ?_, hkept.trans (keptByTimer_of_execTick ht)⟩
      · rw [if_neg Bool.false_ne_true, exec, ht, andThen_next, hu]
      · rw [hline, hobs, hahead, List.reverse_cons, List.append_assoc, List.singleton_append]

/-- R221's bound: what is left of the frame in progress, a frame for every buffered byte, and one tick to idle. -/
theorem length_lineAhead_le (s : State) : (lineAhead s).length ≤ (s.ringCount + 1) * s.cfg.frameTicks := by
  have hrest : (restOfFrame s.cfg s.tsr s.st).length + 1 ≤ s.cfg.frameTicks := by
    cases s.st with
    | idle | txend | startbit | databit i | stopbit k =>
      simp only [restOfFrame, List.length_nil, List.length_append, length_bitLevels, List.length_replicate,
        Config.frameTicks]
      omega
  have hqueue : (s.contents.flatMap (frameLevels s.cfg)).length = s.ringCount * s.cfg.frameTicks := by
    simp [List.length_flatMap, length_frameLevels, length_contents]
  cases hd : drained s with
  | true => simp [lineAhead_of_drained hd]
  | false =>
    rw [lineAhead_of_not_drained hd, List.length_append, List.length_append, hqueue, List.length_singleton, Nat.succ_mul]
    omega

/-- DRAIN comes to rest and sends all that is ahead; it touches nothing that is not the timer's (R75, R221). -/
theorem Inv.drain_sends (h : Inv s) (hr : s.captureRunning = false) :
    ∃ t, drain s = .next t ∧ drained t = true ∧ t.observed = (lineAhead s).reverse ++ s.observed ∧
      t.keptByTimer = s.keptByTimer :=
  h.drainWithin_sends hr (length_lineAhead_le s)

end

/-! ### From the mailbox to the wire -/

/-- A receiver reads a PulseWord's fields back (R60). -/
theorem readWord_pulseWord (l : Level) {d : BitVec 15} (hd : d ≠ 0#15) : readWord (pulseWord l d) = .ok (.word l d) := by
  have hw : pulseWord l d ≠ 0#16 := fun hz => hd (by rw [← pulseWord_duration l d, hz]; rfl)
  simp only [readWord, decode, decodePulseWord, hw, if_false, pulseWord_duration, hd, pulseWord_level]

/-- The word of an interval is read as its PulseWord: the inverse of the sampled level, and the clamped duration (R60, R62,
decisions D8, D9). -/
theorem readWord_encodeWord (l : Level) {dur : Word} (hd : dur ≠ 0#16) :
    readWord (encodeWord l dur) = .ok (.word (!l) ((clampDuration dur).setWidth 15)) := by
  have hne := encodeWord_duration_ne_zero l hd
  rw [encodeWord_eq_pulseWord, pulseWord_duration] at hne
  rw [encodeWord_eq_pulseWord, readWord_pulseWord _ hne]

/-- The duration field holds the clamped duration (R61). -/
theorem clampDuration_field (dur : Word) : ((clampDuration dur).setWidth 15).toNat = min dur.toNat 0x7FFF := by
  rw [BitVec.toNat_setWidth, Nat.mod_eq_of_lt (clampDuration_lt dur), clampDuration_toNat]

/-- A word's bytes, low byte first, pair to the word (R41). -/
theorem pairWords_bytes (w : Word) : pairWords [loByte w, hiByte w] = [w] := by
  rw [pairWords, ofBytes_hi_lo, pairWords]

/-- Settles O55: ENCODE stores the two bytes of the encoded word, DRAIN sends their frames, and the receiver pairs them. -/
theorem capturedIntervalReachesTheWire : Obligations.CapturedIntervalReachesTheWire := by
  intro s h hr hst hrw hcap hph hd
  have he : s.ringEmpty = true := by simp [State.ringEmpty, hrw]
  have hroom : s.ringCount + 2 < s.cfg.ringCap := by
    rw [(ringEmpty_iff h.rd_lt h.wr_lt).1 he]
    omega
  have hencode := h.encodeOnce_of_room hr hph hd hroom
  have hinv := h.safe_encodeOnce.of_next hencode
  obtain ⟨u, hdrain, -, hobs, hkept⟩ := hinv.drain_sends hr
  simp only [State.keptByTimer, Prod.mk.injEq] at hkept
  obtain ⟨hsample, hphase, -⟩ := hkept
  have hread := hinv.receive_lineAhead (.inl hst)
  rw [h.contents_sampleStored hroom, h.contents_of_empty he, List.nil_append] at hread
  exact ⟨_, u, _, _, hencode, hdrain, hobs, (congrArg pairWords hread).trans (pairWords_bytes _),
    by rw [hsample]; rfl, hphase, _, readWord_encodeWord _ hd, clampDuration_field _⟩

end Sys2Proof.Machine

/-! PROOFS. The encodings (30_encoding.md R60 to R64, R67, R70 to R73, R77): each format's pattern is its fields and nothing
else, so decoding and encoding are inverse to each other; then what a scheduled descriptor does. -/

namespace Sys2Proof

/-! ### Fields of a pattern -/

/-- A single bit as a field. -/
theorem ofBool_getLsbD_eq_extractLsb' {n : Nat} (w : BitVec n) (i : Nat) :
    BitVec.ofBool (w.getLsbD i) = w.extractLsb' i 1 := by
  ext j hj
  obtain rfl : j = 0 := by omega
  simp

/-! ### Operations -/

/-- The operations without an operand, by their `sel` (R71). -/
def nullaryOps : List (BitVec 3 × Instr) :=
  [(0, .reset), (1, .tick), (3, .encTake), (4, .encLo), (5, .encHi), (7, .pop)]

/-- `sel` is that of EDGE, of PUSH, or of an operation without an operand (R71). -/
theorem sel_cases (sel : BitVec 3) : sel = 2 ∨ sel = 6 ∨ ∃ p ∈ nullaryOps, p.1 = sel := by
  revert sel
  decide

theorem encode_nullaryOps {p : BitVec 3 × Instr} (hp : p ∈ nullaryOps) : encode p.2 = opDescriptor p.1 0#8 := by
  revert p
  decide

section
variable (sel : BitVec 3) (operand : Byte)

@[simp] theorem opDescriptor_sel : (opDescriptor sel operand).bits.extractLsb' 8 3 = sel := by
  have hsel : (0#5 ++ sel).extractLsb' 0 3 = sel := BitVec.extractLsb'_append_eq_right
  exact (BitVec.extractLsb'_append_eq_of_le (Nat.le_refl 8)).trans hsel

@[simp] theorem opDescriptor_above : (opDescriptor sel operand).bits.extractLsb' 11 5 = 0#5 := by
  have habove : (0#5 ++ sel).extractLsb' 3 5 = 0#5 := BitVec.extractLsb'_append_eq_left
  exact (BitVec.extractLsb'_append_eq_of_le (by decide : 8 ≤ 11)).trans habove

/-- A pattern of 11 bits is its `sel` and its operand (R71). -/
theorem opDescriptor_of_bits {w : BitVec 16} (h : w.extractLsb' 11 5 = 0#5) :
    opDescriptor (w.extractLsb' 8 3) (w.extractLsb' 0 8) = ⟨.op, w⟩ := by
  have hhigh : 0#5 ++ w.extractLsb' 8 3 = w.extractLsb' 8 8 := by
    rw [← h]
    exact BitVec.extractLsb'_append_extractLsb'_eq_extractLsb' rfl
  have hall : w.extractLsb' 8 8 ++ w.extractLsb' 0 8 = w :=
    BitVec.extractLsb'_append_extractLsb'
  rw [opDescriptor, hhigh, hall]

/-- Decoding an operation reads its fields: nothing stands above them (R71). -/
theorem decode_opDescriptor : decode (opDescriptor sel operand) = decodeOp (opDescriptor sel operand).bits := rfl

theorem decode_nullaryOp {p : BitVec 3 × Instr} (hp : p ∈ nullaryOps) :
    decode (opDescriptor p.1 operand) = noOperand operand p.2 := by
  simp only [nullaryOps, List.mem_cons, List.not_mem_nil, or_false] at hp
  rcases hp with rfl | rfl | rfl | rfl | rfl | rfl <;> simp [decode_opDescriptor, decodeOp, opDescriptor_operand]

theorem decode_edgeOp : decode (opDescriptor 2 operand) =
    if operand.extractLsb' 1 7 = 0#7 then .ok (.edge (operand.getLsbD 0)) else .error .operandNotZero := by
  simp [decode_opDescriptor, decodeOp, opDescriptor_operand]

theorem decode_pushOp : decode (opDescriptor 6 operand) = .ok (.push operand) := by
  simp [decode_opDescriptor, decodeOp, opDescriptor_operand]

end

/-- The operand of EDGE is its level, with zeros above (R71). -/
theorem edgeOperand_of_bits {operand : Byte} (h : operand.extractLsb' 1 7 = 0#7) :
    0#7 ++ BitVec.ofBool (operand.getLsbD 0) = operand := by
  rw [← h, ofBool_getLsbD_eq_extractLsb']
  exact BitVec.extractLsb'_append_extractLsb'

theorem edgeOperand_toNat_lt (l : Level) : (0#7 ++ BitVec.ofBool l).toNat < 2 := by
  cases l <;> decide

theorem noOperand_eq_ok {operand : Byte} {i j : Instr} :
    noOperand operand i = .ok j ↔ operand = 0#8 ∧ i = j := by
  unfold noOperand
  split <;> simp [*]

/-- An operation's descriptor is the one encoding of what it decodes to (R71). -/
theorem encode_of_decode_opDescriptor {sel : BitVec 3} {operand : Byte} {i : Instr}
    (h : decode (opDescriptor sel operand) = .ok i) : encode i = opDescriptor sel operand := by
  rcases sel_cases sel with rfl | rfl | ⟨p, hp, rfl⟩
  · rw [decode_edgeOp] at h
    split at h
    next hlevel =>
      cases h
      exact congrArg (opDescriptor 2) (edgeOperand_of_bits hlevel)
    next => cases h
  · rw [decode_pushOp] at h
    cases h
    rfl
  · rw [decode_nullaryOp _ hp, noOperand_eq_ok] at h
    obtain ⟨rfl, rfl⟩ := h
    exact encode_nullaryOps hp

theorem encode_of_decodeOp {w : BitVec 16} {i : Instr} (h : decodeOp w = .ok i) : encode i = ⟨.op, w⟩ := by
  have habove : w.extractLsb' 11 5 = 0#5 := by
    by_contra hne
    simp [decodeOp, hne] at h
  have hdecode : decode ⟨.op, w⟩ = .ok i := h
  rw [← opDescriptor_of_bits habove] at hdecode ⊢
  exact encode_of_decode_opDescriptor hdecode

/-! ### UART states -/

/-- The rows of TX_STEP, in the order of their numbers (R72). -/
def txRows : List Instr :=
  [.txIdle, .txStart, .txData0, .txData1, .txData2, .txData3, .txData4, .txData5, .txData6, .txData7, .txStop0, .txStop1,
   .txEnd]

/-- A number of four bits is that of a row of TX_STEP, or names no state (R72, R73). -/
theorem decode_txDescriptor (n : BitVec 4) :
    decode (txDescriptor n) = (txRows[n.toNat]?).elim (.error .illegalUartState) .ok := by
  revert n
  decide

theorem encode_of_txRows {n : BitVec 4} {i : Instr} (h : txRows[n.toNat]? = some i) : encode i = txDescriptor n := by
  have hrows : ∀ n : BitVec 4, ∀ j ∈ txRows[n.toNat]?, encode j = txDescriptor n := by decide
  exact hrows n i h

theorem encode_of_decode_txDescriptor {n : BitVec 4} {i : Instr} (h : decode (txDescriptor n) = .ok i) :
    encode i = txDescriptor n := by
  rw [decode_txDescriptor] at h
  cases hrow : txRows[n.toNat]? with
  | none => simp [hrow] at h
  | some j =>
    obtain rfl : j = i := by simpa [hrow] using h
    exact encode_of_txRows hrow

/-- A pattern of four bits is its number (R72). -/
theorem txDescriptor_of_bits {w : BitVec 16} (h : w.extractLsb' 4 12 = 0#12) :
    txDescriptor (w.extractLsb' 0 4) = ⟨.txstate, w⟩ := by
  have hall : 0#12 ++ w.extractLsb' 0 4 = w := by
    rw [← h]
    exact BitVec.extractLsb'_append_extractLsb'
  rw [txDescriptor, hall]

theorem encode_of_decodeTxState {w : BitVec 16} {i : Instr} (h : decodeTxState w = .ok i) :
    encode i = ⟨.txstate, w⟩ := by
  have habove : w.extractLsb' 4 12 = 0#12 := by
    by_contra hne
    simp [decodeTxState, hne] at h
  have hdecode : decode ⟨.txstate, w⟩ = .ok i := h
  rw [← txDescriptor_of_bits habove] at hdecode ⊢
  exact encode_of_decode_txDescriptor hdecode

/-! ### PulseWords -/

theorem encode_of_decodePulseWord {w : BitVec 16} {i : Instr} (h : decodePulseWord w = .ok i) :
    WellFormed i ∧ encode i = ⟨.pulseword, w⟩ := by
  unfold decodePulseWord at h
  split at h
  next => cases h
  next =>
    split at h
    next => cases h
    next hd =>
      cases h
      have hall : BitVec.ofBool (w.getLsbD 15) ++ w.extractLsb' 0 15 = w := by
        rw [ofBool_getLsbD_eq_extractLsb']
        exact BitVec.extractLsb'_append_extractLsb'
      exact ⟨bne_iff_ne.2 hd, congrArg (Descriptor.mk .pulseword) hall⟩

/-! ### Frames -/

/-- The pattern of a frame with the data quanta `a` (R64). -/
def framePattern (a : Byte) : BitVec 16 := 0#5 ++ a ++ 7#3

theorem encode_frame (b : Byte) : encode (.frame b) = ⟨.frame, framePattern (timeOrder b)⟩ := rfl

theorem decodeFrame_framePattern (a : Byte) : decodeFrame (framePattern a) = .ok (.frame (timeOrder a)) := by
  revert a
  decide

/-- A frame's pattern is its data quanta between the start bit and the stop quanta (R64). -/
theorem framePattern_of_bits {w : BitVec 16} (habove : w.extractLsb' 12 4 = 0#4) (hstart : w.getLsbD 11 = false)
    (hstop : w.extractLsb' 0 3 = 7#3) : framePattern (w.extractLsb' 3 8) = w := by
  have hhigh : w.extractLsb' 11 5 = 0#5 := by
    have hbit : w.extractLsb' 11 1 = 0#1 := by
      rw [← ofBool_getLsbD_eq_extractLsb', hstart]
      rfl
    have happend : w.extractLsb' 12 4 ++ w.extractLsb' 11 1 = w.extractLsb' 11 5 :=
      BitVec.extractLsb'_append_extractLsb'_eq_extractLsb' rfl
    rw [← happend, habove, hbit]
    rfl
  have hdata : 0#5 ++ w.extractLsb' 3 8 = w.extractLsb' 3 13 := by
    rw [← hhigh]
    exact BitVec.extractLsb'_append_extractLsb'_eq_extractLsb' rfl
  rw [framePattern, hdata, ← hstop]
  exact BitVec.extractLsb'_append_extractLsb'

theorem encode_of_decodeFrame {w : BitVec 16} {i : Instr} (h : decodeFrame w = .ok i) : encode i = ⟨.frame, w⟩ := by
  unfold decodeFrame at h
  split at h
  next => cases h
  next habove =>
    split at h
    next hquanta =>
      cases h
      obtain ⟨hstart, hstop⟩ := hquanta
      rw [encode_frame, timeOrder_timeOrder, framePattern_of_bits (not_not.1 habove) hstart hstop]
    next => cases h

/-! ### The reserved word -/

theorem encode_of_decodeReserved {w : BitVec 16} {i : Instr} (h : decodeReserved w = .ok i) :
    encode i = ⟨.reserved, w⟩ := by
  unfold decodeReserved at h
  split at h
  next hw =>
    cases h
    rw [hw]
    rfl
  next => cases h

/-! ### Both directions -/

/-- Only a PulseWord has an operand that its type does not bound (R60). -/
theorem wellFormed_of_fmt {i : Instr} (h : (encode i).fmt ≠ .pulseword) : WellFormed i := by
  cases i with
  | word l d => exact absurd rfl h
  | reset | tick | edge _ | encTake | encLo | encHi | push _ | pop | txIdle | txStart | txData0 | txData1 | txData2 | txData3
  | txData4 | txData5 | txData6 | txData7 | txStop0 | txStop1 | txEnd | frame _ | oobPrefix => rfl

theorem wellFormed_and_encode {i : Instr} {d : Descriptor} (he : encode i = d) (hf : d.fmt ≠ .pulseword) :
    WellFormed i ∧ encode i = d :=
  ⟨wellFormed_of_fmt (he ▸ hf), he⟩

/-- Settles O7: format by format, a pattern that decodes is made of the fields it decodes to. -/
theorem encodeDecodeRoundTrip : Obligations.EncodeDecodeRoundTrip := by
  rintro ⟨fmt, w⟩ i h
  cases fmt with
  | op => exact wellFormed_and_encode (encode_of_decodeOp h) (by simp)
  | txstate => exact wellFormed_and_encode (encode_of_decodeTxState h) (by simp)
  | pulseword => exact encode_of_decodePulseWord h
  | frame => exact wellFormed_and_encode (encode_of_decodeFrame h) (by simp)
  | reserved => exact wellFormed_and_encode (encode_of_decodeReserved h) (by simp)

/-- Settles O6: the fields of an encoded instruction are read back; a row of a fixed pattern is its own table word. -/
theorem decodeEncodeRoundTrip : Obligations.DecodeEncodeRoundTrip := by
  intro i hi
  cases i with
  | edge l => cases l <;> rfl
  | push b => exact decode_pushOp b
  | word l d => exact Machine.readWord_pulseWord l (bne_iff_ne.1 hi)
  | frame b => exact (decodeFrame_framePattern (timeOrder b)).trans (by rw [timeOrder_timeOrder])
  | reset | tick | encTake | encLo | encHi | pop | txIdle | txStart | txData0 | txData1 | txData2 | txData3 | txData4
  | txData5 | txData6 | txData7 | txStop0 | txStop1 | txEnd | oobPrefix => rfl

/-- Settles O5: each of these words is an instruction's encoding, written out. -/
theorem tableWordsDecode : Obligations.TableWordsDecode := by
  have decodes (i : Instr) (hi : WellFormed i) : decode (encode i) = .ok i := decodeEncodeRoundTrip i hi
  exact ⟨decodes .reset rfl, decodes .tick rfl, decodes (.edge true) rfl, decodes (.edge false) rfl, decodes .encTake rfl,
    decodes .encLo rfl, decodes .encHi rfl, decodes (.push 0x64) rfl, decodes .pop rfl, decodes .txIdle rfl,
    decodes .txStart rfl, decodes .txData6 rfl, decodes .txStop1 rfl, decodes .txEnd rfl, decodes (.word true 100) rfl,
    decodes (.word false 0x7FFF) rfl, decodes (.frame 0x64) rfl, decodes .oobPrefix rfl, decodes (.word false 0x0664) rfl,
    decodes (.push 0x64) rfl⟩

/-- What the host's port answers is what the descriptor of its reading decodes to (log 18). -/
theorem decode_of_decodeTableWord {nbits w : Nat} {i : Instr} (h : decodeTableWord nbits w = some i) :
    ∃ d, tableDescriptor nbits w = some d ∧ decode d = .ok i := by
  unfold decodeTableWord at h
  split at h
  next => cases h
  next d hd =>
    refine ⟨d, hd, ?_⟩
    cases hr : decode d with
    | ok j => simpa [hr, Except.toOption] using h
    | error r => simp [hr, Except.toOption] at h

/-- Settles O8: an operand that is not the one of the table, a number of no state, and the two words without a duration. -/
theorem reservedEncodingsRejected : Obligations.ReservedEncodingsRejected := by
  refine ⟨fun sel operand hedge hpush hne => ?_, fun operand hle => ?_, fun n hn => ?_, rfl, rfl⟩
  · obtain ⟨p, hp, rfl⟩ := ((sel_cases sel).resolve_left hedge).resolve_left hpush
    rw [decode_nullaryOp _ hp, noOperand, if_neg hne]
  · have hbits : operand.extractLsb' 1 7 ≠ 0#7 := by
      intro hz
      have hlt := edgeOperand_toNat_lt (operand.getLsbD 0)
      rw [edgeOperand_of_bits hz] at hlt
      omega
    rw [decode_edgeOp, if_neg hbits]
  · have hrow : txRows[n.toNat]? = none := List.getElem?_eq_none hn
    rw [decode_txDescriptor, hrow]
    rfl

end Sys2Proof

namespace Sys2Proof.Machine

/-! ### Scheduled descriptors -/

/-- Settles O4: the step takes the descriptor off the schedule and finds no instruction in it. -/
theorem undecodableDescriptorRefused : Obligations.UndecodableDescriptorRefused := by
  intro s d r es hsched hd
  simp only [step, runNext, hsched, runEvent, hd]

/-- Placed, a descriptor that decodes is performed by the next step, with what selects its operation set (R77). -/
theorem step_place {d : Descriptor} {i : Instr} (hd : decode d = .ok i) (s : State) :
    step (place d s) = exec i (select i s) := by
  have hplace : place d s = { select i s with sched := .op d :: (select i s).sched } := by simp only [place, hd]
  rw [hplace]
  exact stepPerformsScheduledOperation _ d i _ rfl hd

/-- Settles O2: the reading the port answers with is the descriptor that is placed. -/
theorem placedTableWordRunsNext : Obligations.PlacedTableWordRunsNext := by
  intro s nbits w i h
  obtain ⟨d, hd, hdecode⟩ := decode_of_decodeTableWord h
  simp only [State.withFetchWord, placeTableWord, hd, Option.getD_some]
  exact step_place hdecode s

/-- Settles O54: the row has no meaning in any state. -/
theorem outOfBandPrefixRefused : Obligations.OutOfBandPrefixRefused := fun _ => rfl

/-! ### The encoded word -/

/-- The number a word made of two bytes is (R41). -/
theorem ofBytes_toNat (hi lo : Byte) : (Word.ofBytes hi lo).toNat = hi.toNat * 256 + lo.toNat := by
  rw [Word.ofBytes, BitVec.toNat_append, ← Nat.shiftLeft_add_eq_or_of_lt lo.isLt, Nat.shiftLeft_eq]

/-- Settles O27: the encoded word is the inverse level before the clamped duration, and its two bytes. -/
theorem encodedWordFields : Obligations.EncodedWordFields := by
  intro l d
  refine ⟨?_, ?_, ?_⟩
  · rw [encodeWord_eq_pulseWord, pulseWord_level]
  · rw [encodeWord_eq_pulseWord, pulseWord_duration, clampDuration_field]
  · rw [← ofBytes_toNat, ofBytes_hi_lo]

/-- Settles O53: a sample that is taken has a duration, a sound state holds such a word until its bytes are pushed, and
WORD refuses any other. -/
theorem zeroWordIsNeverSent : Obligations.ZeroWordIsNeverSent := by
  refine ⟨fun s t ht hph => ?_, fun s h hph => ?_, fun l s => rfl⟩
  · obtain ⟨-, htake, rfl⟩ := execEncTake_eq_next.1 ht
    split at hph
    next hready =>
      have hd : s.sample.duration ≠ 0#16 := by simpa [State.sampleReady] using hready
      rw [if_pos hready]
      exact encodeWord_duration_ne_zero _ hd
    next => simp [htake] at hph
  · rw [ofBytes_hi_lo]
    exact h.word_duration (by rcases hph with hph | hph <;> simp [hph])

end Sys2Proof.Machine

/-! PROOFS. Frames and the gaps between them (30_encoding.md R64, R66, R69, 43_uart_tx.md R151, R152): what a TICK outside a
split capture touches, the TICKs of a resting line, and the FRAME_TICKS TICKs that send one byte. -/

namespace Sys2Proof.Machine

/-! ### The receiver passes over the gaps -/

theorem receive_gap (c : Config) (n : Nat) (ls : List Level) :
    receive c .scan (List.replicate n c.markLevel ++ ls) = receive c .scan ls := by
  induction n with
  | zero => rfl
  | succ n ih =>
    rw [List.replicate_succ, List.cons_append, receive, if_pos rfl]
    exact ih

/-- Settles O50: frame by frame, the receiver passes over the gap at MARK and reads the byte. -/
theorem receiverReadsFramesBack : Obligations.ReceiverReadsFramesBack := by
  intro c fs n
  induction fs with
  | nil => simpa [receive] using receive_gap c n []
  | cons f fs ih =>
    rw [List.flatMap_cons, List.append_assoc, List.append_assoc, receive_gap, receive_frame, ih, List.map_cons]

/-! ### What a TICK outside a split capture touches -/

/-- The state `s` with what the timer owns taken from `t`: the counter, the transmitter, the read cursor, the notes and the
record of the line (R51, R91). -/
def State.withTimerOf (s t : State) : State :=
  { s with
    cnt := t.cnt, ovf := t.ovf, st := t.st, tsr := t.tsr, txPin := t.txPin, rd := t.rd, notes := t.notes,
    observed := t.observed }

section
variable {s t : State}

/-- Outside a split capture a TICK is not marked as one that fell inside it (R96). -/
theorem withTimerOf_of_execTick (hr : s.captureRunning = false) (h : execTick s = .next t) : t = s.withTimerOf t := by
  have hwindow : s.captureWindow = false := by simp [State.captureWindow, hr]
  have hcounted : (cntInc s).captureWindow = false := hwindow
  rw [execTick_frame h]
  simp only [recordTick, hcounted, Bool.or_false]
  rfl

theorem captureRunning_of_withTimerOf (h : t = s.withTimerOf t) : t.captureRunning = s.captureRunning := by
  rw [h]
  rfl

/-- A TICK starts no split capture (R96). -/
theorem captureRunning_of_execTick (hr : s.captureRunning = false) (h : execTick s = .next t) :
    t.captureRunning = false :=
  (captureRunning_of_withTimerOf (withTimerOf_of_execTick hr h)).trans hr

theorem withTimerOf_of_ticks {n : Nat} (hr : s.captureRunning = false) (h : ticks n s = .next t) :
    t = s.withTimerOf t := by
  induction n generalizing s with
  | zero =>
    cases h
    rfl
  | succ n ih =>
    obtain ⟨u, hu, ht⟩ := andThen_eq_next.1 h
    have hut := ih (captureRunning_of_execTick hr hu) ht
    rw [withTimerOf_of_execTick hr hu] at hut
    exact hut

/-- Every TICK counts (R92). -/
theorem cnt_of_ticks {n : Nat} (h : ticks n s = .next t) : t.cnt = s.cnt + BitVec.ofNat 16 n := by
  induction n generalizing s with
  | zero =>
    cases h
    simp
  | succ n ih =>
    obtain ⟨u, hu, ht⟩ := andThen_eq_next.1 h
    have hcnt : u.cnt = s.cnt + 1#16 := by
      rw [execTick_frame hu]
      rfl
    rw [ih ht, hcnt, BitVec.add_assoc, ← BitVec.ofNat_add, Nat.add_comm]

/-! ### A resting line -/

theorem drained_iff : drained s = true ↔ s.st = .idle ∧ s.rd = s.wr := by
  simp [drained, State.ringEmpty]

/-- A TICK of a resting line counts and records MARK, and no more (R69, R141). -/
theorem Inv.execTick_of_drained (h : Inv s) (hr : s.captureRunning = false) (hd : drained s = true) :
    execTick s = .next (recordTick (cntInc s)) := by
  obtain ⟨hst, hrw⟩ := drained_iff.1 hd
  have he : s.ringEmpty = true := by simp [State.ringEmpty, hrw]
  have hpin := h.mark_at_rest (.inl hst)
  have hidle : cntInc s = { cntInc s with txPin := s.cfg.markLevel, st := .idle } := by
    rw [← hpin, ← hst]
    rfl
  exact execTick_eq_next.2 ⟨tickBarred_of_not_running hr, _, .toIdle (.inl hst) he hidle, rfl⟩

/-- A resting line stays at rest and at MARK (R69, R151). -/
theorem Inv.ticks_of_drained (h : Inv s) (hr : s.captureRunning = false) (hd : drained s = true) (n : Nat) :
    ∃ t, ticks n s = .next t ∧ t.observed = List.replicate n s.cfg.markLevel ++ s.observed ∧ drained t = true := by
  induction n generalizing s with
  | zero => exact ⟨s, rfl, rfl, hd⟩
  | succ n ih =>
    have htick := h.execTick_of_drained hr hd
    have hpin := h.mark_at_rest (.inl (drained_iff.1 hd).1)
    have hrun := captureRunning_of_execTick hr htick
    obtain ⟨t, ht, hobs, hrests⟩ := ih (h.safe_execTick.of_next htick) hrun hd
    refine ⟨t, by rw [ticks_succ, htick, andThen_next, ht], ?_, hrests⟩
    rw [hobs, List.replicate_succ', List.append_assoc, State.recordTick_observed, State.cntInc_txPin, hpin]
    rfl

/-- At a frame boundary with a byte in the ring, a TICK begins the byte's frame (R149). -/
theorem Inv.execTick_begins (h : Inv s) (hr : s.captureRunning = false) (hst : s.st = .idle ∨ s.st = .txend)
    (he : s.ringEmpty = false) : execTick s = .next (recordTick (cntInc (Machine.frameBegun s))) :=
  execTick_eq_next.2 ⟨tickBarred_of_not_running hr, _, .begin hst he h.rd_lt rfl, rfl⟩

/-- A byte pushed at rest is stored, and its frame begins with the next TICK (R151, R217). -/
theorem Inv.push_of_drained (h : Inv s) (hr : s.captureRunning = false) (hd : drained s = true) (b : Byte) :
    exec (.push b) s = .next (byteStored b s) ∧
      exec .tick (byteStored b s) = .next (recordTick (cntInc (Machine.frameBegun (byteStored b s)))) := by
  obtain ⟨hst, hrw⟩ := drained_iff.1 hd
  have he : s.ringEmpty = true := by simp [State.ringEmpty, hrw]
  have hcount : s.ringCount = 0 := (ringEmpty_iff h.rd_lt h.wr_lt).1 he
  have hroom : s.ringCount + 1 < s.cfg.ringCap := by
    rw [hcount]
    exact two_le_ringCap s.cfg
  have hinv := inv_byteStored h b
  have hfilled : (byteStored b s).ringEmpty = false := by
    rw [← Bool.not_eq_true, ringEmpty_iff hinv.rd_lt hinv.wr_lt, ringCount_byteStored hroom]
    exact Nat.succ_ne_zero _
  exact ⟨(execPush_of_not_running hr b).trans (h.pushByte_of_room hroom b), hinv.execTick_begins hr (.inl hst) hfilled⟩

end

/-- Settles O47: the TICKs of a resting line leave it at rest, and from there a pushed byte's frame begins at the next. -/
theorem idleLineStaysAtMark : Obligations.IdleLineStaysAtMark := by
  intro n s h hr hst hrw
  obtain ⟨t, ht, hobs, hd⟩ := h.ticks_of_drained hr (drained_iff.2 ⟨hst, hrw⟩) n
  obtain ⟨hidle, hempty⟩ := drained_iff.1 hd
  have hinv : Inv t := (h.safe_ticks n).of_next ht
  have hcfg : t.cfg = s.cfg := cfg_of_ticks ht
  have hrt := (captureRunning_of_withTimerOf (withTimerOf_of_ticks hr ht)).trans hr
  refine ⟨t, ht, hobs, hidle, hempty, fun b => ?_⟩
  obtain ⟨hpush, htick⟩ := hinv.push_of_drained hrt hd b
  have hpin : t.txPin = s.cfg.markLevel := (hinv.mark_at_rest (.inl hidle)).trans (congrArg _ hcfg)
  have hbyte : (byteStored b t).slotByte t.rd = b := by rw [hempty, slotByte_byteStored_wr]
  exact ⟨_, _, hpush, hidle, hpin, htick, rfl, hbyte, congrArg Config.spaceLevel hcfg⟩

/-! ### One frame -/

section
variable {s t : State}

/-- Within a frame the ring is not touched, and the transmitter does not come to idle (R142 to R146). -/
theorem TxEdge.in_frame (e : TxEdge s t) (hidle : s.st ≠ .idle) (hend : s.st ≠ .txend) :
    t.st ≠ .idle ∧ t.rd = s.rd ∧ t.contents = s.contents := by
  have hin : ¬(s.st = .idle ∨ s.st = .txend) := not_or.2 ⟨hidle, hend⟩
  cases e with
  | toIdle hst _ _ => exact absurd hst hin
  | begin hst _ _ _ => exact absurd hst hin
  | start _ ht | data _ _ _ _ ht | lastData _ ht | stop _ _ _ ht | lastStop _ ht =>
    subst ht
    exact ⟨by simp [bitDriven], rfl, rfl⟩

/-- A frame is over only at its boundary (R64). -/
theorem Inv.st_of_restOfFrame (h : Inv s) (hrest : restOfFrame s.cfg s.tsr s.st = []) : s.st = .idle ∨ s.st = .txend := by
  cases hst : s.st with
  | idle => exact .inl rfl
  | txend => exact .inr rfl
  | startbit | databit i => simp [hst, restOfFrame] at hrest
  | stopbit k =>
    have hk : k ≤ s.cfg.stopN := by simpa [hst, UartState.legal] using h.st_legal
    simp only [hst, restOfFrame, List.replicate_eq_nil_iff] at hrest
    omega

/-- Within a frame a TICK puts the frame's next level on the line (R155, R189). -/
theorem Inv.tick_in_frame (h : Inv s) (hr : s.captureRunning = false) (hidle : s.st ≠ .idle) (hend : s.st ≠ .txend) :
    ∃ t, execTick s = .next t ∧ t.st ≠ .idle ∧ t.rd = s.rd ∧ t.observed = t.txPin :: s.observed ∧
      restOfFrame s.cfg s.tsr s.st = t.txPin :: restOfFrame t.cfg t.tsr t.st := by
  obtain ⟨t, ht, -, -, hobs, hahead⟩ := h.tick_sends hr (drained_of_ne_idle hidle)
  obtain ⟨hst, hrd, hqueue⟩ : t.st ≠ .idle ∧ t.rd = s.rd ∧ t.contents = s.contents := by
    obtain ⟨-, u, hu, rfl⟩ := execTick_eq_next.1 ht
    exact hu.in_frame hidle hend
  refine ⟨t, ht, hst, hrd, hobs, ?_⟩
  rw [lineAhead_of_not_drained (drained_of_ne_idle hidle), lineAhead_of_not_drained (drained_of_ne_idle hst), hqueue,
    cfg_of_execTick ht, ← List.cons_append] at hahead
  rw [cfg_of_execTick ht]
  exact List.append_cancel_right hahead

/-- The TICKs that are left of a frame put its remaining levels on the line and end in `txend`; no byte is taken (R152). -/
theorem Inv.ticks_end_frame (h : Inv s) (hr : s.captureRunning = false) (hidle : s.st ≠ .idle) {n : Nat}
    (hn : (restOfFrame s.cfg s.tsr s.st).length = n) :
    ∃ t, ticks n s = .next t ∧ t.st = .txend ∧ t.rd = s.rd ∧
      t.observed = (restOfFrame s.cfg s.tsr s.st).reverse ++ s.observed := by
  induction n generalizing s with
  | zero =>
    have hover := List.length_eq_zero_iff.1 hn
    exact ⟨s, rfl, (h.st_of_restOfFrame hover).resolve_left hidle, rfl, by rw [hover]; rfl⟩
  | succ n ih =>
    have hend : s.st ≠ .txend := by
      intro hst
      simp [hst, restOfFrame] at hn
    obtain ⟨u, hu, hst, hrd, hobs, hrest⟩ := h.tick_in_frame hr hidle hend
    have hru := captureRunning_of_execTick hr hu
    have hleft : (restOfFrame u.cfg u.tsr u.st).length = n := by simpa [hrest] using hn
    obtain ⟨t, ht, htend, htrd, hline⟩ := ih (h.safe_execTick.of_next hu) hru hst hleft
    refine ⟨t, by rw [ticks_succ, hu, andThen_next, ht], htend, htrd.trans hrd, ?_⟩
    rw [hline, hobs, hrest, List.reverse_cons, List.append_assoc, List.singleton_append]

/-- From a frame boundary, FRAME_TICKS TICKs send the frame of the head byte and take that byte (R152, R153). -/
theorem Inv.ticks_send_frame (h : Inv s) (hr : s.captureRunning = false) (hst : s.st = .idle ∨ s.st = .txend)
    (he : s.ringEmpty = false) :
    ∃ t, ticks s.cfg.frameTicks s = .next t ∧ t.st = .txend ∧ t.rd = s.nextCursor s.rd ∧
      t.observed = (frameLevels s.cfg (s.slotByte s.rd)).reverse ++ s.observed := by
  have htick := h.execTick_begins hr hst he
  have hru := captureRunning_of_execTick hr htick
  have hlen : s.cfg.frameTicks = (restOfFrame s.cfg (s.slotByte s.rd) .startbit).length + 1 :=
    (length_frameLevels s.cfg (s.slotByte s.rd)).symm
  have hinv := h.safe_execTick.of_next htick
  obtain ⟨t, ht, hend, hrd, hobs⟩ := hinv.ticks_end_frame hru (by simp [Machine.frameBegun]) rfl
  refine ⟨t, ?_, hend, hrd, ?_⟩
  · rw [hlen, ticks_succ, htick]
    exact ht
  · rw [hobs, frameLevels_eq, List.reverse_cons, List.append_assoc]
    rfl

end

/-- Settles O48: the first TICK takes the byte and drives the start bit, and the others send the rest of its frame. -/
theorem frameCarriesItsByte : Obligations.FrameCarriesItsByte := by
  intro b s h hr hst hrw hread
  have he : s.ringEmpty = false := by simp [State.ringEmpty, hrw]
  obtain ⟨t, ht, hend, hrd, hobs⟩ := h.ticks_send_frame hr hst he
  rw [slotByte_of_read hread] at hobs
  have hinv : Inv t := (h.safe_ticks _).of_next ht
  have hframe : exec (.frame b) s = .next t := by
    have hnext : atFrameBoundary s = true := by simpa [atFrameBoundary] using hst
    have hhead : headIs b s = true := by simp [headIs, he, hread]
    exact execFrame_eq_next.2 ⟨hnext, hhead, ht⟩
  refine ⟨t, ht, hframe, hobs, cnt_of_ticks ht, ?_⟩
  have htsr : t.tsr = 0#8 := hinv.tsr_done (.inl hend)
  have hpin : t.txPin = s.cfg.markLevel := (hinv.mark_at_rest (.inr (.inl hend))).trans (congrArg _ (cfg_of_ticks ht))
  have hrd' : t.rd = (s.rd + 1) % s.cfg.ringCap := hrd
  rw [← hend, ← htsr, ← hpin, ← hrd']
  exact withTimerOf_of_ticks hr ht

end Sys2Proof.Machine

/-! PROOFS. The counter (40_capture.md R91 to R93): what a TICK is, and how many TICKs every operation but EDGE and RESET
adds to it. -/

namespace Sys2Proof.Machine

/-! ### One TICK -/

section
variable {s t u : State}

/-- A TICK is CNT_INC and its record after the edge that TX_STEP takes (R91). -/
theorem txStep_of_execTick (h : execTick s = .next t) : ∃ v, txStep s = .next v ∧ t = recordTick (cntInc v) := by
  obtain ⟨-, u, hu, rfl⟩ := execTick_eq_next.1 h
  obtain ⟨v, hv, rfl⟩ := hu.before_cntInc
  exact ⟨v, txStep_eq_next.2 hv, rfl⟩

theorem cntWraps_iff : s.cntWraps = true ↔ s.cnt = 0xFFFF#16 := by simp [State.cntWraps, Config.sentinel]

/-! ### Counted TICKs -/

/-- From `s` to `t` the counter was advanced by `n` TICKs: `ovf` stays set, or is set where the counter passes 2^16
(R92, R93). -/
structure TicksCounted (n : Nat) (s t : State) : Prop where
  cnt : t.cnt = s.cnt + BitVec.ofNat 16 n
  ovf : t.ovf = true ↔ s.ovf = true ∨ 65536 ≤ s.cnt.toNat + n

theorem ticksCounted_zero (hcnt : t.cnt = s.cnt) (hovf : t.ovf = s.ovf) : TicksCounted 0 s t where
  cnt := by simp [hcnt]
  ovf := by
    have hlt : ¬ 65536 ≤ s.cnt.toNat + 0 := Nat.not_le.2 s.cnt.isLt
    rw [hovf, or_iff_left hlt]

theorem TicksCounted.cnt_toNat {n : Nat} (h : TicksCounted n s t) : t.cnt.toNat = (s.cnt.toNat + n) % 65536 := by
  simp [h.cnt]

theorem TicksCounted.trans {m n : Nat} (hm : TicksCounted m s u) (hn : TicksCounted n u t) : TicksCounted (m + n) s t where
  cnt := by rw [hn.cnt, hm.cnt, BitVec.add_assoc, ← BitVec.ofNat_add]
  ovf := by
    have hpasses : 65536 ≤ s.cnt.toNat + m ∨ 65536 ≤ (s.cnt.toNat + m) % 65536 + n ↔ 65536 ≤ s.cnt.toNat + (m + n) := by
      omega
    rw [hn.ovf, hm.ovf, hm.cnt_toNat, or_assoc, hpasses]

theorem ticksCounted_of_execTick (h : execTick s = .next t) : TicksCounted 1 s t := by
  rw [execTick_frame h]
  refine ⟨rfl, ?_⟩
  have hwraps : s.cntWraps = true ↔ 65536 ≤ s.cnt.toNat + 1 := by
    have := s.cnt.isLt
    rw [cntWraps_iff, ← BitVec.toNat_inj, show (0xFFFF#16).toNat = 65535 from rfl]
    omega
  simp [State.ovfAfterTick, hwraps]

theorem ticksCounted_of_ticks {n : Nat} (h : ticks n s = .next t) : TicksCounted n s t := by
  induction n generalizing s with
  | zero =>
    cases h
    exact ticksCounted_zero rfl rfl
  | succ n ih =>
    obtain ⟨u, hu, ht⟩ := andThen_eq_next.1 h
    exact Nat.add_comm 1 n ▸ (ticksCounted_of_execTick hu).trans (ih ht)

theorem ticksCounted_of_mainLoop {i : Instr} (hi : performer i = .mainLoop) (h : exec i s = .next t) :
    TicksCounted 0 s t := by
  have hk := keptByMainLoop_of_exec hi h
  simp only [State.keptByMainLoop, Prod.mk.injEq] at hk
  obtain ⟨hcnt, hovf, -⟩ := hk
  exact ticksCounted_zero hcnt hovf

/-- Every operation but EDGE and RESET advances the counter by the TICKs it performs, and by no more (R92, R95). -/
theorem ticksCounted_of_exec {i : Instr} (hr : i ≠ .reset) (he : ∀ l, i ≠ .edge l) (h : exec i s = .next t) :
    TicksCounted (tickCount s.cfg i) s t := by
  cases i with
  | reset => exact absurd rfl hr
  | edge l => exact absurd rfl (he l)
  | tick => exact ticksCounted_of_execTick h
  | frame b =>
    obtain ⟨-, -, hticks⟩ := execFrame_eq_next.1 h
    exact ticksCounted_of_ticks hticks
  | pop =>
    obtain ⟨-, -, -, rfl⟩ := execPop_eq_next.1 h
    exact ticksCounted_zero rfl rfl
  | encTake | encLo | encHi | push _ | word _ _ | oobPrefix => exact ticksCounted_of_mainLoop rfl h
  | txIdle | txStart | txData0 | txData1 | txData2 | txData3 | txData4 | txData5 | txData6 | txData7 | txStop0 | txStop1
  | txEnd =>
    rw [exec_txRow rfl] at h
    have hf := txStep_frame (whenSelected_eq_next.1 h).2
    rw [hf]
    exact ticksCounted_zero rfl rfl

/-- The TICKs of a list of operations are those of each of them (R95). -/
theorem ticksCounted_of_runTrace {is : List Instr} (his : ∀ i ∈ is, i ≠ .reset ∧ ∀ l, i ≠ .edge l)
    (h : runTrace (is.map .op) s = .next t) : TicksCounted (is.map (tickCount s.cfg)).sum s t ∧ t.cfg = s.cfg := by
  induction is generalizing s with
  | nil =>
    cases h
    exact ⟨ticksCounted_zero rfl rfl, rfl⟩
  | cons i is ih =>
    obtain ⟨u, hu, ht⟩ := andThen_eq_next.1 h
    obtain ⟨⟨hr, he⟩, htail⟩ := List.forall_mem_cons.1 his
    have hcfg : u.cfg = s.cfg := cfg_of_exec hu
    obtain ⟨hcount, hcfg'⟩ := ih htail ht
    rw [hcfg] at hcount
    exact ⟨(ticksCounted_of_exec hr he hu).trans hcount, hcfg'.trans hcfg⟩

end

/-- Settles O16: a TICK that completes is TX_STEP, which leaves the counter alone, and then CNT_INC. -/
theorem tickCountsAndSteps : Obligations.TickCountsAndSteps := by
  intro s h hb
  obtain ⟨t, ht⟩ := execTick_completes hb h.st_legal h.rd_lt
  obtain ⟨v, hv, rfl⟩ := txStep_of_execTick ht
  refine ⟨_, v, ht, hv, ?_⟩
  have hnotes : (if s.cntWraps then s.notes.count .counterOverflow else s.notes) =
      if s.cnt = 0xFFFF#16 then s.notes.count .counterOverflow else s.notes := by simp only [cntWraps_iff]
  rw [txStep_frame hv]
  exact ⟨rfl, rfl, hnotes, rfl, rfl, rfl, rfl, rfl, rfl, rfl, rfl, rfl, rfl, rfl, rfl, rfl, rfl, rfl, rfl, rfl, rfl, rfl,
    rfl, rfl, rfl⟩

end Sys2Proof.Machine

/-! PROOFS. The capture in both forms (40_capture.md R94 to R98): what EDGE refuses, what the capture stores, and the split
form's micro-steps with no TICK between them. -/

namespace Sys2Proof.Machine

/-! ### EDGE -/

section
variable {l : Level} {s t : State}

/-- A change to the level the pin already has is no transition, in either form (R94). -/
theorem execEdge_same_level (s : State) : execEdge s.irLevel s = .refused .edgeNotTransition := by
  simp [execEdge, edgeAtomic, pinChange]

theorem execEdge_masked (ha : s.cfg.captureAtomic = true) (hp : s.pce = false) :
    execEdge (!s.irLevel) s = .refused .pinEventsMasked := by
  simp [execEdge, edgeAtomic, ha, hp]

/-- EDGE in the atomic form is the capture (R94). -/
theorem execEdge_atomic_eq_next (ha : s.cfg.captureAtomic = true) :
    execEdge l s = .next t ↔ l ≠ s.irLevel ∧ s.pce = true ∧ t = capture l s := by
  simp [execEdge_eq_next, edgeAtomic_eq_next, ha]

/-- EDGE in the split form is PIN (R96). -/
theorem execEdge_split (ha : s.cfg.captureAtomic = false) (l : Level) : execEdge l s = pinChange l s := by
  simp [execEdge, ha]

/-- The notes of a capture: an overwritten sample and a zero duration, each on its own (R173, R174). -/
theorem captureNotes_eq (s : State) : captureNotes s = { s.notes with
    mailboxOverrun := s.notes.mailboxOverrun + if s.sample.duration = 0#16 then 0 else 1
    zeroDuration := s.notes.zeroDuration + if s.ovf = false ∧ s.cnt = 0#16 then 1 else 0 } := by
  have hready : s.sampleReady = true ↔ ¬ s.sample.duration = 0#16 := by simp [State.sampleReady]
  have hzero : (captureDuration s.ovf s.cnt == 0#16) = true ↔ s.ovf = false ∧ s.cnt = 0#16 := by
    rw [beq_iff_eq, captureDuration_eq_zero]
  simp only [captureNotes, hready, hzero]
  split <;> split <;> simp_all [Notes.count]

/-! ### The split form without a TICK inside -/

/-- The state after PIN entered the handler (R96). -/
def pinEntered (l : Level) (s : State) : State := { s with irLevel := l, pce := false, capPh := .cap1 }

theorem pinChange_idle_eq_next (hp : s.pce = true) (hnone : s.capPh = .none) :
    pinChange l s = .next t ↔ l ≠ s.irLevel ∧ t = pinEntered l s := by
  simp [pinChange_eq_next, hp, hnone, pinEntered]

/-- CAP1 to CAP5 with no TICK inside do what the capture does (R94, R96). -/
theorem capSteps_five_pinEntered (l : Level) (s : State) : capSteps 5 (pinEntered l s) = { capture l s with
    pce := false, capPh := .cap6, tOvf := s.ovf, tCnt := s.cnt, capTicked := false } := rfl

/-- CAP6 ends the capture, or enters the handler again for a remembered transition (R96). -/
theorem capStep_cap6 (h : s.capPh = .cap6) : capStep s = { s with
    pce := !s.edgePending
    capPh := if s.edgePending then .cap1 else .none
    edgePending := false
    capDeferred := s.edgePending } := by
  cases hpend : s.edgePending <;> simp [capStep, h, hpend, maskPinEvents, unmaskPinEvents]

/-- The whole split capture with no TICK inside; a remembered transition enters the handler again (R96). -/
theorem capSteps_six_pinEntered (l : Level) (s : State) : capSteps 6 (pinEntered l s) = { capture l s with
    pce := !s.edgePending
    capPh := if s.edgePending then .cap1 else .none
    edgePending := false
    tOvf := s.ovf
    tCnt := s.cnt
    capTicked := false
    capDeferred := s.edgePending } :=
  calc capSteps 6 (pinEntered l s) = capStep (capSteps 5 (pinEntered l s)) := rfl
    _ = _ := by
      rw [capSteps_five_pinEntered, capStep_cap6 rfl]
      rfl

/-- EDGE into an idle, enabled handler, with the micro-steps of the split form, stores what the capture stores and zeroes
what it zeroes (R94, R96, R98). -/
theorem capSteps_six_of_execEdge (ha : s.cfg.captureAtomic = false) (hp : s.pce = true) (hnone : s.capPh = .none)
    (h : execEdge l s = .next t) :
    (capSteps 6 t).sample = (capture l s).sample ∧ (capSteps 6 t).cnt = 0#16 ∧ (capSteps 6 t).ovf = false := by
  rw [execEdge_split ha, pinChange_idle_eq_next hp hnone] at h
  obtain ⟨-, rfl⟩ := h
  rw [capSteps_six_pinEntered]
  exact ⟨rfl, rfl, rfl⟩

/-! ### The duration that is captured -/

/-- After a counter that overflowed the sentinel is stored, with the flag (R94). -/
theorem capture_sample_of_ovf (l : Level) (ho : s.ovf = true) : (capture l s).sample = ⟨l, Config.sentinel, true⟩ := by
  simp [capture_eq, ho]

/-- The captured duration is the number of TICKs counted from zero, or the sentinel (R95). -/
theorem TicksCounted.capture_duration {n : Nat} (h : TicksCounted n s t) (hcnt : s.cnt = 0#16) (hovf : s.ovf = false)
    (l : Level) : (capture l t).sample.duration.toNat = min n 0xFFFF := by
  have hmod : t.cnt.toNat = n % 65536 := by simpa [hcnt] using h.cnt_toNat
  have hover : t.ovf = true ↔ 65536 ≤ n := by simpa [hcnt, hovf] using h.ovf
  simp only [capture_eq]
  cases ho : t.ovf with
  | true =>
    have hn := hover.1 ho
    rw [captureDuration_true, show Config.sentinel.toNat = 0xFFFF from rfl]
    omega
  | false =>
    have hn : ¬ 65536 ≤ n := fun hn => by simp [hover.2 hn] at ho
    rw [captureDuration_false, hmod]
    omega

/-- TICKs leave the handler idle and enabled (R91, R96). -/
theorem idle_handler_of_ticks {n : Nat} (hp : s.pce = true) (hnone : s.capPh = .none) (h : ticks n s = .next t) :
    t.pce = true ∧ t.capPh = .none := by
  have hrun : s.captureRunning = false := by simp [State.captureRunning, hnone]
  rw [withTimerOf_of_ticks hrun h]
  exact ⟨hp, hnone⟩

/-- An interval of 65536 TICKs or more is captured as the sentinel, in both forms (R93, R96). -/
theorem sample_of_long_interval {u : State} {n : Nat} (hn : 65536 ≤ n) (ht : ticks n s = .next t)
    (hu : execEdge l t = .next u) :
    (s.cfg.captureAtomic = true → u.sample = ⟨l, Config.sentinel, true⟩) ∧
    (s.cfg.captureAtomic = false → s.pce = true → s.capPh = .none →
      (capSteps 6 u).sample = ⟨l, Config.sentinel, true⟩) := by
  have hcfg : t.cfg = s.cfg := cfg_of_ticks ht
  have ho : t.ovf = true := (ticksCounted_of_ticks ht).ovf.2 (.inr (by omega))
  refine ⟨fun ha => ?_, fun ha hp hnone => ?_⟩
  · rw [← hcfg] at ha
    obtain ⟨-, -, rfl⟩ := (execEdge_atomic_eq_next ha).1 hu
    exact capture_sample_of_ovf l ho
  · rw [← hcfg] at ha
    obtain ⟨htp, htnone⟩ := idle_handler_of_ticks hp hnone ht
    obtain ⟨hsample, -, -⟩ := capSteps_six_of_execEdge ha htp htnone hu
    exact hsample.trans (capture_sample_of_ovf l ho)

/-- Of the micro-steps CAP5 alone clears a set flag (R96). -/
theorem capPh_of_ovf_cleared (ho : s.ovf = true) (hc : (capStep s).ovf = false) : s.capPh = .cap5 := by
  cases hph : s.capPh with
  | cap5 => rfl
  | cap6 => simp [capStep_cap6 hph, ho] at hc
  | none | cap1 | cap2 | cap3 | cap4 => simp [capStep, hph, ho] at hc

end

/-- Settles O17: no TICK and no operation but EDGE and RESET clears a set flag, and 65536 TICKs set it. -/
theorem overflowFlagIsSticky : Obligations.OverflowFlagIsSticky := by
  refine ⟨fun n s t h ho => (ticksCounted_of_ticks h).ovf.2 (.inl ho), fun i s t h ho hc => ?_,
    fun s => capPh_of_ovf_cleared, fun m n l s t u t' u' hm hn ht hu ht' hu' => ?_⟩
  · by_contra hi
    obtain ⟨hr, he⟩ := not_or.1 hi
    have hset := (ticksCounted_of_exec hr (not_exists.1 he) h).ovf.2 (.inl ho)
    simp [hset] at hc
  · obtain ⟨hatomic, hsplit⟩ := sample_of_long_interval hm ht ht'
    obtain ⟨hatomic', hsplit'⟩ := sample_of_long_interval hn hu hu'
    refine ⟨fun ha => ?_, fun ha hp hnone => ?_⟩
    · rw [hatomic ha, hatomic' ha]
      exact ⟨rfl, rfl⟩
    · rw [hsplit ha hp hnone, hsplit' ha hp hnone]
      exact ⟨rfl, rfl⟩

/-- Settles O19: the operations advance the counter by their TICKs, and both forms of EDGE capture it. -/
theorem durationIsNumberOfTicks : Obligations.DurationIsNumberOfTicks := by
  intro is s t his hcnt hovf h
  obtain ⟨hcount, hcfg⟩ := ticksCounted_of_runTrace his h
  refine ⟨by simpa [hcnt] using hcount.cnt_toNat, by simpa [hcnt, hovf] using hcount.ovf, fun l u hu => ?_⟩
  have hdur := hcount.capture_duration hcnt hovf l
  rw [← hcfg] at hdur ⊢
  refine ⟨fun ha => ?_, fun ha hp hnone => ?_⟩
  · obtain ⟨-, -, rfl⟩ := (execEdge_atomic_eq_next ha).1 hu
    exact ⟨hdur, rfl, rfl, rfl⟩
  · obtain ⟨hsample, hzeroed⟩ := capSteps_six_of_execEdge ha hp hnone hu
    rw [hsample]
    exact ⟨hdur, rfl, hzeroed⟩

/-- Settles O21: EDGE is the capture, whose notes are counted apart. -/
theorem edgeCapturesTheInterval : Obligations.EdgeCapturesTheInterval := by
  rintro l s ha hp rfl
  refine ⟨_, (execEdge_atomic_eq_next ha).2 ⟨by simp, hp, rfl⟩, ?_⟩
  have hnotes : (capture (!s.irLevel) s).notes = captureNotes s := rfl
  refine ⟨by simp [capture_eq, captureDuration, Config.sentinel, hp], ?_⟩
  rw [hnotes, captureNotes_eq]
  exact ⟨rfl, rfl, rfl, rfl, rfl⟩

/-- Settles O22: both refusals are EDGE's own. -/
theorem edgeStopsWhereNotEnabled : Obligations.EdgeStopsWhereNotEnabled := fun s =>
  ⟨execEdge_same_level s, execEdge_masked⟩

/-- Settles O24: PIN enters an idle, enabled handler; elsewhere the policy decides what becomes of the transition. -/
theorem splitPinEntersOrMasks : Obligations.SplitPinEntersOrMasks := by
  intro s ha
  have hl : (!s.irLevel) ≠ s.irLevel := by simp
  have hmasked : s.pce = false ∨ s.capPh ≠ .none → ¬(s.pce = true ∧ s.capPh = .none) := by
    rintro (hp | hrun) ⟨hp', hnone⟩
    · simp [hp] at hp'
    · exact hrun hnone
  have hpin : exec (.edge (!s.irLevel)) s = pinChange (!s.irLevel) s := execEdge_split ha _
  rw [hpin]
  refine ⟨fun hp hnone => pinChange_eq_next.2 ⟨hl, .inl ⟨hp, hnone, rfl⟩⟩,
    fun h hm => pinChange_eq_next.2 ⟨hl, .inr ⟨hmasked h, ?_⟩⟩,
    fun h hm => pinChange_eq_next.2 ⟨hl, .inr ⟨hmasked h, ?_⟩⟩⟩
  · rw [hm]
  · rw [hm]

/-- Settles O25: with no transition remembered, CAP6 ends the capture with events enabled. -/
theorem splitCaptureWithoutTickIsTheCapture : Obligations.SplitCaptureWithoutTickIsTheCapture := by
  intro l s t ha hp hnone hpend h
  refine ⟨_, rfl, ?_⟩
  simp only [exec, execEdge_split ha, pinChange_idle_eq_next hp hnone] at h
  obtain ⟨-, rfl⟩ := h
  rw [capSteps_six_pinEntered, hpend]
  simp [capture_eq, hpend, hnone]

end Sys2Proof.Machine

/-! PROOFS. TICKs inside the split capture (40_capture.md R96, R97): what the micro-steps that are left store and zero after
a TICK at each place, and the deferred capture under every order of the agents' turns (70_reset_and_hazards.md R216). -/

namespace Sys2Proof.Machine

section
variable {s t : State}

/-! ### The micro-steps that are left -/

theorem capSteps_succ (n : Nat) (s : State) : capSteps (n + 1) s = capSteps n (capStep s) := rfl

theorem capSteps_add (m n : Nat) (s : State) : capSteps (m + n) s = capSteps n (capSteps m s) := by
  induction m generalizing s with
  | zero => rw [Nat.zero_add, capSteps]
  | succ m ih => rw [Nat.succ_add, capSteps_succ, capSteps_succ, ih]

theorem capStep_cap1 (h : s.capPh = .cap1) : capStep s = State.noteIf s.sampleReady .mailboxOverrun
    { s with sample := { s.sample with level := s.irLevel }, capPh := .cap2, capTicked := false } := by
  simp [capStep, h]

theorem capStep_cap2 (h : s.capPh = .cap2) : capStep s = { s with tOvf := s.ovf, capPh := .cap3 } := by
  simp [capStep, h]

theorem capStep_cap4 (h : s.capPh = .cap4) : capStep s = { s with cnt := 0#16, capPh := .cap5 } := by
  simp [capStep, h]

theorem capStep_cap5 (h : s.capPh = .cap5) : capStep s = { s with ovf := false, capPh := .cap6 } := by
  simp [capStep, h]

/-- The flag `o` and the count `c` were read and the duration is stored; CAP4 is next (R96). -/
structure IntervalRead (o : Bool) (c : Word) (s : State) : Prop where
  capPh : s.capPh = .cap4
  tOvf : s.tOvf = o
  tCnt : s.tCnt = c
  duration : s.sample.duration = captureDuration o c

theorem intervalRead_of_cap3 (h : s.capPh = .cap3) : IntervalRead s.tOvf s.cnt (capStep s) := by
  constructor <;> simp [capStep, h]

theorem intervalRead_of_cap2 (h : s.capPh = .cap2) : IntervalRead s.ovf s.cnt (capSteps 2 s) := by
  have hread := intervalRead_of_cap3 (s := capStep s) (by rw [capStep_cap2 h])
  rw [capStep_cap2 h] at hread
  rw [capSteps_succ, capStep_cap2 h]
  exact hread

theorem intervalRead_of_cap1 (h : s.capPh = .cap1) : IntervalRead s.ovf s.cnt (capSteps 3 s) := by
  have hread := intervalRead_of_cap2 (s := capStep s) (by rw [capStep_cap1 h]; rfl)
  rw [capStep_cap1 h] at hread
  rw [capSteps_succ, capStep_cap1 h]
  exact hread

/-- From `s` to `t` what was read and stored stays; the counter comes to `c` and the flag is clear (R96). -/
structure IntervalClosed (c : Word) (s t : State) : Prop where
  tCnt : t.tCnt = s.tCnt
  sample : t.sample = s.sample
  cnt : t.cnt = c
  ovf : t.ovf = false

theorem intervalClosed_of_cap6 (h : s.capPh = .cap6) (ho : s.ovf = false) : IntervalClosed s.cnt s (capStep s) := by
  rw [capStep_cap6 h]
  exact ⟨rfl, rfl, rfl, ho⟩

theorem intervalClosed_of_cap5 (h : s.capPh = .cap5) : IntervalClosed s.cnt s (capSteps 2 s) := by
  rw [capSteps_succ, capStep_cap5 h]
  exact { intervalClosed_of_cap6 (s := { s with ovf := false, capPh := .cap6 }) rfl rfl with }

theorem intervalClosed_of_cap4 (h : s.capPh = .cap4) : IntervalClosed 0#16 s (capSteps 3 s) := by
  rw [capSteps_succ, capStep_cap4 h]
  exact { intervalClosed_of_cap5 (s := { s with cnt := 0#16, capPh := .cap5 }) rfl with }

/-! ### A TICK inside -/

/-- A TICK counts and leaves the capture and what it read where they are (R91, R96). -/
theorem capture_fields_of_execTick (h : execTick s = .next t) : t.capPh = s.capPh ∧ t.sample = s.sample ∧
    t.tOvf = s.tOvf ∧ t.edgePending = s.edgePending ∧ t.capDeferred = s.capDeferred ∧ t.cnt = s.cnt + 1#16 ∧
    t.ovf = s.ovfAfterTick := by
  rw [execTick_frame h]
  exact ⟨rfl, rfl, rfl, rfl, rfl, rfl, rfl⟩

theorem ovfAfterTick_of_cnt_zero (h : s.cnt = 0#16) : s.ovfAfterTick = s.ovf := by
  simp [State.ovfAfterTick, State.cntWraps, h, Config.sentinel]

/-- After a TICK between CAP1 and CAP6 the next TICK of that capture is refused (R96, U15). -/
theorem second_execTick_refused (hw : s.captureWindow = true) (h : execTick s = .next t) :
    execTick t = .refused .secondTickInCapture := by
  have hb : t.tickBarred = (s.captureWindow && (s.capTicked || s.captureWindow)) := by
    rw [execTick_frame h]
    rfl
  simp [execTick, hb, hw]

/-! ### The deferred capture -/

/-- A deferred capture that has not read the counter yet, with zero or one TICK counted (R216). -/
structure AtMostOneTick (s : State) : Prop where
  deferred : s.capDeferred = true
  cnt : s.cnt = 0#16 ∨ s.cnt = 1#16
  ovf : s.ovf = false

/-- The deferred capture, so many CAP turns after the capture before it stood at CAP6 with a transition remembered. -/
inductive DeferredAt (s : State) : Nat → Prop
  | remembered (hph : s.capPh = .cap6) (hpend : s.edgePending = true) : DeferredAt s 0
  | entered (hph : s.capPh = .cap1) (hone : AtMostOneTick s) : DeferredAt s 1
  | levelRead (hph : s.capPh = .cap2) (hone : AtMostOneTick s) : DeferredAt s 2
  | flagRead (hph : s.capPh = .cap3) (hone : AtMostOneTick s) (hflag : s.tOvf = false) : DeferredAt s 3
  | stored (hph : s.capPh = .cap4) (hdef : s.capDeferred = true)
      (hdur : s.sample.duration = 0#16 ∨ s.sample.duration = 1#16) : DeferredAt s 4

theorem DeferredAt.captureRunning {k : Nat} (hd : DeferredAt s k) (ha : s.cfg.captureAtomic = false) :
    s.captureRunning = true := by
  refine captureRunning_iff.2 ⟨ha, ?_⟩
  cases hd with
  | remembered hph _ | entered hph _ | levelRead hph _ | flagRead hph _ _ | stored hph _ _ => simp [hph]

/-- The timer's turn is taken only while the deferred capture has no TICK (R216; log 15). -/
theorem AtMostOneTick.of_execTick (h : AtMostOneTick s) (hu : s.deferredUnread = true) (hw : s.timerWaits = false)
    (ht : execTick s = .next t) : AtMostOneTick t := by
  have hcnt : s.cnt = 0#16 := by simpa [State.timerWaits, hu] using (Bool.or_eq_false_iff.1 hw).2
  obtain ⟨-, -, -, -, hdef, htcnt, htovf⟩ := capture_fields_of_execTick ht
  refine ⟨hdef.trans h.deferred, .inr ?_, ?_⟩
  · rw [htcnt, hcnt]
    rfl
  · rw [htovf, ovfAfterTick_of_cnt_zero hcnt, h.ovf]

theorem DeferredAt.of_execTick {k : Nat} (hd : DeferredAt s k) (ha : s.cfg.captureAtomic = false)
    (hw : s.timerWaits = false) (ht : execTick s = .next t) : DeferredAt t k := by
  obtain ⟨htph, htsample, htflag, htpend, htdef, -, -⟩ := capture_fields_of_execTick ht
  have hone (h1 : AtMostOneTick s) (hph : s.capPh = .cap1 ∨ s.capPh = .cap2 ∨ s.capPh = .cap3) : AtMostOneTick t := by
    refine h1.of_execTick ?_ hw ht
    simp [State.deferredUnread, hd.captureRunning ha, h1.deferred, or_assoc, hph]
  cases hd with
  | remembered hph hpend => exact .remembered (htph.trans hph) (htpend.trans hpend)
  | entered hph h1 => exact .entered (htph.trans hph) (hone h1 (.inl hph))
  | levelRead hph h1 => exact .levelRead (htph.trans hph) (hone h1 (.inr (.inl hph)))
  | flagRead hph h1 hflag => exact .flagRead (htph.trans hph) (hone h1 (.inr (.inr hph))) (htflag.trans hflag)
  | stored hph hdef hdur => exact .stored (htph.trans hph) (htdef.trans hdef) (htsample ▸ hdur)

/-- A pin change during the capture moves the pin and is remembered at most (R96). -/
theorem DeferredAt.of_pinChange {k : Nat} {l : Level} (hd : DeferredAt s k) (ha : s.cfg.captureAtomic = false)
    (ht : pinChange l s = .next t) : DeferredAt t k := by
  obtain ⟨-, hrun⟩ := captureRunning_iff.1 (hd.captureRunning ha)
  obtain ⟨-, ⟨-, hnone, -⟩ | ⟨-, rfl⟩⟩ := pinChange_eq_next.1 ht
  · exact absurd hnone hrun
  · cases hd with
    | remembered hph hpend =>
      refine .remembered hph ?_
      cases s.cfg.maskedEdge with
      | deferred => rfl
      | lost => exact hpend
    | entered hph hone => exact .entered hph { hone with }
    | levelRead hph hone => exact .levelRead hph { hone with }
    | flagRead hph hone hflag => exact .flagRead hph { hone with } hflag
    | stored hph hdef hdur => exact .stored hph hdef hdur

theorem DeferredAt.capStep {k : Nat} (hd : DeferredAt s k) (h : Inv s) (hk : k < 4) : DeferredAt (capStep s) (k + 1) := by
  cases hd with
  | remembered hph hpend =>
    have hcnt : s.cnt = 0#16 ∨ s.cnt = 1#16 := (h.counted_since_zeroed (.inr hph)).imp_right fun hc => hc.1
    rw [capStep_cap6 hph, hpend]
    exact .entered rfl ⟨rfl, hcnt, h.cleared_flag hph⟩
  | entered hph hone =>
    rw [capStep_cap1 hph]
    exact .levelRead rfl { hone with }
  | levelRead hph hone =>
    rw [capStep_cap2 hph]
    exact .flagRead rfl { hone with } hone.ovf
  | flagRead hph hone hflag =>
    have hread := intervalRead_of_cap3 hph
    have hdef : (Machine.capStep s).capDeferred = s.capDeferred := by simp [Machine.capStep, hph]
    refine .stored hread.capPh (hdef.trans hone.deferred) ?_
    rw [hread.duration, hflag, captureDuration_false]
    exact hone.cnt
  | stored _ _ _ => exact absurd hk (Nat.lt_irrefl 4)

/-- Every turn but RESET's completes, and the capture's turn alone takes the deferred capture on (R187, R216). -/
theorem DeferredAt.runTurn {k : Nat} {x : Turn} (hd : DeferredAt s k) (h : Inv s) (ha : s.cfg.captureAtomic = false)
    (hx : x ≠ .reset) (hk : x = .capture → k < 4) :
    ∃ t, runTurn x s = .next t ∧ DeferredAt t (k + if x = .capture then 1 else 0) := by
  have hrun := hd.captureRunning ha
  cases x with
  | timer =>
    simp only [Machine.runTurn]
    cases hw : s.timerWaits with
    | true => exact ⟨s, rfl, hd⟩
    | false =>
      obtain ⟨t, ht⟩ := execTick_completes (tickBarred_of_not_timerWaits hw) h.st_legal h.rd_lt
      exact ⟨t, ht, hd.of_execTick ha hw ht⟩
  | pin =>
    have hturn : Machine.runTurn .pin s = pinChange (!s.irLevel) s := by
      simp only [Machine.runTurn, ha, Bool.false_and, Bool.false_eq_true, if_false]
      exact execEdge_split ha _
    have hpin := pinChange_eq_next.2 ⟨(by simp : (!s.irLevel) ≠ s.irLevel),
      .inr ⟨fun hidle => (captureRunning_iff.1 hrun).2 hidle.2, rfl⟩⟩
    exact ⟨_, hturn.trans hpin, hd.of_pinChange ha hpin⟩
  | capture => exact ⟨_, by simp only [Machine.runTurn, hrun, if_true], hd.capStep h (hk rfl)⟩
  | mainLoop => exact ⟨s, by simp only [Machine.runTurn, hrun, if_true], hd⟩
  | reset => exact absurd rfl hx

/-- However the turns fall, the CAP turns that are left bring the deferred capture to its stored sample (R216). -/
theorem DeferredAt.runTurns {ts : List Turn} {k : Nat} (hd : DeferredAt s k) (h : Inv s)
    (ha : s.cfg.captureAtomic = false) (hts : .reset ∉ ts) (hk : k + ts.count .capture = 4) :
    ∃ t, runTurns ts s = .next t ∧ DeferredAt t 4 := by
  induction ts generalizing s k with
  | nil =>
    obtain rfl : k = 4 := hk
    exact ⟨s, rfl, hd⟩
  | cons x xs ih =>
    obtain ⟨hx, hxs⟩ := not_or.1 (mt List.mem_cons.2 hts)
    rw [List.count_cons] at hk
    have hleft : x = .capture → k < 4 := by
      rintro rfl
      simp at hk
      omega
    obtain ⟨u, hu, hdu⟩ := hd.runTurn h ha (Ne.symm hx) hleft
    have hinv : Inv u := (h.safe_stepIn (stepIn_runTurn x s)).of_next hu
    have hau : u.cfg.captureAtomic = false := cfg_of_stepIn (stepIn_runTurn x s) hu ▸ ha
    have hcount : (k + if x = .capture then 1 else 0) + xs.count .capture = 4 := by
      simp only [beq_iff_eq] at hk
      omega
    obtain ⟨t, ht, hdt⟩ := ih hdu hinv hau hxs hcount
    exact ⟨t, by rw [Machine.runTurns, hu, andThen_next, ht], hdt⟩

/-! ### Each place of a TICK -/

/-- Before CAP2 and between CAP2 and CAP3 the flag is still to be read: the TICK is counted in this interval (R97). -/
theorem tick_before_cap3 {n : Nat} (hn : (s.capPh = .cap1 ∧ n = 3) ∨ (s.capPh = .cap2 ∧ n = 2))
    (h : execTick s = .next t) : IntervalRead s.ovfAfterTick (s.cnt + 1#16) (capSteps n t) := by
  obtain ⟨hph, -, -, -, -, hcnt, hovf⟩ := capture_fields_of_execTick h
  rw [← hcnt, ← hovf]
  rcases hn with ⟨hs, rfl⟩ | ⟨hs, rfl⟩
  · exact intervalRead_of_cap1 (hph.trans hs)
  · exact intervalRead_of_cap2 (hph.trans hs)

/-- Between the reading of the flag and of the counter the TICK is counted in this interval, but no wrap is seen (R97). -/
theorem tick_at_cap3 (hs : s.capPh = .cap3) (h : execTick s = .next t) :
    IntervalRead s.tOvf (s.cnt + 1#16) (capStep t) := by
  obtain ⟨hph, -, hflag, -, -, hcnt, -⟩ := capture_fields_of_execTick h
  rw [← hcnt, ← hflag]
  exact intervalRead_of_cap3 (hph.trans hs)

/-- What was read and stored is what the whole capture leaves (R96). -/
theorem IntervalRead.closed {o : Bool} {c : Word} (h : IntervalRead o c s) : (capSteps 3 s).tCnt = c ∧
    (capSteps 3 s).sample.duration = captureDuration o c ∧ (capSteps 3 s).cnt = 0#16 ∧ (capSteps 3 s).ovf = false := by
  have hc := intervalClosed_of_cap4 h.capPh
  exact ⟨hc.tCnt.trans h.tCnt, hc.sample ▸ h.duration, hc.cnt, hc.ovf⟩

/-- Between CAP3 and CAP4 the TICK is counted in neither interval (R97). -/
theorem tick_at_cap4 (hs : s.capPh = .cap4) (h : execTick s = .next t) :
    (capSteps 3 t).sample = s.sample ∧ (capSteps 3 t).cnt = 0#16 ∧ (capSteps 3 t).ovf = false := by
  obtain ⟨hph, hsample, -⟩ := capture_fields_of_execTick h
  have hc := intervalClosed_of_cap4 (hph.trans hs)
  exact ⟨hc.sample.trans hsample, hc.cnt, hc.ovf⟩

/-- After CAP4 the TICK is counted in the next interval (R97). -/
theorem tick_at_cap5 (hs : s.capPh = .cap5) (hz : s.cnt = 0#16) (h : execTick s = .next t) : t.ovf = s.ovf ∧
    (capSteps 2 t).sample = s.sample ∧ (capSteps 2 t).cnt = 1#16 ∧ (capSteps 2 t).ovf = false := by
  obtain ⟨hph, hsample, -, -, -, hcnt, hovf⟩ := capture_fields_of_execTick h
  have hc := intervalClosed_of_cap5 (hph.trans hs)
  rw [hz] at hcnt
  exact ⟨hovf.trans (ovfAfterTick_of_cnt_zero hz), hc.sample.trans hsample, hc.cnt.trans hcnt, hc.ovf⟩

theorem tick_at_cap6 (hs : s.capPh = .cap6) (hz : s.cnt = 0#16) (ho : s.ovf = false) (h : execTick s = .next t) :
    (capStep t).sample = s.sample ∧ (capStep t).cnt = 1#16 ∧ (capStep t).ovf = false := by
  obtain ⟨hph, hsample, -, -, -, hcnt, hovf⟩ := capture_fields_of_execTick h
  have hc := intervalClosed_of_cap6 (hph.trans hs) (hovf.trans ((ovfAfterTick_of_cnt_zero hz).trans ho))
  rw [hz] at hcnt
  exact ⟨hc.sample.trans hsample, hc.cnt.trans hcnt, hc.ovf⟩

theorem captureWindow_of_phase (ha : s.cfg.captureAtomic = false) (hrun : s.capPh ≠ .none) (hfirst : s.capPh ≠ .cap1) :
    s.captureWindow = true := by
  simp [State.captureWindow, captureRunning_iff.2 ⟨ha, hrun⟩, hfirst]

end

/-- Settles O26: place by place, the TICK and the micro-steps after it; then the deferred capture by induction over the
turns. -/
theorem tickInsideSplitCapture : Obligations.TickInsideSplitCapture := by
  refine ⟨fun s t ha h => ⟨fun n hn => ?_, fun hs => ?_, fun hs => tick_at_cap4 hs h, fun hs hz => tick_at_cap5 hs hz h,
    fun hs hz ho => tick_at_cap6 hs hz ho h,
    fun hrun hfirst => second_execTick_refused (captureWindow_of_phase ha hrun hfirst) h⟩,
    fun ts s h ha hph hpend hts hk => ?_, fun s hph => by rw [capStep_cap1 hph]; rfl⟩
  · have hread := tick_before_cap3 hn h
    obtain ⟨-, -, hcnt, hovf⟩ := hread.closed
    rw [capSteps_add]
    exact ⟨hread.tCnt, hread.tOvf, hread.duration, hcnt, hovf⟩
  · obtain ⟨htcnt, hdur, hcnt, hovf⟩ := (tick_at_cap3 hs h).closed
    refine ⟨htcnt, hdur, fun hflag hwraps => ?_, hcnt, hovf⟩
    rw [capSteps_succ, hdur, hflag, hwraps]
    rfl
  · obtain ⟨u, hu, hd⟩ := (DeferredAt.remembered hph hpend).runTurns h ha hts ((Nat.zero_add _).trans hk)
    cases hd with
    | stored huph hdef hdur => exact ⟨u, hu, huph, hdef, hdur⟩

end Sys2Proof.Machine

/-! PROOFS. The encoder's steps (41_encoder.md R110 to R116): where they are refused, that they complete at their phase, and
what ENCODE leaves of the sample (decisions D10, D16, D17). -/

namespace Sys2Proof.Machine

/-! ### Where a split capture or the phase bars an operation -/

section
variable {s : State}

/-- A PUSH into a ring with room waits for no split capture to run (R96, R129). -/
theorem execPush_of_not_full (hf : s.ringFull = false) (b : Byte) : execPush b s = outsideCapture s (pushByte b) := by
  simp [execPush, hf]

theorem execWord_of_ne_zero {d : BitVec 15} (hd : d ≠ 0#15) (l : Level) :
    execWord l d s = outsideCapture s (pushWord (pulseWord l d)) := if_neg hd

theorem atPhase_of_running (hr : s.captureRunning = true) (p : EncPhase) (k : State → Result) :
    atPhase p s k = .refused .captureRunning := outsideCapture_of_running hr _

/-- Away from its phase an encoder step is refused (R111, R113, R114). -/
theorem atPhase_of_ne {p : EncPhase} (hr : s.captureRunning = false) (hp : s.encPh ≠ p) (k : State → Result) :
    atPhase p s k = .refused .encPhaseNotSelected := by
  simp [atPhase, outsideCapture, hr, hp]

end

/-- Settles O32: each of the operations stands behind the guard of R96, and the encoder's steps behind their phase too. -/
theorem encoderStopsWhereNotEnabled : Obligations.EncoderStopsWhereNotEnabled := by
  refine fun s => ⟨fun hr => ⟨?take, ?lo, ?hi, fun b hf => ?push, ?pop, fun l d hd => ?word⟩,
    fun hr => ⟨fun hp => ?atTake, fun hp => ?atLo, fun hp => ?atHi⟩⟩
  case take | lo | hi => simp only [exec, execEncTake, execEncLo, execEncHi, atPhase_of_running hr]
  case pop => simp only [exec, execPop, outsideCapture_of_running hr]
  case push => exact (execPush_of_not_full hf b).trans (outsideCapture_of_running hr _)
  case word => exact (execWord_of_ne_zero hd l).trans (outsideCapture_of_running hr _)
  case atTake | atLo | atHi => simp only [exec, execEncTake, execEncLo, execEncHi, atPhase_of_ne hr hp]

/-! ### ENC_TAKE -/

section
variable {s t : State}

/-- The clamp is noted for a duration above 0x7FFF (R111, R175). -/
theorem durationClamped_iff (d : Word) : durationClamped d = true ↔ 0x7FFF < d.toNat := by
  simp [durationClamped, BitVec.lt_def, Config.wordDurMax]

/-- Taking a sample notes the clamp and no other condition (R111, R175). -/
theorem notes_sampleTaken (s : State) : (sampleTaken s).notes = { s.notes with
    durationClamp := s.notes.durationClamp + if 0x7FFF < s.sample.duration.toNat then 1 else 0 } := by
  simp only [sampleTaken, durationClamped_iff]
  split <;> rfl

/-- An empty mailbox with pin-change events enabled: ENC_TAKE changes nothing (R111). -/
theorem execEncTake_of_empty (hr : s.captureRunning = false) (hph : s.encPh = .take) (hp : s.pce = true)
    (hd : s.sample.duration = 0#16) : execEncTake s = .next s := by
  have hunmasked : s = { s with pce := true } := by rw [← hp]
  exact execEncTake_eq_next.2 ⟨hr, hph, by simpa [State.sampleReady, hd] using hunmasked⟩

theorem execEncTake_of_sample (hr : s.captureRunning = false) (hph : s.encPh = .take) (hd : s.sample.duration ≠ 0#16) :
    execEncTake s = .next (sampleTaken s) :=
  execEncTake_eq_next.2 ⟨hr, hph, by simp [State.sampleReady, hd]⟩

end

/-- Settles O28: the empty mailbox and the sample that is taken. -/
theorem encTakeDrainsTheMailbox : Obligations.EncTakeDrainsTheMailbox := by
  refine fun s hph hr hp => ⟨execEncTake_of_empty hr hph hp, fun hd => ?_⟩
  refine ⟨_, execEncTake_of_sample hr hph hd, ?_, ?_⟩
  · simp only [sampleTaken, hp]
  · rw [notes_sampleTaken]
    exact ⟨rfl, rfl, rfl, rfl, rfl⟩

/-! ### ENC_LO and ENC_HI -/

section
variable {s t : State}

theorem sample_of_pushByte {b : Byte} (h : pushByte b s = .next t) : t.sample = s.sample := by
  rcases pushByte_eq_next.1 h with ⟨-, rfl⟩ | ⟨-, -, rfl⟩ <;> rfl

/-- Unless it drops the whole word, ENC_LO is a push and a change of phase (R113, R115). -/
theorem Inv.execEncLo_pushes (h : Inv s) (hr : s.captureRunning = false) (hph : s.encPh = .lo)
    (hkeep : ¬(s.cfg.pushPolicy = .word ∧ s.ringFree < 2)) :
    ∃ u, pushByte (loByte s.encW) s = .next u ∧ execEncLo s = .next { u with encPh := .hi } := by
  obtain ⟨u, hu⟩ := pushByte_completes (loByte s.encW) h.wr_lt
  exact ⟨u, hu, execEncLo_eq_next.2 ⟨hr, hph, .inr ⟨hkeep, u, hu, rfl⟩⟩⟩

/-- Under the policy `word` with fewer than two free slots ENC_LO drops the whole word (R115). -/
theorem execEncLo_drops (hr : s.captureRunning = false) (hph : s.encPh = .lo) (hpolicy : s.cfg.pushPolicy = .word)
    (hfree : s.ringFree < 2) : execEncLo s = .next { s.noteIf true .ringFull with encPh := .take } :=
  execEncLo_eq_next.2 ⟨hr, hph, .inl ⟨hpolicy, hfree, rfl⟩⟩

theorem Inv.execEncHi_pushes (h : Inv s) (hr : s.captureRunning = false) (hph : s.encPh = .hi) :
    ∃ u, pushByte (hiByte s.encW) s = .next u ∧ execEncHi s = .next { u with encPh := .take } := by
  obtain ⟨u, hu⟩ := pushByte_completes (hiByte s.encW) h.wr_lt
  exact ⟨u, hu, execEncHi_eq_next.2 ⟨hr, hph, u, hu, rfl⟩⟩

/-- The main loop's operation completes wherever no split capture runs (R110, R116). -/
theorem Inv.mainLoop_completes (h : Inv s) (hr : s.captureRunning = false) :
    ∃ t, exec (mainLoopInstr s.encPh) s = .next t := by
  cases hph : s.encPh with
  | take => exact ⟨_, execEncTake_eq_next.2 ⟨hr, hph, rfl⟩⟩
  | lo =>
    by_cases hdrop : s.cfg.pushPolicy = .word ∧ s.ringFree < 2
    · exact ⟨_, execEncLo_drops hr hph hdrop.1 hdrop.2⟩
    · obtain ⟨u, -, hlo⟩ := h.execEncLo_pushes hr hph hdrop
      exact ⟨_, hlo⟩
  | hi =>
    obtain ⟨u, -, hhi⟩ := h.execEncHi_pushes hr hph
    exact ⟨_, hhi⟩

end

/-- Settles O30: outside a split capture a PUSH on its own is the push that ENC_LO and ENC_HI perform. -/
theorem encoderPushesBytesOnTheirOwn : Obligations.EncoderPushesBytesOnTheirOwn := by
  refine fun s h hr => ⟨fun hph hpolicy => ?_, fun hph => ?_⟩
  · obtain ⟨u, hu, hlo⟩ := h.execEncLo_pushes hr hph (by simp [hpolicy])
    exact ⟨_, u, hlo, (execPush_of_not_running hr _).trans hu, rfl⟩
  · obtain ⟨u, hu, hhi⟩ := h.execEncHi_pushes hr hph
    exact ⟨_, u, hhi, (execPush_of_not_running hr _).trans hu, rfl⟩

/-! ### ENCODE at most once -/

section
variable {s t : State}

/-- In a sound state pin-change events are enabled wherever no split capture runs (R96, R223 (j)). -/
theorem Inv.pce_of_not_running (h : Inv s) (hr : s.captureRunning = false) : s.pce = true := by
  cases ha : s.cfg.captureAtomic with
  | true => exact (h.atomic_form ha).1
  | false =>
    have hnone : s.capPh = .none := by simpa [State.captureRunning, ha] using hr
    rw [h.split_form ha, hnone]
    rfl

/-- ENC_TAKE leaves no sample, and stays at its phase where it took none (R111). -/
theorem mailbox_of_execEncTake (h : execEncTake s = .next t) :
    t.captureRunning = s.captureRunning ∧ t.sample.duration = 0#16 ∧ (t.encPh = .lo ∨ t.encPh = .take) := by
  obtain ⟨-, hph, rfl⟩ := execEncTake_eq_next.1 h
  split
  next => exact ⟨rfl, rfl, .inl rfl⟩
  next hready => exact ⟨rfl, by simpa [State.sampleReady] using hready, .inr hph⟩

/-- ENC_LO leaves the mailbox and comes to `hi`, or to `take` where it drops the word (R113, R115). -/
theorem mailbox_of_execEncLo (h : execEncLo s = .next t) :
    t.captureRunning = s.captureRunning ∧ t.sample = s.sample ∧ (t.encPh = .hi ∨ t.encPh = .take) := by
  obtain ⟨-, -, ⟨-, -, rfl⟩ | ⟨-, u, hu, rfl⟩⟩ := execEncLo_eq_next.1 h
  · exact ⟨rfl, rfl, .inr rfl⟩
  · exact ⟨(captureRunning_of_pushByte hu :), (sample_of_pushByte hu :), .inl rfl⟩

/-- ENC_HI leaves the mailbox and comes to `take` (R114). -/
theorem mailbox_of_execEncHi (h : execEncHi s = .next t) :
    t.captureRunning = s.captureRunning ∧ t.sample = s.sample ∧ t.encPh = .take := by
  obtain ⟨-, -, u, hu, rfl⟩ := execEncHi_eq_next.1 h
  exact ⟨(captureRunning_of_pushByte hu :), (sample_of_pushByte hu :), rfl⟩

/-- ENCODE leaves no sample and comes to `take`, whichever of its steps it performed (R110, R116). -/
theorem mailbox_of_encodeOnce (h : encodeOnce s = .next t) :
    t.captureRunning = s.captureRunning ∧ t.sample.duration = 0#16 ∧ t.encPh = .take := by
  obtain ⟨u, hu, hrest⟩ := encodeOnce_eq_next.1 h
  obtain ⟨hur, hud, hup⟩ := mailbox_of_execEncTake hu
  rcases hrest with ⟨hlo, rfl⟩ | ⟨-, v, hv, hrest⟩
  · exact ⟨hur, hud, hup.resolve_left hlo⟩
  obtain ⟨hvr, hvs, hvp⟩ := mailbox_of_execEncLo hv
  rcases hrest with ⟨hhi, rfl⟩ | ⟨-, ht⟩
  · exact ⟨hvr.trans hur, hvs ▸ hud, hvp.resolve_left hhi⟩
  · obtain ⟨htr, hts, htp⟩ := mailbox_of_execEncHi ht
    exact ⟨htr.trans (hvr.trans hur), hts ▸ hvs ▸ hud, htp⟩

/-- ENCODE completes at its phase: each of its steps is the main loop's next one (R110, R116). -/
theorem Inv.encodeOnce_completes (h : Inv s) (hr : s.captureRunning = false) (hph : s.encPh = .take) :
    ∃ t, encodeOnce s = .next t := by
  simp only [encodeOnce_eq_next]
  obtain ⟨u, hu⟩ := hph ▸ h.mainLoop_completes hr
  by_cases hlo : u.encPh = .lo
  · have hur := (mailbox_of_execEncTake hu).1.trans hr
    have hinvu : Inv u := h.safe_execEncTake.of_next hu
    obtain ⟨v, hv⟩ := hlo ▸ hinvu.mainLoop_completes hur
    by_cases hhi : v.encPh = .hi
    · have hvr := (mailbox_of_execEncLo hv).1.trans hur
      obtain ⟨t, ht⟩ := hhi ▸ (hinvu.safe_execEncLo.of_next hv).mainLoop_completes hvr
      exact ⟨t, u, hu, .inr ⟨hlo, v, hv, .inr ⟨hhi, ht⟩⟩⟩
    · exact ⟨v, u, hu, .inr ⟨hlo, v, hv, .inl ⟨hhi, rfl⟩⟩⟩
  · exact ⟨u, u, hu, .inl ⟨hlo, rfl⟩⟩

/-- ENCODE of an empty mailbox does nothing (R75, R111). -/
theorem Inv.encodeOnce_of_empty (h : Inv s) (hr : s.captureRunning = false) (hph : s.encPh = .take)
    (hd : s.sample.duration = 0#16) : encodeOnce s = .next s :=
  encodeOnce_eq_next.2 ⟨s, execEncTake_of_empty hr hph (h.pce_of_not_running hr) hd, .inl ⟨by simp [hph], rfl⟩⟩

/-- ENCODE under the policy `word` with fewer than two free slots takes the sample and drops its word (R115). -/
theorem encodeOnce_drops (hr : s.captureRunning = false) (hph : s.encPh = .take) (hd : s.sample.duration ≠ 0#16)
    (hpolicy : s.cfg.pushPolicy = .word) (hfree : s.ringFree < 2) :
    encodeOnce s = .next { (sampleTaken s).noteIf true .ringFull with encPh := .take } :=
  encodeOnce_eq_next.2 ⟨_, execEncTake_of_sample hr hph hd,
    .inr ⟨rfl, _, execEncLo_drops hr rfl hpolicy hfree, .inl ⟨by simp, rfl⟩⟩⟩

end

/-- Settles O56: ENCODE leaves the mailbox empty at its phase, where a second ENCODE does nothing. -/
theorem sampleIsEncodedAtMostOnce : Obligations.SampleIsEncodedAtMostOnce := by
  intro s h hr hph
  obtain ⟨t, ht⟩ := h.encodeOnce_completes hr hph
  obtain ⟨htr, htd, htp⟩ := mailbox_of_encodeOnce ht
  have hinv : Inv t := h.safe_encodeOnce.of_next ht
  refine ⟨h.encodeOnce_of_empty hr hph, t, ht, htd, htp, hinv.encodeOnce_of_empty (htr.trans hr) htp htd,
    fun hd hfree => ?_, fun hpolicy hfree => ?_⟩
  · have hroom := room_of_ringFree (by decide) hfree
    obtain rfl := next_inj.1 ((h.encodeOnce_of_room hr hph hd hroom).symm.trans ht)
    exact h.contents_sampleStored hroom
  · by_cases hd : s.sample.duration = 0#16
    · obtain rfl := next_inj.1 ((h.encodeOnce_of_empty hr hph hd).symm.trans ht)
      exact ⟨rfl, rfl⟩
    · obtain rfl := next_inj.1 ((encodeOnce_drops hr hph hd hpolicy hfree).symm.trans ht)
      exact ⟨rfl, rfl⟩

end Sys2Proof.Machine

/-! PROOFS. The agents' turns (60_exceptions.md R186, R187): each of them completes in a sound state; and between ENC_LO and
ENC_HI the other agents' turns leave the word and the room for its high byte (41_encoder.md R115, decision D10). -/

namespace Sys2Proof.Machine

section
variable {s t : State} {x : Turn}

/-! ### Every turn completes -/

/-- A change of the pin completes where its events are enabled, and always in the split form (R94, R96). -/
theorem execEdge_completes (h : (s.cfg.captureAtomic && !s.pce) = false) : ∃ t, execEdge (!s.irLevel) s = .next t := by
  have hl : (!s.irLevel) ≠ s.irLevel := by simp
  cases ha : s.cfg.captureAtomic with
  | true =>
    have hp : s.pce = true := by simpa [ha] using h
    exact ⟨_, (execEdge_atomic_eq_next ha).2 ⟨hl, hp, rfl⟩⟩
  | false =>
    rw [execEdge_split ha]
    simp only [pinChange_eq_next]
    by_cases hidle : s.pce = true ∧ s.capPh = .none
    · exact ⟨_, hl, .inl ⟨hidle.1, hidle.2, rfl⟩⟩
    · exact ⟨_, hl, .inr ⟨hidle, rfl⟩⟩

/-- The turn of an agent that may not step passes, and every other turn's operation completes (R116 (d), R129, R180). -/
theorem Inv.runTurn_completes (h : Inv s) (x : Turn) : ∃ t, runTurn x s = .next t := by
  cases x with
  | timer =>
    simp only [runTurn]
    split
    next => exact ⟨s, rfl⟩
    next hw => exact execTick_completes (tickBarred_of_not_timerWaits (Bool.eq_false_iff.2 hw)) h.st_legal h.rd_lt
  | pin =>
    simp only [runTurn]
    split
    next => exact ⟨s, rfl⟩
    next hp => exact execEdge_completes (Bool.eq_false_iff.2 hp)
  | capture =>
    simp only [runTurn]
    split
    next => exact ⟨_, rfl⟩
    next => exact ⟨s, rfl⟩
  | mainLoop =>
    simp only [runTurn]
    split
    next => exact ⟨s, rfl⟩
    next hr => exact h.mainLoop_completes (Bool.eq_false_iff.2 hr)
  | reset => exact ⟨_, rfl⟩

/-! ### Between ENC_LO and ENC_HI -/

/-- A TICK takes bytes from the ring and puts none into it (R51, R140). -/
theorem Inv.ringCount_le_of_txEdge (h : Inv s) (e : TxEdge s t) : t.ringCount ≤ s.ringCount := by
  cases e with
  | begin hst he hr ht =>
    subst ht
    exact Nat.le_of_succ_le (ringCount_popped h he).le
  | toIdle _ _ ht | start _ ht | data _ _ _ _ ht | lastData _ ht | stop _ _ _ ht | lastStop _ ht =>
    subst ht
    exact Nat.le_refl _

/-- From `s` to `t` the encoder's phase and word stay and the ring gets no fuller: what the other agents' turns do between
ENC_LO and ENC_HI. -/
structure EncoderKept (s t : State) : Prop where
  encPh : t.encPh = s.encPh
  encW : t.encW = s.encW
  cfg : t.cfg = s.cfg
  ringCount : t.ringCount ≤ s.ringCount

theorem encoderKept_refl (s : State) : EncoderKept s s := ⟨rfl, rfl, rfl, Nat.le_refl _⟩

theorem Inv.encoderKept_of_execTick (h : Inv s) (ht : execTick s = .next t) : EncoderKept s t := by
  obtain ⟨v, hv, rfl⟩ := txStep_of_execTick ht
  have hkept := keptByTimer_of_txStep hv
  simp only [State.keptByTimer, Prod.mk.injEq] at hkept
  obtain ⟨-, hph, hw, -⟩ := hkept
  exact ⟨hph, hw, (cfg_of_txStep hv :), (h.ringCount_le_of_txEdge (txStep_eq_next.1 hv) :)⟩

theorem encoderKept_of_execEdge {l : Level} (ht : execEdge l s = .next t) : EncoderKept s t := by
  have hkept := keptByPin_of_execEdge ht
  have hcfg := cfg_of_execEdge ht
  simp only [State.keptByPin, Prod.mk.injEq] at hkept
  obtain ⟨-, hrd, hwr, -, -, -, hph, hw⟩ := hkept
  exact ⟨hph, hw, hcfg, by simp only [State.ringCount, hrd, hwr, hcfg, Nat.le_refl]⟩

theorem encoderKept_capStep (s : State) : EncoderKept s (capStep s) := by
  rw [capStep_frame]
  exact ⟨rfl, rfl, rfl, Nat.le_refl _⟩

theorem Inv.encoderKept_of_runTurn (h : Inv s) (hx : x = .timer ∨ x = .pin ∨ x = .capture)
    (ht : runTurn x s = .next t) : EncoderKept s t := by
  rcases hx with rfl | rfl | rfl
  · simp only [runTurn] at ht
    split at ht
    · exact next_inj.1 ht ▸ encoderKept_refl s
    · exact h.encoderKept_of_execTick ht
  · simp only [runTurn] at ht
    split at ht
    · exact next_inj.1 ht ▸ encoderKept_refl s
    · exact encoderKept_of_execEdge ht
  · simp only [runTurn] at ht
    split at ht
    · exact next_inj.1 ht ▸ encoderKept_capStep s
    · exact next_inj.1 ht ▸ encoderKept_refl s

/-- ENC_HI is due: the high byte of `w` is to be pushed, and it has room (R115). -/
structure HighByteDue (w : Word) (s : State) : Prop where
  inv : Inv s
  encPh : s.encPh = .hi
  encW : s.encW = w
  room : s.ringCount + 1 < s.cfg.ringCap

theorem HighByteDue.kept_by_runTurns {w : Word} {ts : List Turn} (hd : HighByteDue w s)
    (hts : ∀ x ∈ ts, x = .timer ∨ x = .pin ∨ x = .capture) : ∃ u, runTurns ts s = .next u ∧ HighByteDue w u := by
  induction ts generalizing s with
  | nil => exact ⟨s, rfl, hd⟩
  | cons x xs ih =>
    obtain ⟨hx, hxs⟩ := List.forall_mem_cons.1 hts
    obtain ⟨t, ht⟩ := hd.inv.runTurn_completes x
    have hkept := hd.inv.encoderKept_of_runTurn hx ht
    have hdue : HighByteDue w t :=
      { inv := (hd.inv.safe_stepIn (stepIn_runTurn x s)).of_next ht
        encPh := hkept.encPh.trans hd.encPh
        encW := hkept.encW.trans hd.encW
        room := hkept.cfg ▸ (Nat.succ_le_succ hkept.ringCount).trans_lt hd.room }
    obtain ⟨u, hu, hdu⟩ := ih hdue hxs
    exact ⟨u, by rw [runTurns, ht, andThen_next, hu], hdu⟩

theorem HighByteDue.execEncHi_stores {w : Word} (hd : HighByteDue w s) (hr : s.captureRunning = false) :
    ∃ v, execEncHi s = .next v ∧ v.contents = s.contents ++ [hiByte w] :=
  ⟨_, hd.inv.execEncHi_of_room hr hd.encPh hd.room, hd.encW ▸ hd.inv.contents_byteStored hd.room _⟩

/-- With two slots free ENC_LO stores its byte and leaves the room of the high one (R115). -/
theorem Inv.highByteDue_lowStored (h : Inv s) (hph : s.encPh = .lo) (hroom : s.ringCount + 2 < s.cfg.ringCap) :
    HighByteDue s.encW (lowStored s) where
  inv := { inv_byteStored h (loByte s.encW) with word_duration := fun _ => h.word_duration (by simp [hph]) }
  encPh := rfl
  encW := rfl
  room := room_byteStored hroom (loByte s.encW)

end

/-- Settles O14: with nothing scheduled a step is an agent's turn, and every turn completes. -/
theorem unscheduledStepAlwaysCompletes : Obligations.UnscheduledStepAlwaysCompletes := by
  intro s h hsched
  simp only [step, runNext, hsched]
  exact (h.rescheduled [] (s.turn + 1)).runTurn_completes _

/-- Settles O31: ENC_LO leaves a state in which ENC_HI is due, and the other agents' turns keep it so. -/
theorem wordPolicyNeverTears : Obligations.WordPolicyNeverTears := by
  refine fun s h hr hph hpolicy => ⟨execEncLo_drops hr hph hpolicy, fun hfree => ?_⟩
  have hroom := room_of_ringFree (by decide) hfree
  refine ⟨_, h.execEncLo_of_room hr hph hroom, h.contents_byteStored (Nat.lt_of_succ_lt hroom) _, rfl, fun ts hts => ?_⟩
  obtain ⟨u, hu, hdue⟩ := (h.highByteDue_lowStored hph hroom).kept_by_runTurns hts
  exact ⟨u, hu, hdue.execEncHi_stores⟩

end Sys2Proof.Machine

/-! PROOFS. The ring's operations (42_txring.md R125 to R131): PUSH and POP with the cursors in range; the ring as a queue of
bounded length, byte by byte and over many pushes; the cursors, which every operation leaves or advances by one; and what
DRAIN sends (R128, 70_reset_and_hazards.md R221). -/

namespace Sys2Proof.Machine

/-! ### PUSH -/

section
variable {s t u : State} {b : Byte}

/-- R129: a full ring takes a PUSH in every state, and drops its byte. -/
theorem execPush_of_full (hf : s.ringFull = true) (b : Byte) : execPush b s = .next (s.noteIf true .ringFull) :=
  execPush_eq_next.2 ⟨.inl hf, pushByte_eq_next.2 (.inl ⟨hf, rfl⟩)⟩

/-- Outside a split capture a ring that is not full stores the byte (R126). -/
theorem execPush_stores (hf : s.ringFull = false) (hr : s.captureRunning = false) (hw : s.wr < s.cfg.ringCap) (b : Byte) :
    execPush b s = .next (byteStored b s) :=
  execPush_eq_next.2 ⟨.inr hr, pushByte_eq_next.2 (.inr ⟨hf, hw, rfl⟩)⟩

/-- One slot is never used (R125): a ring that is not full has room for one byte beside it. -/
theorem room_of_not_full (hrd : s.rd < s.cfg.ringCap) (hwr : s.wr < s.cfg.ringCap) (hf : s.ringFull = false) :
    s.ringCount + 1 < s.cfg.ringCap := by
  have hne : ¬ s.ringCount = s.cfg.ringCap - 1 := by simpa [hf] using (ringFull_iff hrd hwr).symm
  have hlt := ringCount_lt s
  omega

/-- A ring with a byte stored is not empty (R126). -/
theorem ringEmpty_byteStored (hrd : s.rd < s.cfg.ringCap) (hroom : s.ringCount + 1 < s.cfg.ringCap) (b : Byte) :
    (byteStored b s).ringEmpty = false := by
  rw [← Bool.not_eq_true, ringEmpty_iff (s := byteStored b s) hrd (nextCursor_lt s s.wr), ringCount_byteStored hroom]
  exact Nat.succ_ne_zero _

/-! ### POP -/

/-- With the cursors in range, one byte less is buffered after `rd` advanced (R127). -/
theorem ringCount_advanced (hrd : s.rd < s.cfg.ringCap) (hwr : s.wr < s.cfg.ringCap) (hne : s.rd ≠ s.wr) :
    State.ringCount { s with rd := s.nextCursor s.rd } + 1 = s.ringCount := by
  rw [ringCount_eq hrd hwr, ringCount_eq (s := { s with rd := s.nextCursor s.rd }) (nextCursor_lt s s.rd) hwr]
  -- the next slot or slot 0, at or before `wr` or after it
  simp only [nextCursor_eq hrd]
  split <;> split <;> split <;> omega

/-- Where a byte has left, one more has room (R127). -/
theorem ringFull_advanced (hrd : s.rd < s.cfg.ringCap) (hwr : s.wr < s.cfg.ringCap) (hne : s.rd ≠ s.wr) :
    State.ringFull { s with rd := s.nextCursor s.rd } = false := by
  have hcount := ringCount_advanced hrd hwr hne
  have hlt := ringCount_lt s
  rw [← Bool.not_eq_true, ringFull_iff (s := { s with rd := s.nextCursor s.rd }) (nextCursor_lt s s.rd) hwr]
  dsimp only
  omega

theorem execPop_of_empty (hr : s.captureRunning = false) (hrw : s.rd = s.wr) : execPop s = .refused .popEmpty := by
  simp [execPop, outsideCapture, hr, popByte, State.ringEmpty, hrw]

/-! ### The bounded queue -/

/-- A queue holds at most `RING_CAP - 1` bytes (R125). -/
theorem length_contents_le (s : State) : s.contents.length ≤ s.cfg.ringCap - 1 := by
  rw [length_contents]
  exact Nat.le_sub_one_of_lt (ringCount_lt s)

/-- From `s` to `t` the bytes `bs` were put into the queue: it keeps the oldest `RING_CAP - 1` bytes, and each of the others
was dropped with a note (R126, R130). -/
structure Enqueued (bs : List Byte) (s t : State) : Prop where
  cfg : t.cfg = s.cfg
  contents : t.contents = (s.contents ++ bs).take (s.cfg.ringCap - 1)
  drops : t.notes.ringFull = s.notes.ringFull + (s.contents.length + bs.length - (s.cfg.ringCap - 1))

theorem enqueued_nil (s : State) : Enqueued [] s s where
  cfg := rfl
  contents := by rw [List.append_nil, List.take_of_length_le (length_contents_le s)]
  drops := by rw [List.length_nil, Nat.add_zero, Nat.sub_eq_zero_of_le (length_contents_le s), Nat.add_zero]

theorem Enqueued.trans {as bs : List Byte} (ha : Enqueued as s u) (hb : Enqueued bs u t) : Enqueued (as ++ bs) s t where
  cfg := hb.cfg.trans ha.cfg
  contents := by
    have hroom (n m : Nat) : n - min n m = n - m := by omega
    rw [hb.contents, ha.contents, ha.cfg, ← List.append_assoc]
    simp only [List.take_append (l₂ := bs), List.take_take, Nat.min_self, List.length_take, hroom]
  drops := by
    rw [hb.drops, ha.drops, ha.contents, ha.cfg, List.length_take, List.length_append, List.length_append]
    omega

/-- PUSH puts its byte into the queue (R126). -/
theorem Inv.enqueued_of_pushByte (h : Inv s) (ht : pushByte b s = .next t) : Enqueued [b] s t := by
  rcases pushByte_eq_next.1 ht with ⟨hf, rfl⟩ | ⟨hf, -, rfl⟩
  · have hlen : s.contents.length = s.cfg.ringCap - 1 := by
      rw [length_contents]
      exact (ringFull_iff h.rd_lt h.wr_lt).1 hf
    exact ⟨rfl, (List.take_left' hlen).symm, by simp [hlen, Notes.count]⟩
  · have hroom := room_of_not_full h.rd_lt h.wr_lt hf
    have hlen : s.contents.length + 1 ≤ s.cfg.ringCap - 1 := by
      rw [length_contents]
      omega
    refine ⟨rfl, ?_, ?_⟩
    · rw [List.take_of_length_le (by simpa using hlen)]
      exact h.contents_byteStored hroom b
    · rw [List.length_singleton, Nat.sub_eq_zero_of_le hlen, Nat.add_zero]

/-- Many pushes put their bytes into the queue one after the other (R126). -/
theorem Inv.enqueued_of_pushes {bs : List Byte} (h : Inv s)
    (ht : runTrace (bs.map fun b => .op (.push b)) s = .next t) : Enqueued bs s t := by
  induction bs generalizing s with
  | nil =>
    cases ht
    exact enqueued_nil _
  | cons b bs ih =>
    obtain ⟨u, hu, hrest⟩ := andThen_eq_next.1 ht
    have hpush : Enqueued [b] s u := h.enqueued_of_pushByte (execPush_eq_next.1 hu).2
    exact hpush.trans (ih ((h.safe_execPush b).of_next hu) hrest)

/-- TX_STEP takes the oldest byte off the queue where it begins a frame, and it does so at every frame boundary with a byte
in the ring (R128, R149). -/
theorem Inv.contents_of_txEdge (h : Inv s) (e : TxEdge s t) :
    ((s.st = .idle ∨ s.st = .txend) ∧ s.contents = t.tsr :: t.contents ∧ t.st = .startbit) ∨
      (t.contents = s.contents ∧ ((s.st = .idle ∨ s.st = .txend) → s.contents = [])) := by
  cases e with
  | toIdle _ he ht =>
    subst ht
    exact .inr ⟨rfl, fun _ => h.contents_of_empty he⟩
  | begin hst he _ ht =>
    subst ht
    exact .inl ⟨hst, h.contents_popped he, rfl⟩
  | start hst ht | data _ _ _ hst ht | lastData hst ht | stop _ _ hst ht | lastStop hst ht =>
    subst ht
    exact .inr ⟨rfl, by simp [hst]⟩

theorem contents_of_execEdge {l : Level} (ht : execEdge l s = .next t) : t.contents = s.contents := by
  rcases execEdge_eq_next.1 ht with ⟨-, hatomic⟩ | ⟨-, hpin⟩
  · obtain ⟨-, -, rfl⟩ := edgeAtomic_eq_next.1 hatomic
    rfl
  · obtain ⟨-, ⟨-, -, rfl⟩ | ⟨-, rfl⟩⟩ := pinChange_eq_next.1 hpin <;> rfl

theorem contents_of_execEncTake (ht : execEncTake s = .next t) : t.contents = s.contents := by
  obtain ⟨-, -, rfl⟩ := execEncTake_eq_next.1 ht
  split <;> rfl

end

/-- Settles O35: the drop of a full ring notes it, and no more. -/
theorem fullPushChangesNoRegister : Obligations.FullPushChangesNoRegister := fun b _ hf =>
  ⟨_, execPush_of_full hf b, rfl, rfl⟩

/-- Settles O33: a full ring drops the byte; one with room stores it at `wr`, which the buffered slots do not meet. -/
theorem pushStoresOrDrops : Obligations.PushStoresOrDrops := by
  refine fun b s hrd hwr => ⟨fun hfull => execPush_of_full (beq_iff_eq.2 hfull) b, fun hfree hr => ?_⟩
  have hf : s.ringFull = false := beq_eq_false_iff_ne.2 hfree
  have hroom := room_of_not_full hrd hwr hf
  exact ⟨_, execPush_stores hf hr hwr b, rfl, Memory.read_write_same _ _ _, fun _ ha => Memory.read_write_other _ _ ha,
    ringCount_byteStored hroom b, ringEmpty_byteStored hrd hroom b⟩

/-- Settles O34: an empty ring has no byte to return; from any other the byte at `rd` is taken. -/
theorem popTakesTheOldestByte : Obligations.PopTakesTheOldestByte := by
  refine fun s hr hrd hwr => ⟨execPop_of_empty hr, fun hne => ?_⟩
  have he : s.ringEmpty = false := beq_eq_false_iff_ne.2 hne
  exact ⟨_, execPop_eq_next.2 ⟨hr, he, hrd, rfl⟩, rfl, ringCount_advanced hrd hwr hne, ringFull_advanced hrd hwr hne⟩

/-- Settles O36: PUSH puts its byte into the queue, POP and the TICK that begins a frame take the oldest one. -/
theorem ringIsABoundedQueue : Obligations.RingIsABoundedQueue := by
  refine fun s t h => ⟨length_contents_le s, fun b ht => ?_, fun ht => ?_, fun ht => ?_, fun _ => contents_of_execEdge,
    contents_of_execEncTake⟩
  · rw [(h.enqueued_of_pushByte (execPush_eq_next.1 ht).2).contents]
    split
    next hroom => exact List.take_of_length_le (by simpa using hroom)
    next hfull => exact List.take_left' (Nat.le_antisymm (length_contents_le s) (Nat.le_of_not_lt hfull))
  · obtain ⟨-, he, -, rfl⟩ := execPop_eq_next.1 ht
    exact ⟨_, h.contents_popped he, rfl⟩
  · obtain ⟨v, hv, rfl⟩ := txStep_of_execTick ht
    exact (h.contents_of_txEdge (txStep_eq_next.1 hv) :)

/-- Settles O37: the pushed bytes are put into the queue one after the other, and an empty one has its whole capacity. -/
theorem pushesFillUpToCapacity : Obligations.PushesFillUpToCapacity := by
  intro bs s t h hempty ht
  obtain ⟨-, hqueue, hdrops⟩ := h.enqueued_of_pushes ht
  rw [hempty] at hqueue hdrops
  rw [List.length_nil, Nat.zero_add] at hdrops
  exact ⟨hqueue, hdrops⟩

/-! ### The cursors -/

section
variable {i : Instr} {s t : State}

/-- TX_STEP leaves the read cursor, or advances it by one where it begins a frame (R131, R149). -/
theorem rd_of_txEdge (e : TxEdge s t) : t.rd = s.rd ∨ t.rd = s.nextCursor s.rd := by
  cases e with
  | begin _ _ _ ht =>
    subst ht
    exact .inr rfl
  | toIdle _ _ ht | start _ ht | data _ _ _ _ ht | lastData _ ht | stop _ _ _ ht | lastStop _ ht =>
    subst ht
    exact .inl rfl

/-- Within a frame every step of the transmitter is one of the quanta that are left (R152), in every state. -/
theorem length_restOfFrame_of_txEdge (e : TxEdge s t) (hidle : s.st ≠ .idle) (hend : s.st ≠ .txend) :
    (restOfFrame s.cfg s.tsr s.st).length = (restOfFrame t.cfg t.tsr t.st).length + 1 := by
  cases e with
  | toIdle hst _ _ | begin hst _ _ _ => exact absurd hst (not_or.2 ⟨hidle, hend⟩)
  | start hst ht | data _ _ _ hst ht | lastData hst ht | stop _ _ hst ht | lastStop hst ht =>
    subst ht
    simp only [hst, restOfFrame, bitDriven, List.length_append, length_bitLevels, List.length_replicate, List.length_nil]
    omega

/-- The TICKs that are left of a frame take no byte (R152). -/
theorem rd_of_ticks_in_frame {n : Nat} (hn : n ≤ (restOfFrame s.cfg s.tsr s.st).length) (h : ticks n s = .next t) :
    t.rd = s.rd := by
  induction n generalizing s with
  | zero =>
    cases h
    rfl
  | succ n ih =>
    obtain ⟨u, hu, ht⟩ := andThen_eq_next.1 h
    obtain ⟨v, hv, rfl⟩ := txStep_of_execTick hu
    have e := txStep_eq_next.1 hv
    have hidle : s.st ≠ .idle := fun hst => by simp [hst, restOfFrame] at hn
    have hend : s.st ≠ .txend := fun hst => by simp [hst, restOfFrame] at hn
    obtain ⟨-, hrd, -⟩ := e.in_frame hidle hend
    rw [length_restOfFrame_of_txEdge e hidle hend] at hn
    exact (ih (s := recordTick (cntInc v)) (Nat.le_of_succ_le_succ hn) ht).trans hrd

/-- At a frame boundary with a byte in the ring, a TICK that completes begins that byte's frame, in every state (R149). -/
theorem frameBegun_of_execTick (hst : s.st = .idle ∨ s.st = .txend) (he : s.ringEmpty = false)
    (h : execTick s = .next t) : t = recordTick (cntInc (frameBegun s)) := by
  obtain ⟨v, hv, rfl⟩ := txStep_of_execTick h
  have hrow : txStep s = beginOrIdle s := by
    rcases hst with hst | hst <;> simp [txStep, hst, execTxIdle, execTxEnd, whenSelected]
  rcases beginOrIdle_eq_next.1 (hrow ▸ hv) with ⟨he', -⟩ | ⟨-, -, rfl⟩
  · simp [he] at he'
  · rfl

/-- FRAME takes the one byte whose frame its TICKs send (R131, R152; log 10). -/
theorem rd_of_execFrame {b : Byte} (h : execFrame b s = .next t) : t.rd = s.nextCursor s.rd := by
  obtain ⟨hbound, hhead, hticks⟩ := execFrame_eq_next.1 h
  have hst : s.st = .idle ∨ s.st = .txend := by simpa [atFrameBoundary] using hbound
  have he : s.ringEmpty = false := by simpa using (Bool.and_eq_true_iff.1 hhead).1
  have hlen : s.cfg.frameTicks = (restOfFrame s.cfg (s.slotByte s.rd) .startbit).length + 1 :=
    (length_frameLevels s.cfg (s.slotByte s.rd)).symm
  rw [hlen] at hticks
  obtain ⟨u, hu, ht⟩ := andThen_eq_next.1 hticks
  obtain rfl := frameBegun_of_execTick hst he hu
  exact rd_of_ticks_in_frame (s := recordTick (cntInc (frameBegun s))) (Nat.le_refl _) ht

/-- The timer's operations take at most one byte each, a TICK and a FRAME among them (R127, R131, R149). -/
theorem rd_of_exec_timer (hi : performer i = .timer) (h : exec i s = .next t) :
    t.rd = s.rd ∨ t.rd = s.nextCursor s.rd := by
  cases i with
  | tick =>
    obtain ⟨v, hv, rfl⟩ := txStep_of_execTick h
    exact (rd_of_txEdge (txStep_eq_next.1 hv) :)
  | pop =>
    obtain ⟨-, -, -, rfl⟩ := execPop_eq_next.1 h
    exact .inr rfl
  | txIdle | txStart | txData0 | txData1 | txData2 | txData3 | txData4 | txData5 | txData6 | txData7 | txStop0 | txStop1
  | txEnd =>
    rw [exec_txRow rfl] at h
    exact rd_of_txEdge (txStep_eq_next.1 (whenSelected_eq_next.1 h).2)
  | frame b => exact .inr (rd_of_execFrame h)
  | reset | edge _ | encTake | encLo | encHi | push _ | word _ _ | oobPrefix => cases hi

/-- The main loop's operations push at most one byte each, WORD apart (R113, R114, R126, R131). -/
theorem wr_of_exec_mainLoop (hi : performer i = .mainLoop) (hword : ∀ l d, i ≠ .word l d) (h : exec i s = .next t) :
    t.wr = s.wr ∨ t.wr = s.nextCursor s.wr := by
  cases i with
  | encTake =>
    obtain ⟨-, -, rfl⟩ := execEncTake_eq_next.1 h
    split <;> exact .inl rfl
  | encLo =>
    obtain ⟨-, -, ⟨-, -, rfl⟩ | ⟨-, u, hu, rfl⟩⟩ := execEncLo_eq_next.1 h
    · exact .inl rfl
    · exact (wr_of_pushByte hu :)
  | encHi =>
    obtain ⟨-, -, u, hu, rfl⟩ := execEncHi_eq_next.1 h
    exact (wr_of_pushByte hu :)
  | push b => exact wr_of_pushByte (execPush_eq_next.1 h).2
  | word l d => exact absurd rfl (hword l d)
  | oobPrefix => cases h
  | reset | tick | edge _ | pop | txIdle | txStart | txData0 | txData1 | txData2 | txData3 | txData4 | txData5 | txData6
  | txData7 | txStop0 | txStop1 | txEnd | frame _ => cases hi

/-- Every operation but RESET is the timer's, a pin change or the main loop's (R186). -/
theorem performer_cases (hr : i ≠ .reset) : performer i = .timer ∨ performer i = .pin ∨ performer i = .mainLoop := by
  cases i <;> simp [performer] at hr ⊢

theorem wr_of_exec_timer (hi : performer i = .timer) (h : exec i s = .next t) : t.wr = s.wr := by
  have hk := keptByTimer_of_exec hi h
  simp only [State.keptByTimer, Prod.mk.injEq] at hk
  obtain ⟨-, -, -, -, hwr, -⟩ := hk
  exact hwr

theorem cursors_of_exec_pin (hi : performer i = .pin) (h : exec i s = .next t) : t.rd = s.rd ∧ t.wr = s.wr := by
  have hk := keptByPin_of_exec hi h
  simp only [State.keptByPin, Prod.mk.injEq] at hk
  obtain ⟨-, hrd, hwr, -⟩ := hk
  exact ⟨hrd, hwr⟩

theorem rd_of_exec_mainLoop (hi : performer i = .mainLoop) (h : exec i s = .next t) : t.rd = s.rd := by
  have hk := keptByMainLoop_of_exec hi h
  simp only [State.keptByMainLoop, Prod.mk.injEq] at hk
  obtain ⟨-, -, -, -, -, hrd, -⟩ := hk
  exact hrd

/-- WORD is its two pushes, each of them as a PUSH on its own (log 9). -/
theorem pushes_of_execWord {l : Level} {d : BitVec 15} (h : execWord l d s = .next t) :
    ∃ u, execPush (loByte (pulseWord l d)) s = .next u ∧ execPush (hiByte (pulseWord l d)) u = .next t := by
  obtain ⟨-, hr, u, hu, ht⟩ := execWord_eq_next.1 h
  have hru := (captureRunning_of_pushByte hu).trans hr
  exact ⟨u, (execPush_of_not_running hr _).trans hu, (execPush_of_not_running hru _).trans ht⟩

end

/-- Settles O38: the timer advances `rd` alone, the main loop `wr` alone, and a pin change neither. -/
theorem cursorsOnlyAdvanceByOne : Obligations.CursorsOnlyAdvanceByOne := by
  intro i s t hreset h
  have hword : ∀ l d, i = .word l d → ∃ u, exec (.push (loByte (pulseWord l d))) s = .next u ∧
      exec (.push (hiByte (pulseWord l d))) u = .next t := by
    rintro l d rfl
    exact pushes_of_execWord h
  rcases performer_cases hreset with hi | hi | hi
  · have hwr := wr_of_exec_timer hi h
    exact ⟨fun _ => .inl hwr, hword, rd_of_exec_timer hi h, fun _ => hwr, absurd hi⟩
  · obtain ⟨hrd, hwr⟩ := cursors_of_exec_pin hi h
    exact ⟨fun _ => .inl hwr, hword, .inl hrd, fun _ => hwr, fun _ => hrd⟩
  · have hrd := rd_of_exec_mainLoop hi h
    exact ⟨fun hw => wr_of_exec_mainLoop hi hw h, hword, .inl hrd, absurd hi, fun _ => hrd⟩

/-! ### DRAIN -/

/-- Settles O51: DRAIN sends all that is ahead of the line, from which a receiver reads the ring's bytes. -/
theorem drainSendsTheRingsBytes : Obligations.DrainSendsTheRingsBytes := by
  intro s h hr hst
  obtain ⟨t, ht, hrests, hobs, -⟩ := h.drain_sends hr
  obtain ⟨hidle, hempty⟩ := drained_iff.1 hrests
  exact ⟨t, lineAhead s, ht, hidle, hempty, hobs, h.receive_lineAhead hst⟩

end Sys2Proof.Machine

/-! PROOFS. The transmitter row by row (43_uart_tx.md R140 to R150): which row `st` selects, what a selected row does and that
every other one is refused; then where the pin is written, and the frames that are not next (R152). -/

namespace Sys2Proof.Machine

/-! ### Which row is selected -/

section
variable {i : Instr} {n : UartState} {s t : State}

/-- Each of these rows is a UART state of the opcode table (R72). -/
theorem fmt_of_mem_selectedRows {c : Config} : ∀ p ∈ selectedRows c, (encode p.1).fmt = .txstate := by
  simp [selectedRows, encode, txDescriptor]

/-- A row of one state is selected in that state alone: the rows of the table are distinct, and TX_STOP0 is none of them
(R140). -/
theorem rowSelected_iff : ∀ p ∈ selectedRows s.cfg, (rowSelected p.1 s = true ↔ s.st = p.2) := by
  simp [selectedRows, rowSelected]

/-- TX_STOP0 is selected in the stop states before the last one (R145). -/
theorem rowSelected_txStop0_iff : rowSelected .txStop0 s = true ↔ ∃ k < s.cfg.stopN, s.st = .stopbit k := by
  cases hst : s.st with
  | stopbit k => by_cases hk : k < s.cfg.stopN <;> simp [rowSelected, selectedRows, earlierStop, hst, hk]
  | idle | startbit | databit _ | txend => simp [rowSelected, selectedRows, earlierStop, hst]

theorem exec_of_rowSelected (hi : (encode i).fmt = .txstate) (hsel : rowSelected i s = true) : exec i s = txStep s := by
  rw [exec_txRow hi, hsel]
  rfl

theorem exec_of_not_rowSelected (hi : (encode i).fmt = .txstate) (hsel : ¬ rowSelected i s = true) :
    exec i s = .refused .txStateNotSelected := by
  rw [exec_txRow hi, Bool.eq_false_iff.2 hsel]
  rfl

/-- In its own state a row is TX_STEP (R140). -/
theorem exec_row_eq_txStep (hi : (i, n) ∈ selectedRows s.cfg) (hst : s.st = n) : exec i s = txStep s :=
  exec_of_rowSelected (fmt_of_mem_selectedRows _ hi) ((rowSelected_iff _ hi).2 hst)

/-- In a stop state before the last one TX_STOP0 is TX_STEP (R145). -/
theorem exec_txStop0_eq_txStep {k : Nat} (hst : s.st = .stopbit k) (hk : k < s.cfg.stopN) :
    exec .txStop0 s = txStep s :=
  exec_of_rowSelected rfl (rowSelected_txStop0_iff.2 ⟨k, hk, hst⟩)

/-- In its own state a row takes the edge of the state machine that leaves this state (R155). -/
theorem exec_row_of_txEdge (hi : (i, n) ∈ selectedRows s.cfg) (hst : s.st = n) (e : TxEdge s t) : exec i s = .next t :=
  (exec_row_eq_txStep hi hst).trans (txStep_eq_next.2 e)

/-- A stop state beyond the last one is no state (R148). -/
theorem txStep_of_stopN_lt {k : Nat} (hst : s.st = .stopbit k) (hk : s.cfg.stopN < k) :
    txStep s = .refused .illegalUartState := by
  simp only [txStep, hst]
  rw [if_neg (Nat.lt_asymm hk), if_neg (Nat.ne_of_gt hk)]

/-- A TICK that is not barred is TX_STEP after CNT_INC, and its record (R91). -/
theorem execTick_of_not_barred (hb : s.tickBarred = false) :
    execTick s = andThen (txStep (cntInc s)) fun t => .next (recordTick t) := by
  rw [execTick, hb]
  rfl

end

/-- Settles O20: the row that `st` selects is TX_STEP, and CNT_INC leaves `st` alone, so it selects the same row. -/
theorem tickPerformsTheSelectedRow : Obligations.TickPerformsTheSelectedRow := by
  intro s hb
  refine ⟨fun p hp hst => ?_, fun k hst hk => ?_, fun k hst hk => ?_⟩
  · rw [exec_row_eq_txStep (s := cntInc s) hp hst]
    exact execTick_of_not_barred hb
  · rw [exec_txStop0_eq_txStep (s := cntInc s) hst hk]
    exact execTick_of_not_barred hb
  · refine (execTick_of_not_barred hb).trans ?_
    rw [txStep_of_stopN_lt (s := cntInc s) hst hk, andThen_refused]

/-- Settles O45: each row is refused where it is not selected. -/
theorem txRowStopsWhereNotSelected : Obligations.TxRowStopsWhereNotSelected := by
  refine fun s => ⟨fun p hp hst => ?_, fun hlast => ?_⟩
  · exact exec_of_not_rowSelected (fmt_of_mem_selectedRows p hp) (mt (rowSelected_iff p hp).1 hst)
  · refine exec_of_not_rowSelected rfl fun hsel => ?_
    obtain ⟨k, hk, hst⟩ := rowSelected_txStop0_iff.1 hsel
    exact Nat.not_lt.2 (hlast k hst) hk

/-! ### What the selected row does -/

section
variable {i : Instr} {n : UartState} {s : State}

/-- The row of a frame boundary rests at MARK with an empty ring, and otherwise begins the oldest byte's frame
(R141, R147, R149). -/
theorem exec_row_of_boundary (hi : (i, n) ∈ selectedRows s.cfg) (hn : n = .idle ∨ n = .txend) (hst : s.st = n)
    (hr : s.rd < s.cfg.ringCap) :
    (s.rd = s.wr → exec i s = .next { s with txPin := s.cfg.markLevel, st := .idle }) ∧
    (s.rd ≠ s.wr → exec i s = .next (frameBegun s)) := by
  have hbound : s.st = .idle ∨ s.st = .txend := hst ▸ hn
  refine ⟨fun he => ?_, fun he => ?_⟩
  · exact exec_row_of_txEdge hi hst (.toIdle hbound (beq_iff_eq.2 he) rfl)
  · exact exec_row_of_txEdge hi hst (.begin hbound (beq_eq_false_iff_ne.2 he) hr rfl)

/-- The rows that drive a data bit are rows of one state (R142, R143). -/
theorem mem_selectedRows_of_dataRows {c : Config} : ∀ p ∈ dataRows, (p.1, p.2.1) ∈ selectedRows c := by
  simp [dataRows, selectedRows]

/-- They are the edges that begin in `startbit` and go from each data bit to the next one (R155). -/
theorem txEdge_of_dataRows : ∀ p ∈ dataRows, s.st = p.2.1 → TxEdge s (bitDriven p.2.2 s) := by
  have hdata (i j : Fin 8) (hij : j.val = i.val + 1) (hst : s.st = .databit i) : TxEdge s (bitDriven (.databit j) s) :=
    .data i j hij hst rfl
  simp only [dataRows, List.forall_mem_cons, List.not_mem_nil, false_imp_iff, implies_true, and_true]
  exact ⟨fun hst => .start hst rfl, hdata 0 1 rfl, hdata 1 2 rfl, hdata 2 3 rfl, hdata 3 4 rfl, hdata 4 5 rfl,
    hdata 5 6 rfl, hdata 6 7 rfl⟩

theorem exec_dataRow {p : Instr × UartState × UartState} (hp : p ∈ dataRows) (hst : s.st = p.2.1) :
    exec p.1 s = .next (bitDriven p.2.2 s) :=
  exec_row_of_txEdge (mem_selectedRows_of_dataRows p hp) hst (txEdge_of_dataRows p hp hst)

end

/-- Settles O40: `idle` is a frame boundary. -/
theorem txIdleRestsOrBegins : Obligations.TxIdleRestsOrBegins := fun _ hst hr =>
  exec_row_of_boundary (by simp [selectedRows]) (.inl rfl) hst hr

/-- Settles O44: `txend` is a frame boundary. -/
theorem txEndGoesOnOrRests : Obligations.TxEndGoesOnOrRests := fun _ hst hr =>
  exec_row_of_boundary (by simp [selectedRows]) (.inr rfl) hst hr

/-- Settles O41: a data row is one data drive, and a shift right by one is a division by two. -/
theorem txDataRowsDriveBits : Obligations.TxDataRowsDriveBits := by
  intro p hp s hst
  refine ⟨bitDriven p.2.2 s, exec_dataRow hp hst, rfl, rfl, ?_⟩
  simp only [bitDriven, BitVec.toNat_ushiftRight, Nat.shiftRight_one]

/-- Settles O42: the edge from `databit7`. -/
theorem txLastDataBitEntersStop : Obligations.TxLastDataBitEntersStop := fun _ hst =>
  exec_row_of_txEdge (by simp [selectedRows]) hst (.lastData hst rfl)

/-- Settles O43: the edges from the stop states. -/
theorem txStopRowsHoldThePin : Obligations.TxStopRowsHoldThePin := by
  refine fun s => ⟨fun k hst hk => ?_, fun hst => ?_⟩
  · exact (exec_txStop0_eq_txStep hst hk).trans (txStep_eq_next.2 (.stop k hk hst rfl))
  · exact exec_row_of_txEdge (by simp [selectedRows]) hst (.lastStop hst rfl)

/-! ### Where the pin is written -/

/-- The level of the pin after a TX_STEP from `s`, by the state it enters (R150). -/
def pinOnEntering (s : State) : UartState → Level
  | .idle | .stopbit 0 => s.cfg.markLevel
  | .startbit => s.cfg.spaceLevel
  | .databit _ => levelOf s.cfg (s.tsr.getLsbD 0)
  | .stopbit (_ + 1) | .txend => s.txPin

section
variable {i : Instr} {s t : State}

theorem TxEdge.txPin_eq (e : TxEdge s t) : t.txPin = pinOnEntering s t.st := by
  cases e with
  | toIdle _ _ ht | begin _ _ _ ht | start _ ht | data _ _ _ _ ht | lastData _ ht | stop _ _ _ ht | lastStop _ ht =>
    subst ht
    rfl

/-- A TICK writes the pin as its TX_STEP does (R91, R150). -/
theorem txPin_of_execTick (h : execTick s = .next t) : t.txPin = pinOnEntering s t.st := by
  obtain ⟨v, hv, rfl⟩ := txStep_of_execTick h
  exact ((txStep_eq_next.1 hv).txPin_eq :)

theorem txPin_of_exec_pin (hi : performer i = .pin) (h : exec i s = .next t) : t.txPin = s.txPin := by
  have hk := keptByPin_of_exec hi h
  simp only [State.keptByPin, Prod.mk.injEq] at hk
  obtain ⟨-, -, -, -, -, hpin, -⟩ := hk
  exact hpin

theorem txPin_of_exec_mainLoop (hi : performer i = .mainLoop) (h : exec i s = .next t) : t.txPin = s.txPin := by
  have hk := keptByMainLoop_of_exec hi h
  simp only [State.keptByMainLoop, Prod.mk.injEq] at hk
  obtain ⟨-, -, -, -, hpin, -⟩ := hk
  exact hpin

end

/-- Settles O46: the pin change and the main loop keep the pin, and so does POP; a TICK writes it by the state it
enters. -/
theorem pinIsWrittenOnlyByTheTransmitter : Obligations.PinIsWrittenOnlyByTheTransmitter := by
  refine ⟨fun i s t h htimer hreset => ?_, fun s t h => ?_, fun s t h => ?_⟩
  · rcases (performer_cases hreset).resolve_left htimer with hi | hi
    · exact txPin_of_exec_pin hi h
    · exact txPin_of_exec_mainLoop hi h
  · obtain ⟨-, -, -, rfl⟩ := execPop_eq_next.1 h
    rfl
  · rw [txPin_of_execTick h]
    refine ⟨?_, fun hst => ?_, fun i hst => ?_, ?_⟩
    · rintro (hst | hst) <;> rw [hst, pinOnEntering]
    · rw [hst, pinOnEntering]
    · rw [hst, pinOnEntering]
    · rintro (hst | ⟨k, hst⟩) <;> rw [hst, pinOnEntering]

/-! ### A frame that is not next -/

section
variable {b : Byte} {s : State}

theorem atFrameBoundary_iff : atFrameBoundary s = true ↔ s.st = .idle ∨ s.st = .txend := by simp [atFrameBoundary]

theorem headIs_iff : headIs b s = true ↔ s.rd ≠ s.wr ∧ s.buf.read s.rd = some b := by simp [headIs, State.ringEmpty]

theorem execFrame_of_not_next (h : ¬(atFrameBoundary s = true ∧ headIs b s = true)) :
    execFrame b s = .refused .frameNotNext :=
  if_neg (mt Bool.and_eq_true_iff.1 h)

end

/-- Settles O49: a frame is next at a frame boundary, with its byte at the head of a ring that is not empty. -/
theorem frameStopsWhereNotNext : Obligations.FrameStopsWhereNotNext := by
  intro b s h
  refine execFrame_of_not_next fun ⟨hbound, hhead⟩ => ?_
  obtain ⟨hne, hread⟩ := headIs_iff.1 hhead
  rcases h with ⟨hidle, hend⟩ | hempty | hother
  · exact (atFrameBoundary_iff.1 hbound).elim hidle hend
  · exact hne hempty
  · exact hother hread

end Sys2Proof.Machine

/-! PROOFS. The silent conditions (60_exceptions.md R171, R175): the counter that wraps, and the duration that is clamped. -/

namespace Sys2Proof.Machine

section
variable {l : Level} {s t : State}

/-- CNT_INC and the record of a TICK as one update (R92, R189). -/
theorem recordTick_cntInc_eq (s : State) : recordTick (cntInc s) = { s with
    cnt := s.cnt + 1#16
    ovf := s.ovf || s.cntWraps
    notes := if s.cntWraps then s.notes.count .counterOverflow else s.notes
    observed := s.txPin :: s.observed
    capTicked := s.capTicked || s.captureWindow } := rfl

/-- The TICK of a wrap is TX_STEP with the counter at 0, the flag set and the wrap noted; the rest is the record of any TICK
(R171). -/
theorem execTick_at_wrap (hcnt : s.cnt = 0xFFFF#16) (h : execTick s = .next t) : ∃ u, txStep s = .next u ∧
    t = { u with
      cnt := 0#16, ovf := true, notes := s.notes.count .counterOverflow,
      observed := u.txPin :: s.observed, capTicked := t.capTicked } := by
  obtain ⟨v, hv, rfl⟩ := txStep_of_execTick h
  obtain ⟨hvcnt, hvnotes, hvobs⟩ : v.cnt = 0xFFFF#16 ∧ v.notes = s.notes ∧ v.observed = s.observed := by
    rw [txStep_frame hv]
    exact ⟨hcnt, rfl, rfl⟩
  have hzero : v.cnt + 1#16 = 0#16 := by simp [hvcnt]
  have hwraps : v.cntWraps = true := cntWraps_iff.2 hvcnt
  refine ⟨v, hv, ?_⟩
  simp only [recordTick_cntInc_eq, hzero, hwraps, Bool.or_true, if_true, hvnotes, hvobs]

/-- With the flag set an EDGE stores the sentinel and clears the flag, in the split form once its micro-steps are done
(R94, R96, R171). -/
theorem sentinel_of_execEdge (ho : s.ovf = true) (h : execEdge l s = .next t) :
    (s.cfg.captureAtomic = true → t.sample.duration = Config.sentinel ∧ t.ovf = false) ∧
    (s.cfg.captureAtomic = false → s.pce = true → s.capPh = .none →
      (capSteps 6 t).sample.duration = Config.sentinel ∧ (capSteps 6 t).ovf = false) := by
  have hstored := congrArg Sample.duration (capture_sample_of_ovf l ho)
  refine ⟨fun ha => ?_, fun ha hp hnone => ?_⟩
  · obtain ⟨-, -, rfl⟩ := (execEdge_atomic_eq_next ha).1 h
    exact ⟨hstored, rfl⟩
  · obtain ⟨hsample, -, hcleared⟩ := capSteps_six_of_execEdge ha hp hnone h
    exact ⟨hsample ▸ hstored, hcleared⟩

end

/-- Settles O18: the wrapping TICK, the flag that no other operation clears, and the EDGE that reports it. -/
theorem counterOverflowSetsSentinel : Obligations.CounterOverflowSetsSentinel := by
  refine ⟨fun s t h hcnt => execTick_at_wrap hcnt h, fun i s t h ho hreset hedge => ?_,
    fun l s t h ho => sentinel_of_execEdge ho h⟩
  exact (ticksCounted_of_exec hreset hedge h).ovf.2 (.inl ho)

/-- Settles O29: the word of the sample that is taken, above the largest duration and up to it. -/
theorem durationClampsAtMaximum : Obligations.DurationClampsAtMaximum := by
  intro s t hph hd h
  obtain ⟨hr, -⟩ := execEncTake_eq_next.1 h
  obtain rfl := next_inj.1 ((execEncTake_of_sample hr hph hd).symm.trans h)
  obtain ⟨hlevel, hfield, -⟩ := encodedWordFields s.sample.level s.sample.duration
  have hnotes := notes_sampleTaken s
  refine ⟨fun hover => ⟨BitVec.eq_of_toNat_eq ?_, ?_⟩, fun hfits => ⟨?_, ?_⟩, hlevel⟩
  · exact hfield.trans (Nat.min_eq_right hover.le)
  · rw [hnotes, if_pos hover]
  · exact hfield.trans (Nat.min_eq_left hfits)
  · rw [hnotes, if_neg (Nat.not_lt.2 hfits), Nat.add_zero]

end Sys2Proof.Machine

/-! PROOFS. Turns and progress (60_exceptions.md R186, R187, decisions D15, D25): what each agent's turn performs; in the
atomic form, what a turn can do to a byte that waits in the ring and to a sample that waits in the mailbox; and that a
schedule with enough turns of the timer, or with one of the main loop, brings each of them on. -/

namespace Sys2Proof.Machine

/-! ### The turns -/

section
variable {x : Turn} {s t : State}

theorem step_turn {es : List Event} (h : s.sched = .turn x :: es) : step s = runTurn x { s with sched := es } := by
  simp only [step, runNext, h, runEvent]

theorem runTurn_timer (hw : s.timerWaits = false) : runTurn .timer s = exec .tick s := by
  simp only [runTurn, hw, Bool.false_eq_true, if_false]

theorem runTurn_pin (h : s.pce = true ∨ s.cfg.captureAtomic = false) : runTurn .pin s = exec (.edge (!s.irLevel)) s := by
  have henabled : (s.cfg.captureAtomic && !s.pce) = false := by rcases h with h | h <;> simp [h]
  simp only [runTurn, henabled, Bool.false_eq_true, if_false]

theorem runTurn_capture_of_not_running (hr : s.captureRunning = false) : runTurn .capture s = .next s := by
  simp only [runTurn, hr, Bool.false_eq_true, if_false]

theorem runTurn_mainLoop (hr : s.captureRunning = false) : runTurn .mainLoop s = exec (mainLoopInstr s.encPh) s := by
  simp only [runTurn, hr, Bool.false_eq_true, if_false]

end

/-- Settles O3: each agent's turn where it acts and where it passes. -/
theorem turnsPerformTheirAgentsOperation : Obligations.TurnsPerformTheirAgentsOperation := by
  refine fun s => ⟨fun x es hs => step_turn hs, fun hs => ?free, runTurn_timer, fun hw => ?timerWaits, runTurn_pin,
    fun ha hp => ?pinMasked, fun hr => ⟨?captureActs, ?mainLoopWaits⟩, fun hr => ⟨runTurn_capture_of_not_running hr,
    fun hph => ?take, fun hph => ?lo, fun hph => ?hi⟩, rfl⟩
  case free => simp only [step, runNext, hs]
  case timerWaits => simp only [runTurn, hw, if_true]
  case pinMasked => simp [runTurn, ha, hp]
  case captureActs | mainLoopWaits => simp only [runTurn, hr, if_true]
  case take | lo | hi => rw [runTurn_mainLoop hr, hph, mainLoopInstr]

/-! ### What a turn can do in the atomic form -/

section
variable {x : Turn} {s t : State}

/-- The turn of the agent `x`, RESET apart, leads from `s` to `t` in the atomic form, where no capture runs (R94, R186). -/
inductive AtomicTurn (s t : State) : Turn → Prop
  | timer (h : execTick s = .next t) : AtomicTurn s t .timer
  | pin (ht : t = capture (!s.irLevel) s) : AtomicTurn s t .pin
  | capture (ht : t = s) : AtomicTurn s t .capture
  | mainLoop (h : exec (mainLoopInstr s.encPh) s = .next t) : AtomicTurn s t .mainLoop

theorem captureRunning_of_atomic (ha : s.cfg.captureAtomic = true) : s.captureRunning = false := by
  simp [State.captureRunning, ha]

theorem Inv.atomicTurn_of_runTurn (h : Inv s) (ha : s.cfg.captureAtomic = true) (hx : x ≠ .reset)
    (ht : runTurn x s = .next t) : AtomicTurn s t x := by
  have hr := captureRunning_of_atomic ha
  cases x with
  | timer => exact .timer ((runTurn_timer (timerWaits_of_not_running hr)).symm.trans ht)
  | pin =>
    rw [runTurn_pin (.inl (h.pce_of_not_running hr))] at ht
    obtain ⟨-, -, rfl⟩ := (execEdge_atomic_eq_next ha).1 ht
    exact .pin rfl
  | capture => exact .capture (next_inj.1 ((runTurn_capture_of_not_running hr).symm.trans ht))
  | mainLoop => exact .mainLoop ((runTurn_mainLoop hr).symm.trans ht)
  | reset => exact absurd rfl hx

/-- A push leaves the schedule, and a ring that is not empty is not empty after it (R126). -/
theorem sched_and_ringEmpty_of_pushByte {b : Byte} (h : pushByte b s = .next t) :
    t.sched = s.sched ∧ (s.ringEmpty = false → t.ringEmpty = false) := by
  rcases pushByte_eq_next.1 h with ⟨-, rfl⟩ | ⟨hfull, -, rfl⟩
  · exact ⟨rfl, id⟩
  · exact ⟨rfl, fun _ => BEq.comm.trans hfull⟩

/-- The main loop leaves the schedule at each of its phases, and never empties the ring (R51, R110). -/
theorem sched_and_ringEmpty_of_mainLoop (h : exec (mainLoopInstr s.encPh) s = .next t) :
    t.sched = s.sched ∧ (s.ringEmpty = false → t.ringEmpty = false) := by
  cases hph : s.encPh with
  | take =>
    rw [hph] at h
    obtain ⟨-, -, rfl⟩ := execEncTake_eq_next.1 h
    split <;> exact ⟨rfl, id⟩
  | lo =>
    rw [hph] at h
    obtain ⟨-, -, ⟨-, -, rfl⟩ | ⟨-, u, hu, rfl⟩⟩ := execEncLo_eq_next.1 h
    · exact ⟨rfl, id⟩
    · exact (sched_and_ringEmpty_of_pushByte hu :)
  | hi =>
    rw [hph] at h
    obtain ⟨-, -, u, hu, rfl⟩ := execEncHi_eq_next.1 h
    exact (sched_and_ringEmpty_of_pushByte hu :)

theorem AtomicTurn.sched_eq (h : AtomicTurn s t x) : t.sched = s.sched := by
  cases h with
  | timer h =>
    rw [execTick_frame h]
    rfl
  | pin ht | capture ht =>
    subst ht
    rfl
  | mainLoop h => exact (sched_and_ringEmpty_of_mainLoop h).1

/-! ### A schedule of turns -/

/-- The turns `ts`, RESET not among them, are scheduled in a sound state of the atomic form. -/
structure Scheduled (ts : List Turn) (s : State) : Prop where
  inv : Inv s
  atomic : s.cfg.captureAtomic = true
  sched : s.sched = ts.map .turn
  no_reset : .reset ∉ ts

/-- The next step takes the first turn off the schedule, and that turn acts (R187). -/
theorem Scheduled.step_next {xs : List Turn} (h : Scheduled (x :: xs) s) :
    ∃ t, step s = .next t ∧ Scheduled xs t ∧ AtomicTurn { s with sched := xs.map .turn } t x := by
  obtain ⟨hx, hxs⟩ := not_or.1 (mt List.mem_cons.2 h.no_reset)
  have hinv := h.inv.rescheduled (xs.map .turn) s.turn
  obtain ⟨t, ht⟩ := hinv.runTurn_completes x
  have hturn := hinv.atomicTurn_of_runTurn h.atomic (Ne.symm hx) ht
  have hstep := stepIn_runTurn x { s with sched := xs.map .turn }
  refine ⟨t, (step_turn h.sched).trans ht, ?_, hturn⟩
  exact ⟨(hinv.safe_stepIn hstep).of_next ht, (cfg_of_stepIn hstep ht).symm ▸ h.atomic, hturn.sched_eq, hxs⟩

theorem run_succ_of_step (h : step s = .next t) (k : Nat) : Sys2Proof.core.run (k + 1) s = Sys2Proof.core.run k t := by
  have hstep : Sys2Proof.core.step s = .next t := h
  simp only [Host.Core.run, hstep]

/-- Bounded progress: where every turn either reaches the goal `Q` or leaves `P` to the turns after it, and `P` cannot be
left to no turn at all, the schedule reaches the goal within its length. -/
theorem Scheduled.reaches {P : List Turn → State → Prop} {Q : State → Prop} {ts : List Turn}
    (hnil : ∀ s, ¬ P [] s) (hsched : ∀ ts s es, P ts s → P ts { s with sched := es })
    (hturn : ∀ x xs s t, Inv s → s.cfg.captureAtomic = true → P (x :: xs) s → AtomicTurn s t x → Q t ∨ P xs t)
    (h : Scheduled ts s) (hp : P ts s) : ∃ k ≤ ts.length, ∃ t, Sys2Proof.core.run k s = .next t ∧ Q t := by
  induction ts generalizing s with
  | nil => exact absurd hp (hnil s)
  | cons x xs ih =>
    obtain ⟨t, ht, hxs, hact⟩ := h.step_next
    rcases hturn x xs _ t (h.inv.rescheduled (xs.map .turn) s.turn) h.atomic (hsched _ _ _ hp) hact with hq | hp'
    · exact ⟨1, by simp, t, run_succ_of_step ht 0, hq⟩
    · obtain ⟨k, hk, u, hu, hq⟩ := ih hxs hp'
      exact ⟨k + 1, Nat.succ_le_succ hk, u, (run_succ_of_step ht k).trans hu, hq⟩

/-! ### The oldest byte -/

/-- A byte waits in the ring, the read cursor after it is `n`, and the turns `ts` hold a TICK for every quantum left of
the frame in progress and one more (R128, R151). -/
structure ByteWaits (n : Nat) (ts : List Turn) (s : State) : Prop where
  next : s.nextCursor s.rd = n
  not_empty : s.ringEmpty = false
  ticks : (restOfFrame s.cfg s.tsr s.st).length < ts.count .timer

/-- What is left of a frame is less than a whole one (R153). -/
theorem length_restOfFrame_lt (c : Config) (b : Byte) (st : UartState) : (restOfFrame c b st).length < c.frameTicks := by
  cases st <;> simp only [restOfFrame, List.length_append, List.length_nil, length_bitLevels, List.length_replicate,
    Config.frameTicks] <;> omega

/-- A TICK at a frame boundary takes the byte; any other one shortens the frame in progress (R149, R152). -/
theorem ByteWaits.of_execTick {n : Nat} {xs : List Turn} (hp : ByteWaits n (.timer :: xs) s) (h : Inv s)
    (hr : s.captureRunning = false) (ht : execTick s = .next t) : t.rd = n ∨ ByteWaits n xs t := by
  by_cases hst : s.st = .idle ∨ s.st = .txend
  · obtain rfl := frameBegun_of_execTick hst hp.not_empty ht
    exact .inl hp.next
  · obtain ⟨hidle, hend⟩ := not_or.1 hst
    obtain ⟨u, hu, -, hrd, -, hrest⟩ := h.tick_in_frame hr hidle hend
    obtain rfl := next_inj.1 (ht.symm.trans hu)
    have hcfg := cfg_of_execTick ht
    have hwr : u.wr = s.wr := wr_of_exec_timer (i := .tick) rfl ht
    have hticks := hp.ticks
    rw [hrest, List.length_cons, List.count_cons_self] at hticks
    refine .inr ⟨?_, ?_, Nat.lt_of_succ_lt_succ hticks⟩
    · rw [← hp.next, State.nextCursor, State.nextCursor, hcfg, hrd]
    · rw [← hp.not_empty, State.ringEmpty, State.ringEmpty, hrd, hwr]

/-- The other agents' turns leave the transmitter and the byte where they are (R51, R94). -/
theorem AtomicTurn.transmitter_kept (h : AtomicTurn s t x) (hx : x ≠ .timer) : t.cfg = s.cfg ∧ t.rd = s.rd ∧
    t.st = s.st ∧ t.tsr = s.tsr ∧ (s.ringEmpty = false → t.ringEmpty = false) := by
  cases h with
  | timer _ => exact absurd rfl hx
  | pin ht | capture ht =>
    subst ht
    exact ⟨rfl, rfl, rfl, rfl, id⟩
  | mainLoop h =>
    have hkept := keptByMainLoop_of_exec (by cases s.encPh <;> rfl) h
    simp only [State.keptByMainLoop, Prod.mk.injEq] at hkept
    obtain ⟨-, -, hst, htsr, -, hrd, -⟩ := hkept
    exact ⟨cfg_of_exec h, hrd, hst, htsr, (sched_and_ringEmpty_of_mainLoop h).2⟩

theorem ByteWaits.of_turn {n : Nat} {xs : List Turn} (hp : ByteWaits n (x :: xs) s) (h : Inv s)
    (ha : s.cfg.captureAtomic = true) (hturn : AtomicTurn s t x) : t.rd = n ∨ ByteWaits n xs t := by
  by_cases hx : x = .timer
  · subst hx
    cases hturn with
    | timer ht => exact hp.of_execTick h (captureRunning_of_atomic ha) ht
  · obtain ⟨hcfg, hrd, hst, htsr, hne⟩ := hturn.transmitter_kept hx
    have hticks := hp.ticks
    rw [List.count_cons_of_ne hx] at hticks
    refine .inr ⟨?_, hne hp.not_empty, ?_⟩
    · rw [← hp.next, State.nextCursor, State.nextCursor, hcfg, hrd]
    · rwa [hcfg, htsr, hst]

/-! ### The waiting sample -/

/-- A sample waits in the mailbox at ENC_TAKE's phase, `m` overruns or more are noted, and the turns `ts` hold one of the
main loop (R110, R187). -/
structure SampleWaits (m : Nat) (ts : List Turn) (s : State) : Prop where
  encPh : s.encPh = .take
  duration : s.sample.duration ≠ 0#16
  overruns : m ≤ s.notes.mailboxOverrun
  mainLoop : .mainLoop ∈ ts

/-- The main loop's turn takes the sample, a pin change destroys it with a note, and the other turns leave it
(R94, R111, R173). -/
theorem SampleWaits.of_turn {m : Nat} {xs : List Turn} (hp : SampleWaits m (x :: xs) s) (h : AtomicTurn s t x) :
    (m < t.notes.mailboxOverrun ∨ t.encPh = .lo) ∨ SampleWaits m xs t := by
  have hlater : x ≠ .mainLoop → .mainLoop ∈ xs := fun hx => (List.mem_cons.1 hp.mainLoop).resolve_left (Ne.symm hx)
  cases h with
  | timer ht =>
    have hnotes : t.notes.mailboxOverrun = s.notes.mailboxOverrun := by
      rw [execTick_frame ht, State.recordTick_notes, State.cntInc_notes]
      split <;> rfl
    have hkept := keptByTimer_of_execTick ht
    simp only [State.keptByTimer, Prod.mk.injEq] at hkept
    obtain ⟨hsample, hph, -⟩ := hkept
    exact .inr ⟨hph.trans hp.encPh, hsample ▸ hp.duration, hnotes ▸ hp.overruns, hlater (by simp)⟩
  | pin ht =>
    have hnotes : t.notes.mailboxOverrun = s.notes.mailboxOverrun + 1 := by
      rw [ht, capture_eq, captureNotes_eq, if_neg hp.duration]
    exact .inl (.inl (hnotes ▸ Nat.lt_succ_of_le hp.overruns))
  | capture ht => exact .inr (ht ▸ { hp with mainLoop := hlater (by simp) })
  | mainLoop ht =>
    rw [hp.encPh] at ht
    obtain ⟨hr, -⟩ := execEncTake_eq_next.1 ht
    obtain rfl := next_inj.1 ((execEncTake_of_sample hr hp.encPh hp.duration).symm.trans ht)
    exact .inl (.inr rfl)

end

/-- Settles O60: as long as the byte or the sample waits, each turn leaves it to the turns after it or brings it on. -/
theorem fairTurnsMakeProgress : Obligations.FairTurnsMakeProgress := by
  intro ts s h ha hsched hreset
  have hts : Scheduled ts s := ⟨h, ha, hsched, hreset⟩
  refine ⟨fun hrw hticks => ?_, fun hph hd hmain => ?_⟩
  · have hbyte : ByteWaits (s.nextCursor s.rd) ts s :=
      ⟨rfl, by simp [State.ringEmpty, hrw], (length_restOfFrame_lt ..).trans_le hticks⟩
    exact hts.reaches (fun _ hp => Nat.not_lt_zero _ hp.ticks) (fun _ _ _ hp => { hp with })
      (fun _ _ _ _ hinv hatomic hp => hp.of_turn hinv hatomic) hbyte
  · have hsample : SampleWaits s.notes.mailboxOverrun ts s := ⟨hph, hd, Nat.le_refl _, hmain⟩
    exact hts.reaches (fun _ hp => List.not_mem_nil hp.mainLoop) (fun _ _ _ hp => { hp with })
      (fun _ _ _ _ _ _ hp => hp.of_turn) hsample

end Sys2Proof.Machine

/-! PROOFS. RESET and the levels of EDGE (70_reset_and_hazards.md R201, R214): RESET reads nothing of the block but the
parameters, and only EDGE and RESET write the register of the IR pin. -/

namespace Sys2Proof.Machine

/-! ### The level of the IR pin -/

section
variable {i : Instr} {l : Level} {s t : State}

/-- A pin change that happens is one to a new level, and the register takes it, in either form (R94, R96). -/
theorem irLevel_of_execEdge (h : execEdge l s = .next t) : l ≠ s.irLevel ∧ t.irLevel = l := by
  rcases execEdge_eq_next.1 h with ⟨-, hatomic⟩ | ⟨-, hpin⟩
  · obtain ⟨hl, -, rfl⟩ := edgeAtomic_eq_next.1 hatomic
    exact ⟨hl, rfl⟩
  · obtain ⟨hl, ⟨-, -, rfl⟩ | ⟨-, rfl⟩⟩ := pinChange_eq_next.1 hpin <;> exact ⟨hl, rfl⟩

/-- The timer's and the main loop's operations leave the register of the IR pin alone (R51). -/
theorem irLevel_of_exec (hr : i ≠ .reset) (he : ∀ k, i ≠ .edge k) (h : exec i s = .next t) : t.irLevel = s.irLevel := by
  rcases performer_cases hr with hi | hi | hi
  · have hk := keptByTimer_of_exec hi h
    simp only [State.keptByTimer, Prod.mk.injEq] at hk
    obtain ⟨-, -, -, -, -, -, hlevel⟩ := hk
    exact hlevel
  · cases i with
    | edge k => exact absurd rfl (he k)
    | reset | tick | encTake | encLo | encHi | push _ | pop | txIdle | txStart | txData0 | txData1 | txData2 | txData3
    | txData4 | txData5 | txData6 | txData7 | txStop0 | txStop1 | txEnd | word _ _ | frame _ | oobPrefix => cases hi
  · have hk := keptByMainLoop_of_exec hi h
    simp only [State.keptByMainLoop, Prod.mk.injEq] at hk
    obtain ⟨-, -, -, -, -, -, hlevel⟩ := hk
    exact hlevel

theorem irLevel_of_runTrace {is : List Instr} (his : ∀ i ∈ is, i ≠ .reset ∧ ∀ k, i ≠ .edge k)
    (h : runTrace (is.map .op) s = .next t) : t.irLevel = s.irLevel := by
  induction is generalizing s with
  | nil =>
    cases h
    rfl
  | cons i is ih =>
    obtain ⟨u, hu, ht⟩ := andThen_eq_next.1 h
    obtain ⟨⟨hr, he⟩, htail⟩ := List.forall_mem_cons.1 his
    exact (ih htail ht).trans (irLevel_of_exec hr he hu)

end

/-- Settles O23: the register still holds the first EDGE's level, and the next EDGE is one to a level it does not hold. -/
theorem capturedLevelsAlternate : Obligations.CapturedLevelsAlternate := by
  intro l l' is s t u v hfirst his hbetween hnext
  obtain ⟨-, hl⟩ := irLevel_of_execEdge hfirst
  have hu : u.irLevel = l := (irLevel_of_runTrace his hbetween).trans hl
  obtain ⟨hl', -⟩ := irLevel_of_execEdge hnext
  exact ⟨Bool.eq_not.2 (hu ▸ hl'), hu⟩

/-! ### RESET -/

/-- Settles O10: the state after RESET is made of the parameters and the model's own fields, the draw counter among
them (R200; log 26). -/
theorem nothingSurvivesReset : Obligations.NothingSurvivesReset := by
  intro s u hcfg hsched hturn hepoch hnotes hobserved hpop
  simp only [exec, execReset, hcfg, hsched, hturn, hepoch, hnotes, hobserved, hpop]

end Sys2Proof.Machine
